-- ==== Sys2Proof/Word.lean ====
section
/-! DEFINITION. The value types of the spec: the byte, the 16-bit table entry and the 32-bit register word (R9, R40, `10_state.md` section 2). -/

namespace Sys2Proof

/-- A byte: 8 bits, unsigned (R9). -/
abbrev Byte := BitVec 8

/-- One entry of the hash table: TABLE_ENTRY_WIDTH = 16 bits (R7, R40). -/
abbrev Half := BitVec 16

/-- A host register, a hash key: 32 bits (`10_state.md` section 2, R120). -/
abbrev Word := BitVec 32

end Sys2Proof
end

