-- ==== Sys2Proof/Config.lean ====
section
/-! DEFINITION. What an implementation fixes (R7): the fixed constants, the parameters of an instance, and the free values that the spec leaves unspecified. -/

namespace Sys2Proof

/-- LIT_EXT_WIDTH (R7, R173): the bytes of the length field the encoder writes for a literal of 256 bytes or more. -/
inductive LitExtWidth where
  | two
  | four
deriving DecidableEq, Repr

/-- LIT_EXT_CHECK (R7, R207): how many bytes must follow the tag of an extended literal. -/
inductive LitExtCheck where
  | exact
  | window4
deriving DecidableEq, Repr

/-- The parameters of one CORE instance (R7). They are constant while the machine runs; IN_CAP and OUT_CAP read the two sizes (R28). -/
structure Params where
  /-- IN_SIZE: bytes of the IN space. -/
  inSize : Word
  /-- OUT_SIZE: bytes of the OUT space. -/
  outSize : Word
  litExtWidth : LitExtWidth
  litExtCheck : LitExtCheck
  /-- REG_BASE: the platform address of the register block. -/
  regBase : Nat
deriving DecidableEq, Repr

/-- The values R7 allows: both sizes from 1 to 2^32 - 1 (the upper end is the width of `Word`), and a register block at an address of a multiple of four, so that a naturally aligned access is one at an aligned offset (DEDUCED, log 3). -/
def Params.wf (p : Params) : Bool :=
  decide (1 ≤ p.inSize.toNat) && decide (1 ≤ p.outSize.toNat) && decide (p.regBase % 4 = 0)

namespace Config

/-- BLOCK_SIZE (R7). -/
def blockSize : Nat := 65536
/-- MAX_TABLE_BITS (R7). -/
def maxTableBits : Nat := 14
/-- TABLE_ENTRIES (R7). -/
def tableEntries : Nat := 16384
/-- INPUT_MARGIN (R7). -/
def inputMargin : Nat := 15
/-- HASH_MUL (R7). -/
def hashMul : Word := 0x1E35A7BD#32
/-- SKIP_INIT (R7). -/
def skipInit : Nat := 32
/-- SKIP_SHIFT (R7). -/
def skipShift : Nat := 5
/-- MIN_MATCH (R7). -/
def minMatch : Nat := 4
/-- VARINT_MAX_BYTES (R7). -/
def varintMaxBytes : Nat := 5
/-- COPY_CHUNK_LOOP_MIN (R7). -/
def copyChunkLoopMin : Nat := 68
/-- COPY_CHUNK_MAX (R7). -/
def copyChunkMax : Nat := 64
/-- COPY_CHUNK_ALT (R7). -/
def copyChunkAlt : Nat := 60

/-- The parameters `State.reset` takes. LIT_EXT_WIDTH and LIT_EXT_CHECK are R7's defaults (log 2). The sizes are OPEN in the spec: DESIGN CHOICE 256, the sizes its programs of `95_test_vectors.md` section 3 run with (log 1). REG_BASE is OPEN: DESIGN CHOICE 0 (log 3). Statements take the parameters from the state, so they hold for every value of them. -/
def defaultParams : Params :=
  { inSize := 256#32, outSize := 256#32, litExtWidth := .two, litExtCheck := .exact, regBase := 0 }

/-- The byte that an address of IN or OUT holds while nothing has written it: the spec gives no value (R272, U3 to U6), so it is free. The first argument is the draw (each time a space's contents become unspecified takes a new one), the second the address (DESIGN CHOICE, log 5). Two instances with the same draw read the same value at an address (log 33). -/
opaque freeByte : Nat → Nat → Byte

/-- The value an entry of the hash table holds before a block has cleared it (R40, U1): free, by draw and index (DESIGN CHOICE, log 6). Two instances with the same draw read the same value at an index (log 33). -/
opaque freeEntry : Nat → Nat → Half

end Config

end Sys2Proof
end

