-- ==== Sys2Proof/Syntax.lean ====
section
/-! DEFINITION. The instructions of CORE: the opcodes of the compressed stream (R72 to R80), one constructor per row of `opcode_table.json`. -/

namespace Sys2Proof

/-- One opcode, with its operands as the assembly syntax of R16 and R85 writes them: a literal with the number of data bytes that follow it in the stream, a copy with its length and its offset. The numbers are exact (R10). -/
inductive Instr where
  /-- LIT len (R73, R208). -/
  | lit (len : Nat)
  /-- LITX1 len (R74, R209). -/
  | litx1 (len : Nat)
  /-- LITX2 len (R74, R210). -/
  | litx2 (len : Nat)
  /-- LITX3 len (R74, R211). -/
  | litx3 (len : Nat)
  /-- LITX4 len (R74, R212). -/
  | litx4 (len : Nat)
  /-- COPY1 len, off (R75, R214). -/
  | copy1 (len : Nat) (off : Nat)
  /-- COPY2 len, off (R76, R215). -/
  | copy2 (len : Nat) (off : Nat)
  /-- COPY4 len, off (R77, R216). -/
  | copy4 (len : Nat) (off : Nat)
deriving DecidableEq, Repr

/-- The output bytes an opcode stands for. -/
def Instr.len : Instr → Nat
  | .lit len => len
  | .litx1 len => len
  | .litx2 len => len
  | .litx3 len => len
  | .litx4 len => len
  | .copy1 len _ => len
  | .copy2 len _ => len
  | .copy4 len _ => len

/-- The literal data bytes that follow an opcode's tag and operand bytes in the stream (R73, R74); a copy has none. -/
def Instr.dataLen : Instr → Nat
  | .lit len => len
  | .litx1 len => len
  | .litx2 len => len
  | .litx3 len => len
  | .litx4 len => len
  | .copy1 _ _ => 0
  | .copy2 _ _ => 0
  | .copy4 _ _ => 0

/-- The operand bytes between the tag and the data: the k length bytes of LITXk, the offset bytes of a copy (R78). -/
def Instr.operandBytes : Instr → Nat
  | .lit _ => 0
  | .litx1 _ => 1
  | .litx2 _ => 2
  | .litx3 _ => 3
  | .litx4 _ => 4
  | .copy1 _ _ => 1
  | .copy2 _ _ => 2
  | .copy4 _ _ => 4

/-- The opcode's whole size in the stream (R79). -/
def Instr.size (i : Instr) : Nat := 1 + i.operandBytes + i.dataLen

end Sys2Proof
end

