-- ==== Sys2Proof/WellFormed.lean ====
section
/-! DEFINITION. Which operands an encoding admits (R73 to R77, R86). -/

namespace Sys2Proof

/-- R86: "An out-of-range operand is an assembly error". An offset of 0 is in range: it assembles, and the decoder rejects it when it runs. -/
def Instr.WellFormed : Instr → Bool
  | .lit len => decide (1 ≤ len) && decide (len ≤ 60)
  | .litx1 len => decide (1 ≤ len) && decide (len ≤ 2 ^ 8)
  | .litx2 len => decide (1 ≤ len) && decide (len ≤ 2 ^ 16)
  | .litx3 len => decide (1 ≤ len) && decide (len ≤ 2 ^ 24)
  | .litx4 len => decide (1 ≤ len) && decide (len ≤ 2 ^ 32)
  | .copy1 len off => decide (4 ≤ len) && decide (len ≤ 11) && decide (off < 2 ^ 11)
  | .copy2 len off => decide (1 ≤ len) && decide (len ≤ 64) && decide (off < 2 ^ 16)
  | .copy4 len off => decide (1 ≤ len) && decide (len ≤ 64) && decide (off < 2 ^ 32)

end Sys2Proof
end

