-- ==== Sys2Proof/Decode.lean ====
section
/-! DEFINITION. The opcode map (R72 to R80): from bytes to an instruction, and back. -/

namespace Sys2Proof

/-- The little-endian number of a list of bytes: the byte at the lowest offset is the least significant (R12, R54). -/
def leNat : List Byte → Nat
  | [] => 0
  | b :: bs => b.toNat + 256 * leNat bs

/-- The `n` low bytes of a number, little-endian (R12, R54). -/
def leBytes : Nat → Nat → List Byte
  | 0, _ => []
  | n + 1, v => BitVec.ofNat 8 v :: leBytes n (v / 256)

/-- The kind a tag selects (R72, R205): for an extended literal with its number of length bytes. -/
inductive TagKind where
  | lit
  | litx (k : Nat)
  | copy1
  | copy2
  | copy4
deriving DecidableEq, Repr

/-- `c[7:2]`, the kind's field (R72). -/
def tagField (c : Byte) : Nat := (c.extractLsb' 2 6).toNat

/-- R205: `c[1:0]` selects the kind; of the tags with 00, the field values 60 to 63 are LITX1 to LITX4 (`90_conflicts.md` C4). -/
def tagKind (c : Byte) : TagKind :=
  if c.extractLsb' 0 2 = 0#2 then
    if tagField c ≤ 59 then .lit else .litx (tagField c - 59)
  else if c.extractLsb' 0 2 = 1#2 then .copy1
  else if c.extractLsb' 0 2 = 2#2 then .copy2
  else .copy4

/-- How many operand bytes follow a tag (R78, R79). -/
def TagKind.operandBytes : TagKind → Nat
  | .lit => 0
  | .litx k => k
  | .copy1 => 1
  | .copy2 => 2
  | .copy4 => 4

/-- LITXk by its number of length bytes (R74). A tag gives k from 1 to 4 only. -/
def litxOf (k len : Nat) : Instr :=
  match k with
  | 1 => .litx1 len
  | 2 => .litx2 len
  | 3 => .litx3 len
  | _ => .litx4 len

/-- R78, operand assembly: the tag `c` with the little-endian number `v` of its operand bytes. All fields are zero-extended. -/
def assemble (c : Byte) (v : Nat) : Instr :=
  match tagKind c with
  | .lit => .lit (tagField c + 1)
  | .litx k => litxOf k (v + 1)
  | .copy1 => .copy1 ((c.extractLsb' 2 3).toNat + 4) ((c.extractLsb' 5 3).toNat * 256 + v)
  | .copy2 => .copy2 (tagField c + 1) v
  | .copy4 => .copy4 (tagField c + 1) v

/-- Why bytes are no instruction. No tag is illegal (R80), so only missing bytes refuse. -/
inductive DecodeError where
  /-- There is no byte at all. -/
  | noTag
  /-- Operand bytes of the opcode are missing (R81). -/
  | operandsMissing
deriving DecidableEq, Repr

/-- Read one instruction from the front of a stream: the instruction, and the bytes after its tag and operand bytes (a literal's data among them). -/
def decode : List Byte → Except DecodeError (Instr × List Byte)
  | [] => .error .noTag
  | c :: rest =>
    let k := (tagKind c).operandBytes
    if rest.length < k then .error .operandsMissing
    else .ok (assemble c (leNat (rest.take k)), rest.drop k)

/-- A tag of the kinds whose field is all of `c[7:2]` (R73, R74, R76, R77). -/
def tagByte (field kind : Nat) : Byte := BitVec.ofNat 8 (field * 4 + kind)

/-- The tag and operand bytes of an instruction (R73 to R77). A literal's data bytes follow them in the stream. -/
def encode : Instr → List Byte
  | .lit len => [tagByte (len - 1) 0]
  | .litx1 len => tagByte 60 0 :: leBytes 1 (len - 1)
  | .litx2 len => tagByte 61 0 :: leBytes 2 (len - 1)
  | .litx3 len => tagByte 62 0 :: leBytes 3 (len - 1)
  | .litx4 len => tagByte 63 0 :: leBytes 4 (len - 1)
  | .copy1 len off => [BitVec.ofNat 8 (1 + (len - 4) * 4 + off / 256 * 32), BitVec.ofNat 8 off]
  | .copy2 len off => tagByte (len - 1) 2 :: leBytes 2 off
  | .copy4 len off => tagByte (len - 1) 3 :: leBytes 4 off

/-- The longest tag and operand bytes: those of LITX4 and COPY4 (R74, R77). -/
def maxOpcodeBytes : Nat := 5

/-- The bytes of an opcode-table word: `nbits / 8` bytes of `w`, the first in its low bits, then zeros up to the longest tag and operand bytes. -/
def tableWordBytes (nbits w : Nat) : List Byte :=
  leBytes (nbits / 8) w ++ List.replicate maxOpcodeBytes 0#8

/-- The instruction the decoder reads from an opcode-table word. -/
def decodeTableWord (nbits w : Nat) : Option Instr :=
  match decode (tableWordBytes nbits w) with
  | .ok (i, _) => some i
  | .error _ => none

end Sys2Proof
end

