-- ==== Sys2Proof/Machine/State.lean ====
section
/-! DEFINITION. The state of one CORE (R20), as plain data, its value after reset (R270), and the reasons a step can stop. -/

namespace Sys2Proof.Machine

/-- A byte space (R50, R51): the bytes whose value is determined, by rising address. A byte not listed holds a value the spec does not give; it reads as `Config.freeByte draw address` (log 5). -/
structure Memory where
  cells : List Host.Cell
  draw : Nat
deriving DecidableEq, Repr

/-- The hash table T (R40): the entries whose value is determined and that the last clears did not leave zero. An entry below `zeroed` that is not listed is 0 (R125, R129); an entry at or above `zeroed` that is not listed was never cleared and reads as `Config.freeEntry draw index` (log 6). -/
structure Table where
  cells : List (Nat × Half)
  zeroed : Nat
  draw : Nat
deriving DecidableEq, Repr

/-- CTRL.OP (R21). -/
inductive Command where
  | compress
  | decompress
deriving DecidableEq, Repr

/-- The errors a command can end with: the pairs of STATUS.ERR and STATUS.ERR_DETAIL of R241. -/
inductive Error where
  /-- INVALID_HEADER TRUNCATED (R104). -/
  | truncated
  /-- INVALID_HEADER OVERFLOW (R103). -/
  | overflow
  /-- INVALID_HEADER TOO_LONG (R106). -/
  | tooLong
  /-- SIZE_LIMIT_EXCEEDED OVER_MAX_LEN (R202). -/
  | overMaxLen
  /-- SIZE_LIMIT_EXCEEDED OVER_OUT_SIZE (R203). -/
  | overOutSize
  /-- INVALID_BITSTREAM TRUNC_LIT_LEN (R207). -/
  | truncLitLen
  /-- INVALID_BITSTREAM TRUNC_LIT_DATA (R206). -/
  | truncLitData
  /-- INVALID_BITSTREAM TRUNC_COPY (R214 to R216). -/
  | truncCopy
  /-- INVALID_BITSTREAM OFFSET_ZERO (R213). -/
  | offsetZero
  /-- INVALID_BITSTREAM OFFSET_TOO_FAR (R213). -/
  | offsetTooFar
  /-- INVALID_BITSTREAM OUT_OVERFLOW (R206, R213). -/
  | outOverflow
  /-- INVALID_BITSTREAM LEN_SHORT (R217). -/
  | lenShort
  /-- CONFIG_ERROR IN_LEN_TOO_BIG (R249). -/
  | inLenTooBig
  /-- CONFIG_ERROR OUT_TOO_SMALL (R193). -/
  | outTooSmall
deriving DecidableEq, Repr

/-- The host-visible registers that hold something (R21 to R27). IN_CAP and OUT_CAP are the parameters (R28), CTRL.START holds nothing (R21) and STATUS.BUSY is a view of the engine (R30). -/
structure Regs where
  /-- CTRL.OP. -/
  op : Command
  /-- CTRL.MAXLEN_EN. -/
  maxlenEn : Bool
  /-- CTRL.IE. -/
  ie : Bool
  /-- STATUS.DONE. -/
  done : Bool
  /-- STATUS.ERR and STATUS.ERR_DETAIL; `none` is ERR = 0. -/
  err : Option Error
  /-- IN_LEN. -/
  inLen : Word
  /-- MAX_LEN. -/
  maxLen : Word
  /-- OUT_LEN. -/
  outLen : Word
  /-- HDR_LEN. -/
  hdrLen : Word
  /-- ERR_POS. -/
  errPos : Word
deriving DecidableEq, Repr

/-- The encoder's working registers (R31 to R36). They hold exact numbers (R10). -/
structure Enc where
  op : Nat
  inPos : Nat
  blockStart : Nat
  blockEnd : Nat
  ipLimit : Nat
  ip : Nat
  nextEmit : Nat
  candidate : Nat
  base : Nat
  skip : Nat
  matched : Nat
  tableBits : Nat
  shift : Nat
deriving DecidableEq, Repr

/-- The decoder's working registers (R37, R38). `declared` is the spec's L. -/
structure Dec where
  pos : Nat
  tagPos : Nat
  outPos : Nat
  declared : Nat
  c : Byte
  len : Nat
  offset : Nat
  k : Nat
deriving DecidableEq, Repr

/-- Where the engine stands inside COMPRESS (R190, R151): the points between which one engine step runs (R30: "steps inside RUNNING"; log 12). -/
inductive CompressAt where
  /-- The capacity checks and the header (R190, R193). -/
  | start
  /-- The head of the loop over blocks (R191). -/
  | block
  /-- The head of the search loop (R144). -/
  | search
  /-- A match was found: the pending literal (R145). -/
  | literal
  /-- The head of the extension loop (R146). -/
  | extend
  /-- The copy (R147). -/
  | copy
  /-- The chain step (R148). -/
  | chain
  /-- The block is exhausted: the trailing literal (R150). -/
  | trailing
deriving DecidableEq, Repr

/-- Where the engine stands inside DECOMPRESS (R200). -/
inductive DecompressAt where
  /-- The configuration check, the header and the size checks (R201 to R203). -/
  | start
  /-- The head of the opcode loop (R204). -/
  | loop
deriving DecidableEq, Repr

/-- The engine's FSM (R30): IDLE, or RUNNING a command. -/
inductive Engine where
  | idle
  | compress (place : CompressAt)
  | decompress (place : DecompressAt)
deriving DecidableEq, Repr

/-- One access of the host (R263). Register accesses carry the platform address and the width in bytes (R29). -/
inductive HostAccess where
  | readReg (addr bytes : Nat)
  | writeReg (addr bytes : Nat) (value : Word)
  | readIn (addr : Nat)
  | writeIn (addr : Nat) (value : Byte)
  | readOut (addr : Nat)
  | writeOut (addr : Nat) (value : Byte)
deriving DecidableEq, Repr

/-- Who moves next (log 11). -/
inductive Turn where
  /-- The engine takes one step. -/
  | engine
  /-- The host makes one access. -/
  | host (access : HostAccess)
  /-- The host waits until STATUS.DONE = 1 (R274 step 5), the engine moving meanwhile. -/
  | waitDone
  /-- The host waits until IRQ = 1 (R274 step 5), the engine moving meanwhile. -/
  | waitIrq
  /-- The platform asserts reset and releases it (R270, R271). -/
  | reset
deriving DecidableEq, Repr

/-- The state of one CORE (R20). -/
structure State where
  /-- The parameters of the instance (R7, R28). -/
  par : Params
  /-- The control and status registers (R21 to R27). -/
  regs : Regs
  /-- The FSM state (R30). -/
  engine : Engine
  /-- The encoder's working registers (R31 to R36). -/
  enc : Enc
  /-- The decoder's working registers (R37, R38). -/
  dec : Dec
  /-- The hash table T (R40). -/
  table : Table
  /-- The space IN (R50). -/
  inp : Memory
  /-- The space OUT (R51). -/
  out : Memory
  /-- The model's own: OUT's contents became unspecified when the last command ended with an error (R244, log 7). -/
  outLost : Bool
  /-- The model's own: how many unspecified contents have been drawn (log 5). -/
  draws : Nat
  /-- The model's own: who moves next; with none listed the engine does (log 11). -/
  turns : List Turn
  /-- The model's own: the value the last host read returned (log 11). -/
  rdata : Word
deriving DecidableEq, Repr

/-- The registers after reset: CTRL, STATUS and the lengths are 0 (R270). -/
def Regs.reset : Regs :=
  { op := .compress, maxlenEn := false, ie := false, done := false, err := none,
    inLen := 0#32, maxLen := 0#32, outLen := 0#32, hdrLen := 0#32, errPos := 0#32 }

/-- The encoder's working registers after reset. R270 leaves them unspecified: DESIGN CHOICE zero (log 4). -/
def Enc.reset : Enc :=
  { op := 0, inPos := 0, blockStart := 0, blockEnd := 0, ipLimit := 0, ip := 0, nextEmit := 0, candidate := 0,
    base := 0, skip := 0, matched := 0, tableBits := 0, shift := 0 }

/-- The decoder's working registers after reset. R270 leaves them unspecified: DESIGN CHOICE zero (log 4). -/
def Dec.reset : Dec :=
  { pos := 0, tagPos := 0, outPos := 0, declared := 0, c := 0#8, len := 0, offset := 0, k := 0 }

/-- The state after reset of an instance with parameters `p` (R270 to R272): the contents of IN, OUT and T are unspecified, each a new draw from `draws` on, and the turns the environment still has to take are kept (log 21). -/
def State.resetOf (p : Params) (draws : Nat) (turns : List Turn) : State :=
  { par := p, regs := Regs.reset, engine := .idle, enc := Enc.reset, dec := Dec.reset,
    table := { cells := [], zeroed := 0, draw := draws + 2 },
    inp := { cells := [], draw := draws }, out := { cells := [], draw := draws + 1 },
    outLost := false, draws := draws + 3, turns := turns, rdata := 0#32 }

/-- The machine right after reset (R270), with the parameters of log 1 to 3 and nothing drawn before. -/
def State.reset : State := State.resetOf Config.defaultParams 0 []

/-- Why the machine stops. The errors of R240 to R249 are not here: they end a command, not the machine. -/
inductive Fault where
  /-- A byte of IN at or past IN_SIZE was accessed: the address does not exist (R12, R50). Raised by the engine's reads of IN, in states no run from reset reaches, and by a host access. Safe: the model stops where the spec defines nothing (log 15, log 25). -/
  | inOutOfRange
  /-- A byte of OUT at or past OUT_SIZE was accessed (R12, R51). Raised by the engine's writes of OUT, in states no run from reset reaches, and by a host access. Safe (log 15, log 25). -/
  | outOutOfRange
  /-- An entry of T at or past TABLE_ENTRIES was accessed (R40). Raised by a probe or an insert, in states no run from reset reaches. Safe (log 15). -/
  | tableOutOfRange
deriving DecidableEq, Repr

/-- Why the model gives a step no meaning. -/
inductive Refusal where
  /-- The instruction has no meaning in the model. Raised by `exec` only. Safe. -/
  | notModelled (mnemonic : String)
  /-- A host access to the register block that is not a naturally aligned 32-bit one (R29, U9: refuse). Raised by the host's port. Safe (log 10). -/
  | registerAccessForm
  /-- A host register access at an address outside the 64 bytes of the register block: it is not addressed to CORE (R58). Raised by the host's port. Safe (log 10). -/
  | outsideRegisterBlock
  /-- A host write to IN or OUT while a command runs (R275, U7: refuse). Raised by the host's port. Safe (log 9). -/
  | hostWriteWhileBusy
deriving DecidableEq, Repr

end Sys2Proof.Machine
end

