-- ==== Sys2Proof/Machine/Ops.lean ====
section
/-! DEFINITION. The named operations over memory, table and registers, and the two ways a command ends: an error (R244) and success (R250). -/

namespace Sys2Proof.Machine

/-- A step's outcome. -/
abbrev Result := Host.Outcome State Fault Refusal

/-- Go on with the next state; stop where the first part stops. -/
def andThen (r : Result) (f : State → Result) : Result :=
  match r with
  | .next s => f s
  | .fault e => .fault e
  | .refused e => .refused e

/-! ## Sparse lists by key -/

/-- The value listed for a key. -/
def lookup {α : Type} : List (Nat × α) → Nat → Option α
  | [], _ => none
  | (a, v) :: rest, k => if k = a then some v else lookup rest k

/-- List a value for a key, keeping the keys rising and each key once. -/
def insertCell {α : Type} : List (Nat × α) → Nat → α → List (Nat × α)
  | [], k, v => [(k, v)]
  | (a, w) :: rest, k, v =>
    if k < a then (k, v) :: (a, w) :: rest
    else if k = a then (k, v) :: rest
    else (a, w) :: insertCell rest k v

/-- Take a key out of the list. -/
def eraseCell {α : Type} (cells : List (Nat × α)) (k : Nat) : List (Nat × α) :=
  cells.filter fun cell => decide (cell.1 ≠ k)

/-- Keep the cells at or above a key. -/
def cellsFrom {α : Type} (cells : List (Nat × α)) (n : Nat) : List (Nat × α) :=
  cells.filter fun cell => decide (n ≤ cell.1)

/-- The keys rise strictly. -/
def rising {α : Type} : List (Nat × α) → Bool
  | [] => true
  | [_] => true
  | a :: b :: rest => decide (a.1 < b.1) && rising (b :: rest)

/-! ## Byte spaces (R12, R50, R51) -/

/-- The byte an address holds where the model knows it. -/
def Memory.known (m : Memory) (a : Nat) : Option Byte := lookup m.cells a

/-- What an address that is not listed reads as: a value the spec does not give (R272, log 5). -/
def Memory.unlisted (m : Memory) (a : Nat) : Byte := Config.freeByte m.draw a

/-- The read of one byte (R12). -/
def Memory.read (m : Memory) (a : Nat) : Byte := (m.known a).getD (m.unlisted a)

/-- The write of one byte (R12). -/
def Memory.write (m : Memory) (a : Nat) (b : Byte) : Memory := { m with cells := insertCell m.cells a b }

/-- The canonical form: rising addresses, all inside a space of `size` bytes. A byte that is not listed has no determined value, so no listed byte equals what an unlisted address reads as (log 5). -/
def Memory.wf (m : Memory) (size : Nat) : Bool :=
  rising m.cells && m.cells.all fun cell => decide (cell.1 < size)

/-- Contents the spec does not give: nothing is listed, and the draw is a new one. -/
def Memory.unspecified (draw : Nat) : Memory := { cells := [], draw := draw }

/-- The `n` bytes from `a` on, in order (R12). -/
def Memory.readBytes (m : Memory) (a : Nat) : Nat → List Byte
  | 0 => []
  | n + 1 => m.read a :: m.readBytes (a + 1) n

/-- `MemRead(S, a, n)`: the little-endian number of `n` bytes (R12, R55). -/
def Memory.readLE (m : Memory) (a n : Nat) : Nat := leNat (m.readBytes a n)

/-- Write bytes from `a` on, in increasing order (R12, R13). -/
def Memory.writeBytes (m : Memory) (a : Nat) : List Byte → Memory
  | [] => m
  | b :: bs => (m.write a b).writeBytes (a + 1) bs

/-- The move of a literal (R206): `for i = 0 .. n-1: MemWrite(OUT, dst + i, 1, MemRead(IN, src + i, 1))`. -/
def Memory.moveFrom (inp : Memory) (src dst : Nat) : Nat → Memory → Memory
  | 0, out => out
  | n + 1, out => inp.moveFrom (src + 1) (dst + 1) n (out.write dst (inp.read src))

/-- The move of a copy (R213): for increasing `i`, read OUT at `dst + i - off`, then write OUT at `dst + i`. Each byte is read after the byte before it is written (R63, R218). -/
def Memory.repeatBack (off dst : Nat) : Nat → Memory → Memory
  | 0, out => out
  | n + 1, out => Memory.repeatBack off (dst + 1) n (out.write dst (out.read (dst - off)))

/-! ## The hash table (R40) -/

/-- `T[i]` (R11): a listed entry, 0 where the entry was cleared, else a value the spec does not give. -/
def Table.get (t : Table) (i : Nat) : Half :=
  match lookup t.cells i with
  | some v => v
  | none => if i < t.zeroed then 0#16 else Config.freeEntry t.draw i

/-- `T[i] <- v` (R11). Writing 0 to a cleared entry takes it out of the list. -/
def Table.set (t : Table) (i : Nat) (v : Half) : Table :=
  if v = 0#16 ∧ i < t.zeroed then { t with cells := eraseCell t.cells i }
  else { t with cells := insertCell t.cells i v }

/-- TABLE_CLEAR (R125): write 0 to the entries `T[0] .. T[n - 1]`; the others keep their values. -/
def Table.clear (t : Table) (n : Nat) : Table :=
  { t with cells := cellsFrom t.cells n, zeroed := max t.zeroed n }

/-- The canonical form: rising indexes below TABLE_ENTRIES, no listed 0 among the cleared entries, and at most TABLE_ENTRIES cleared. -/
def Table.wf (t : Table) : Bool :=
  rising t.cells && (t.cells.all fun cell => decide (cell.1 < Config.tableEntries) && !(decide (cell.2 = 0#16) && decide (cell.1 < t.zeroed)))
    && decide (t.zeroed ≤ Config.tableEntries)

/-! ## Register views -/

/-- STATUS.BUSY (R22, R30): "STATUS.BUSY = 1 exactly when the engine is RUNNING." -/
def State.busy (s : State) : Bool := decide (s.engine ≠ .idle)

/-- IRQ (R252): "`IRQ = STATUS.DONE AND CTRL.IE`, as a level." -/
def State.irq (s : State) : Bool := s.regs.done && s.regs.ie

/-- IN_SIZE as a number. -/
def State.inSize (s : State) : Nat := s.par.inSize.toNat

/-- OUT_SIZE as a number. -/
def State.outSize (s : State) : Nat := s.par.outSize.toNat

/-- IN_LEN as a number. -/
def State.inLen (s : State) : Nat := s.regs.inLen.toNat

/-! ## Bounds of the spaces -/

/-- Go on only if IN has the `n` bytes from `a` on (R12: "Each primitive is defined only for `addr + n <= size(S)`"). -/
def withinIn (s : State) (a n : Nat) (r : Result) : Result :=
  if a + n ≤ s.inSize then r else .fault .inOutOfRange

/-- Go on only if OUT has the `n` bytes from `a` on (R12). -/
def withinOut (s : State) (a n : Nat) (r : Result) : Result :=
  if a + n ≤ s.outSize then r else .fault .outOutOfRange

/-! ## Errors (R240 to R249) -/

/-- STATUS.ERR of an error (R240). -/
def Error.kindCode : Error → Nat
  | .truncated => 1
  | .overflow => 1
  | .tooLong => 1
  | .overMaxLen => 2
  | .overOutSize => 2
  | .truncLitLen => 3
  | .truncLitData => 3
  | .truncCopy => 3
  | .offsetZero => 3
  | .offsetTooFar => 3
  | .outOverflow => 3
  | .lenShort => 3
  | .inLenTooBig => 4
  | .outTooSmall => 4

/-- STATUS.ERR_DETAIL of an error (R241). -/
def Error.detailCode : Error → Nat
  | .truncated => 1
  | .overflow => 2
  | .tooLong => 3
  | .overMaxLen => 1
  | .overOutSize => 2
  | .truncLitLen => 1
  | .truncLitData => 2
  | .truncCopy => 3
  | .offsetZero => 4
  | .offsetTooFar => 5
  | .outOverflow => 6
  | .lenShort => 7
  | .inLenTooBig => 1
  | .outTooSmall => 2

/-- The IN offset an error names (R242). -/
def errPosOf (e : Error) (s : State) : Word :=
  match e with
  | .truncated => 0#32
  | .overflow => 0#32
  | .tooLong => 0#32
  | .overMaxLen => 0#32
  | .overOutSize => 0#32
  | .truncLitLen => BitVec.ofNat 32 s.dec.tagPos
  | .truncLitData => BitVec.ofNat 32 s.dec.tagPos
  | .truncCopy => BitVec.ofNat 32 s.dec.tagPos
  | .offsetZero => BitVec.ofNat 32 s.dec.tagPos
  | .offsetTooFar => BitVec.ofNat 32 s.dec.tagPos
  | .outOverflow => BitVec.ofNat 32 s.dec.tagPos
  | .lenShort => s.regs.inLen
  | .inLenTooBig => 0#32
  | .outTooSmall => 0#32

/-- `raise e` (R14, R244): the one operation that every error is taken by. ERR and ERR_DETAIL, ERR_POS, OUT_LEN = 0, engine IDLE (so BUSY = 0), DONE = 1; HDR_LEN stays as it is (R26). OUT keeps its bytes and is marked as not to be relied on (R244, U4, log 7). -/
def raiseError (e : Error) (s : State) : State :=
  { s with
    regs := { s.regs with done := true, err := some e, errPos := errPosOf e s, outLen := 0#32 }
    engine := .idle
    outLost := true }

/-- The end of a command without error (R250), once OUT_LEN and HDR_LEN are written: ERR, ERR_DETAIL and ERR_POS = 0, engine IDLE, DONE = 1. -/
def finish (s : State) : State :=
  { s with
    regs := { s.regs with done := true, err := none, errPos := 0#32 }
    engine := .idle }

/-- OUT's bytes as the spec leaves them: after an error they are unspecified (R244), so they become a new draw; else they stand as they are (log 7). -/
def settleOut (s : State) : State :=
  if s.outLost then { s with out := Memory.unspecified s.draws, outLost := false, draws := s.draws + 1 } else s

/-- Reset, also while a command runs (R270 to R272). The parameters are constant (R28); every storage's contents are a new draw. -/
def resetState (s : State) : State := State.resetOf s.par s.draws s.turns

end Sys2Proof.Machine
end

