-- ==== Sys2Proof/Machine/Varint.lean ====
section
/-! DEFINITION. The varint codec of the stream header (R71, R100 to R108). -/

namespace Sys2Proof.Machine

/-- VARINT_ENCODE (R100): the low 7-bit groups first; bit 7 set while more follow. The first argument bounds the bytes still to write: a 32-bit value needs at most VARINT_MAX_BYTES (R7, R101), so the bound is never met by one. -/
def varintBytesAux : Nat → Nat → List Byte
  | 0, _ => []
  | fuel + 1, v =>
    if v / 128 = 0 then [BitVec.ofNat 8 v]
    else BitVec.ofNat 8 (v % 128 + 128) :: varintBytesAux fuel (v / 128)

/-- The bytes VARINT_ENCODE writes for a 32-bit value (R100). -/
def varintBytes (n : Word) : List Byte := varintBytesAux Config.varintMaxBytes n.toNat

/-- One pass of the loop of VARINT_DECODE (R102). The first argument is how many bytes the loop may still read: it runs while `shift < 32`, and `shift` grows by 7 from 0, so it reads at most 5. The bytes are those of IN from `pos` up to IN_LEN. -/
def varintDecodeAux : Nat → List Byte → Word → Nat → Nat → Except Error (Word × Nat)
  | 0, _, _, _, _ => .error .tooLong
  | _ + 1, [], _, _, _ => .error .truncated
  | fuel + 1, b :: rest, result, shift, pos =>
    let val : Word := (b.extractLsb' 0 7).setWidth 32
    if (val <<< shift) >>> shift ≠ val then .error .overflow
    else
      let result := result ||| (val <<< shift)
      if b.getLsbD 7 = false then .ok (result, pos + 1)
      else varintDecodeAux fuel rest result (shift + 7) (pos + 1)

/-- VARINT_DECODE (R102) over the bytes of a stream: the value and the offset of the first byte after it, or INVALID_HEADER's cause. -/
def varintDecode (stream : List Byte) : Except Error (Word × Nat) :=
  varintDecodeAux Config.varintMaxBytes stream 0#32 0 0

end Sys2Proof.Machine
end

