-- ==== Sys2Proof/Machine/Emit.lean ====
section
/-! DEFINITION. The opcode encoder (R170 to R180): literal and copy emission. -/

namespace Sys2Proof.Machine

/-- `Emit` of each byte in order (R13): OUT is written at `op`, and `op` advances. -/
def emit (bytes : List Byte) (s : State) : Result :=
  withinOut s s.enc.op bytes.length <| .next
    { s with out := s.out.writeBytes s.enc.op bytes, enc := { s.enc with op := s.enc.op + bytes.length } }

/-- The tag and length bytes EMIT_LITERAL writes for a literal of `n` bytes (R170 to R173). -/
def literalHeader (width : LitExtWidth) (n : Nat) : List Byte :=
  if n ≤ 60 then [BitVec.ofNat 8 ((n - 1) <<< 2)]
  else if n < 256 then [0xF0#8, BitVec.ofNat 8 (n - 1)]
  else match width with
    | .two => [0xF4#8, BitVec.ofNat 8 (n - 1), BitVec.ofNat 8 ((n - 1) >>> 8)]
    | .four => [0xFC#8, BitVec.ofNat 8 (n - 1), BitVec.ofNat 8 ((n - 1) >>> 8), 0x00#8, 0x00#8]

/-- EMIT_LITERAL (R170): the tag and length bytes, then the `n` bytes of IN from `src` on. -/
def emitLiteral (src n : Nat) (s : State) : Result :=
  withinIn s src n <| emit (literalHeader s.par.litExtWidth n ++ s.inp.readBytes src n) s

/-- EMIT_COPY_LT64 (R174 to R176): a copy of 4 to 64 bytes in one opcode. -/
def copyBytes64 (off m : Nat) : List Byte :=
  if m < 12 ∧ off < 2048 then
    [BitVec.ofNat 8 (1 ||| ((m - 4) <<< 2) ||| ((off >>> 8) <<< 5)), BitVec.ofNat 8 off]
  else
    [BitVec.ofNat 8 (2 ||| ((m - 1) <<< 2)), BitVec.ofNat 8 off, BitVec.ofNat 8 (off >>> 8)]

/-- The lengths of the chunks EMIT_COPY cuts `m` into (R177). The first argument bounds the passes of its loop; `m` passes are enough, since each takes 64. -/
def copyChunksAux : Nat → Nat → List Nat
  | 0, m => [m]
  | fuel + 1, m =>
    if Config.copyChunkLoopMin ≤ m then Config.copyChunkMax :: copyChunksAux fuel (m - Config.copyChunkMax)
    else if Config.copyChunkMax < m then [Config.copyChunkAlt, m - Config.copyChunkAlt]
    else [m]

/-- The lengths of the chunks of a copy of `m` bytes (R177, R178). -/
def copyChunks (m : Nat) : List Nat := copyChunksAux m m

/-- The bytes EMIT_COPY writes (R177): every chunk has the same offset. -/
def copyBytes (off m : Nat) : List Byte := (copyChunks m).flatMap (copyBytes64 off)

/-- EMIT_COPY (R177). -/
def emitCopy (off m : Nat) (s : State) : Result := emit (copyBytes off m) s

end Sys2Proof.Machine
end

