-- ==== Sys2Proof/Machine/Hash.lean ====
section
/-! DEFINITION. The hash function and the match-candidate table (R120 to R132). -/

namespace Sys2Proof.Machine

/-- LOAD32 (R120): the little-endian word of the 4 bytes at `p`. -/
def load32 (m : Memory) (p : Nat) : Word := BitVec.ofNat 32 (m.readLE p 4)

/-- HASH (R121): the product modulo 2^32, shifted right logically. -/
def hashIndex (key : Word) (shift : Nat) : Nat := ((key * Config.hashMul) >>> shift).toNat

/-- The largest exponent in 0..b whose power of two is at most `blen`, 0 if none is (R123). -/
def largestExponent : Nat → Nat → Nat
  | 0, _ => 0
  | b + 1, blen => if 2 ^ (b + 1) ≤ blen then b + 1 else largestExponent b blen

/-- TABLE_BITS (R123): the largest exponent in 0..14 whose power of two is at most the block length, and at least 1. -/
def tableBitsOf (blen : Nat) : Nat := max 1 (largestExponent Config.maxTableBits blen)

/-- EQUAL32 (R128): the 4 bytes at `p` and at `q` agree. -/
def equal32 (m : Memory) (p q : Nat) : Bool :=
  decide (m.read p = m.read q) && decide (m.read (p + 1) = m.read (q + 1)) &&
    decide (m.read (p + 2) = m.read (q + 2)) && decide (m.read (p + 3) = m.read (q + 3))

/-- The table index of the 4 bytes at `p` in the current block's geometry (R124). -/
def hashAt (s : State) (p : Nat) : Nat := hashIndex (load32 s.inp p) s.enc.shift

/-- Go on only if IN has the 4 bytes at `p` (R12) and T has the entry they hash to (R40). -/
def withinTable (s : State) (p : Nat) (r : Result) : Result :=
  withinIn s p 4 <| if hashAt s p < Config.tableEntries then r else .fault .tableOutOfRange

/-- What INSERT at `p` leaves (R127): `T[Hash(Load32(p), shift)] <- p - blockStart`. -/
def insertAt (p : Nat) (s : State) : State :=
  { s with table := s.table.set (hashAt s p) (BitVec.ofNat 16 (p - s.enc.blockStart)) }

/-- What PROBE at `p` leaves (R126): the candidate is read first, then the entry is overwritten with `p`. -/
def probeAt (p : Nat) (s : State) : State :=
  insertAt p { s with enc := { s.enc with candidate := s.enc.blockStart + (s.table.get (hashAt s p)).toNat } }

/-- INSERT (R127). -/
def tableInsert (p : Nat) (s : State) : Result := withinTable s p <| .next (insertAt p s)

/-- PROBE (R126): the candidate goes into the register `candidate` (R33). -/
def tableProbe (p : Nat) (s : State) : Result := withinTable s p <| .next (probeAt p s)

end Sys2Proof.Machine
end

