-- ==== Sys2Proof/Machine/Compress.lean ====
section
/-! DEFINITION. The COMPRESS command (R190 to R196) and the fragment compressor (R140 to R155), one engine step at a time. The pieces are those of the consolidated procedure of R151. -/

namespace Sys2Proof.Machine

/-- MAX_COMPRESSED_LENGTH (R192), exact. -/
def maxCompressedLength (n : Nat) : Nat := 32 + n + n / 6

/-- Move the engine to another place inside COMPRESS. -/
def goCompress (place : CompressAt) (s : State) : State := { s with engine := .compress place }

/-- The start of COMPRESS (R190, R193, R248): the two capacity checks, then the header varint, HDR_LEN and the cursors. -/
def compressStart (s : State) : Result :=
  if s.inSize < s.inLen then .next (raiseError .inLenTooBig s)
  else if s.outSize < maxCompressedLength s.inLen then .next (raiseError .outTooSmall s)
  else andThen (emit (varintBytes s.regs.inLen) { s with enc := { s.enc with op := 0 } }) fun s =>
    .next (goCompress .block { s with regs := { s.regs with hdrLen := s.regs.inLen }, enc := { s.enc with inPos := 0 } })

/-- The set-up of a block of `blen` bytes at `inPos` (R141 to R143, R124, R125). A block shorter than INPUT_MARGIN is not searched (R142). -/
def setUpBlock (blen : Nat) (s : State) : State :=
  let start := s.enc.inPos
  let s := { s with
    table := s.table.clear (2 ^ tableBitsOf blen)
    enc := { s.enc with blockStart := start, blockEnd := start + blen, tableBits := tableBitsOf blen,
                        shift := 32 - tableBitsOf blen, nextEmit := start } }
  if Config.inputMargin ≤ blen then
    goCompress .search { s with enc := { s.enc with ipLimit := start + blen - Config.inputMargin, ip := start + 1,
                                                    skip := Config.skipInit } }
  else goCompress .trailing s

/-- The head of the loop over blocks (R190, R191): the next block of `min(n - inPos, BLOCK_SIZE)` bytes, or the end of the command with OUT_LEN = `op`. -/
def compressBlock (s : State) : Result :=
  if s.enc.inPos < s.inLen then .next (setUpBlock (min (s.inLen - s.enc.inPos) Config.blockSize) s)
  else .next (finish { s with regs := { s.regs with outLen := BitVec.ofNat 32 s.enc.op } })

/-- One pass of the search loop (R144): the limit is tested before the probe; a miss steps by `skip >> 5`, with `skip` as it was before it grows. -/
def compressSearch (s : State) : Result :=
  if s.enc.ipLimit < s.enc.ip then .next (goCompress .trailing s)
  else andThen (tableProbe s.enc.ip s) fun s =>
    withinIn s s.enc.ip 4 <| withinIn s s.enc.candidate 4 <|
      if equal32 s.inp s.enc.ip s.enc.candidate then .next (goCompress .literal s)
      else .next { s with enc := { s.enc with ip := s.enc.ip + s.enc.skip >>> Config.skipShift, skip := s.enc.skip + 1 } }

/-- The start of an extension (R146): `base <- ip`, `matched <- MIN_MATCH`. -/
def startExtend (s : State) : State :=
  goCompress .extend { s with enc := { s.enc with base := s.enc.ip, matched := Config.minMatch } }

/-- The literal before a match (R145), then the start of the extension. -/
def compressLiteral (s : State) : Result :=
  andThen (emitLiteral s.enc.nextEmit (s.enc.ip - s.enc.nextEmit) s) fun s => .next (startExtend s)

/-- One pass of the extension loop (R146): one more byte, or the end of the match with `ip <- base + matched`. -/
def compressExtend (s : State) : Result :=
  if s.enc.base + s.enc.matched < s.enc.blockEnd then
    withinIn s (s.enc.base + s.enc.matched) 1 <| withinIn s (s.enc.candidate + s.enc.matched) 1 <|
      if s.inp.read (s.enc.base + s.enc.matched) = s.inp.read (s.enc.candidate + s.enc.matched) then
        .next { s with enc := { s.enc with matched := s.enc.matched + 1 } }
      else .next (goCompress .copy { s with enc := { s.enc with ip := s.enc.base + s.enc.matched } })
  else .next (goCompress .copy { s with enc := { s.enc with ip := s.enc.base + s.enc.matched } })

/-- The copy (R147), then `nextEmit <- ip`. -/
def compressCopy (s : State) : Result :=
  andThen (emitCopy (s.enc.base - s.enc.candidate) s.enc.matched s) fun s =>
    .next (goCompress .chain { s with enc := { s.enc with nextEmit := s.enc.ip } })

/-- RESUME (R149): the search goes on at `ip + 1` with `skip` reset. -/
def resumeSearch (s : State) : State :=
  goCompress .search { s with enc := { s.enc with ip := s.enc.ip + 1, skip := Config.skipInit } }

/-- CHAIN (R148): stop at the limit; insert `ip - 1`, then probe `ip`; extend again on a match, else resume (R149). -/
def compressChain (s : State) : Result :=
  if s.enc.ipLimit ≤ s.enc.ip then .next (goCompress .trailing s)
  else andThen (tableInsert (s.enc.ip - 1) s) fun s => andThen (tableProbe s.enc.ip s) fun s =>
    withinIn s s.enc.ip 4 <| withinIn s s.enc.candidate 4 <|
      if equal32 s.inp s.enc.ip s.enc.candidate then .next (startExtend s)
      else .next (resumeSearch s)

/-- The next block begins where this one ends (R190, R191). -/
def leaveBlock (s : State) : State := goCompress .block { s with enc := { s.enc with inPos := s.enc.blockEnd } }

/-- The trailing literal (R150), then the next block. -/
def compressTrailing (s : State) : Result :=
  if s.enc.nextEmit < s.enc.blockEnd then
    andThen (emitLiteral s.enc.nextEmit (s.enc.blockEnd - s.enc.nextEmit) s) fun s => .next (leaveBlock s)
  else .next (leaveBlock s)

/-- One engine step of COMPRESS. -/
def stepCompress (place : CompressAt) (s : State) : Result :=
  match place with
  | .start => compressStart s
  | .block => compressBlock s
  | .search => compressSearch s
  | .literal => compressLiteral s
  | .extend => compressExtend s
  | .copy => compressCopy s
  | .chain => compressChain s
  | .trailing => compressTrailing s

end Sys2Proof.Machine
end

