-- ==== Sys2Proof/Machine/Operands.lean ====
section
/-! DEFINITION. The fetch of an opcode (R204, R205, R78) and the shared procedures of the decoder: ReadExtLen (R207), LiteralBody (R206) and CopyBody (R213). -/

namespace Sys2Proof.Machine

/-- How many of the `k` operand bytes after the tag at `pos` lie below IN_LEN. Bytes at or past IN_LEN are never read (R23). -/
def operandsPresent (s : State) (k : Nat) : Nat := min k (s.inLen - (s.dec.pos + 1))

/-- The instruction the decoder fetches at `pos`: the tag selects it (R205), its operand bytes are assembled as R78 says. Operand bytes past IN_LEN are not read and count as 0; the instruction that lacks one raises before it uses it (R207, R214 to R216, log 14). -/
def fetchInstr (s : State) : Instr :=
  let c := s.inp.read s.dec.pos
  assemble c (s.inp.readLE (s.dec.pos + 1) (operandsPresent s (tagKind c).operandBytes))

/-- R204: `tagPos <- pos`, `c <- MemRead(IN, pos, 1)`, `pos <- pos + 1`. -/
def enterOpcode (s : State) : State :=
  { s with dec := { s.dec with tagPos := s.dec.pos, c := s.inp.read s.dec.pos, pos := s.dec.pos + 1 } }

/-- The bytes a fetch reads from `pos` on: the tag and the operand bytes present. -/
def fetchedBytes (s : State) : Nat := 1 + operandsPresent s (tagKind (s.inp.read s.dec.pos)).operandBytes

/-- The length bytes the availability check of an extended literal asks for (R207): `k` under EXACT, 4 under WINDOW4. -/
def extNeed (check : LitExtCheck) (k : Nat) : Nat :=
  match check with
  | .exact => k
  | .window4 => 4

/-- LiteralBody (R206): both checks run before the first byte is written. -/
def literalBody (len : Nat) (s : State) : Result :=
  if s.inLen < s.dec.pos + len then .next (raiseError .truncLitData s)
  else if s.dec.declared < s.dec.outPos + len then .next (raiseError .outOverflow s)
  else withinIn s s.dec.pos len <| withinOut s s.dec.outPos len <| .next
    { s with
      out := s.inp.moveFrom s.dec.pos s.dec.outPos len s.out
      dec := { s.dec with len := len, pos := s.dec.pos + len, outPos := s.dec.outPos + len } }

/-- LITX(k) (R209 to R212): the availability check of ReadExtLen (R207), the step over the `k` length bytes, then LiteralBody. `len` is the number the length bytes hold, plus 1. -/
def extendedLiteral (k len : Nat) (s : State) : Result :=
  if s.inLen < s.dec.pos + extNeed s.par.litExtCheck k then .next (raiseError .truncLitLen s)
  else literalBody len { s with dec := { s.dec with k := k, pos := s.dec.pos + k } }

/-- CopyBody (R213): the three checks in this order, all before the first byte is written, then the byte by byte move in increasing order (R218). -/
def copyBody (len off : Nat) (s : State) : Result :=
  if off = 0 then .next (raiseError .offsetZero s)
  else if s.dec.outPos < off then .next (raiseError .offsetTooFar s)
  else if s.dec.declared < s.dec.outPos + len then .next (raiseError .outOverflow s)
  else withinOut s s.dec.outPos len <| .next
    { s with
      out := Memory.repeatBack off s.dec.outPos len s.out
      dec := { s.dec with len := len, offset := off, outPos := s.dec.outPos + len } }

/-- A copy with `n` offset bytes (R214 to R216): the availability check, the step over the offset bytes, then CopyBody. -/
def copyOpcode (n len off : Nat) (s : State) : Result :=
  if s.inLen < s.dec.pos + n then .next (raiseError .truncCopy s)
  else copyBody len off { s with dec := { s.dec with pos := s.dec.pos + n } }

end Sys2Proof.Machine
end

