-- ==== Sys2Proof/Machine/Copy.lean ====
section
/-! DEFINITION. The meanings of the copies (R214 to R216). Each runs with `tagPos` at its tag and `pos` just after it (R204). -/

namespace Sys2Proof.Machine

/-- COPY1 len, off (R214). -/
def execCopy1 (len off : Nat) (s : State) : Result := copyOpcode 1 len off s

/-- COPY2 len, off (R215). -/
def execCopy2 (len off : Nat) (s : State) : Result := copyOpcode 2 len off s

/-- COPY4 len, off (R216). -/
def execCopy4 (len off : Nat) (s : State) : Result := copyOpcode 4 len off s

end Sys2Proof.Machine
end

