-- ==== Sys2Proof/Machine/Literal.lean ====
section
/-! DEFINITION. The meanings of the literals (R208 to R212). Each runs with `tagPos` at its tag and `pos` just after it (R204). -/

namespace Sys2Proof.Machine

/-- LIT len (R208). -/
def execLit (len : Nat) (s : State) : Result := literalBody len s

/-- LITX1 len (R209). -/
def execLitx1 (len : Nat) (s : State) : Result := extendedLiteral 1 len s

/-- LITX2 len (R210). -/
def execLitx2 (len : Nat) (s : State) : Result := extendedLiteral 2 len s

/-- LITX3 len (R211). -/
def execLitx3 (len : Nat) (s : State) : Result := extendedLiteral 3 len s

/-- LITX4 len (R212). -/
def execLitx4 (len : Nat) (s : State) : Result := extendedLiteral 4 len s

end Sys2Proof.Machine
end

