-- ==== Sys2Proof/Machine/Dispatch.lean ====
section
/-! DEFINITION. The dispatch of one opcode to its meaning (R205). -/

namespace Sys2Proof.Machine

def exec (i : Instr) (s : State) : Host.Outcome State Fault Refusal :=
  match i with
  | .lit len => Sys2Proof.Machine.execLit len s
  | .litx1 len => Sys2Proof.Machine.execLitx1 len s
  | .litx2 len => Sys2Proof.Machine.execLitx2 len s
  | .litx3 len => Sys2Proof.Machine.execLitx3 len s
  | .litx4 len => Sys2Proof.Machine.execLitx4 len s
  | .copy1 len off => Sys2Proof.Machine.execCopy1 len off s
  | .copy2 len off => Sys2Proof.Machine.execCopy2 len off s
  | .copy4 len off => Sys2Proof.Machine.execCopy4 len off s

end Sys2Proof.Machine
end

