-- ==== Sys2Proof/Machine/Decompress.lean ====
section
/-! DEFINITION. The DECOMPRESS command (R200 to R222), one engine step at a time: the start, then one opcode a step, then the end of the stream. -/

namespace Sys2Proof.Machine

/-- The bytes of IN the header decoder can reach: those below IN_LEN, at most VARINT_MAX_BYTES (R102). -/
def headerWindow (s : State) : List Byte := s.inp.readBytes 0 (min Config.varintMaxBytes s.inLen)

/-- The size checks after the header (R202, R203, R247), then the opcode loop with `outPos` = 0. -/
def checkSizes (s : State) : Result :=
  if s.regs.maxlenEn = true ∧ s.regs.maxLen.toNat < s.dec.declared then .next (raiseError .overMaxLen s)
  else if s.outSize < s.dec.declared then .next (raiseError .overOutSize s)
  else .next { s with engine := .decompress .loop, dec := { s.dec with outPos := 0 } }

/-- The start of DECOMPRESS (R200, R247): IN_LEN against IN_SIZE (R249), the header (R201), then the size checks. -/
def decompressStart (s : State) : Result :=
  if s.inSize < s.inLen then .next (raiseError .inLenTooBig s)
  else match varintDecode (headerWindow s) with
    | .error e => .next (raiseError e s)
    | .ok (declared, pos) =>
      checkSizes { s with regs := { s.regs with hdrLen := declared }, dec := { s.dec with declared := declared.toNat, pos := pos } }

/-- The end of the stream (R217): LEN_SHORT if the output is not L bytes long, else OUT_LEN = L and the end of the command. -/
def endOfStream (s : State) : Result :=
  if s.dec.outPos ≠ s.dec.declared then .next (raiseError .lenShort s)
  else .next (finish { s with regs := { s.regs with outLen := BitVec.ofNat 32 s.dec.declared } })

/-- The opcode loop (R200, R204): fetch one opcode and execute it completely, or end. -/
def decompressLoop (s : State) : Result :=
  if s.dec.pos < s.inLen then withinIn s s.dec.pos (fetchedBytes s) <| exec (fetchInstr s) (enterOpcode s)
  else endOfStream s

/-- One engine step of DECOMPRESS. -/
def stepDecompress (place : DecompressAt) (s : State) : Result :=
  match place with
  | .start => decompressStart s
  | .loop => decompressLoop s

end Sys2Proof.Machine
end

