-- ==== Sys2Proof/Machine/Flags.lean ====
section
/-! DEFINITION. The words of CTRL and STATUS (R21, R22): CORE's only flags (R42). No opcode reads or writes one. -/

namespace Sys2Proof.Machine

/-- A flag as the number 0 or 1. -/
def flagBit (b : Bool) : Nat := if b then 1 else 0

/-- The value CTRL.OP holds for a command (R21). -/
def Command.code : Command → Nat
  | .compress => 0
  | .decompress => 1

/-- What a read of CTRL returns: START reads 0, OP in bit 1, MAXLEN_EN in bit 2, IE in bit 3, bits 31:4 read 0 (R21). -/
def ctrlWord (s : State) : Word :=
  BitVec.ofNat 32 (s.regs.op.code * 2 + flagBit s.regs.maxlenEn * 4 + flagBit s.regs.ie * 8)

/-- STATUS.ERR and STATUS.ERR_DETAIL in place: bits 7:4 and 15:8 (R22); both 0 when there is no error. -/
def errBits : Option Error → Nat
  | none => 0
  | some e => e.kindCode * 16 + e.detailCode * 256

/-- What a read of STATUS returns: BUSY in bit 0, DONE in bit 1, ERR in bits 7:4, ERR_DETAIL in bits 15:8, the others 0 (R22). -/
def statusWord (s : State) : Word :=
  BitVec.ofNat 32 (flagBit s.busy + flagBit s.regs.done * 2 + errBits s.regs.err)

/-- The command a written CTRL word selects: bit 1 (R21). -/
def writtenOp (v : Word) : Command := if v.getLsbD 1 then .decompress else .compress

/-- A write of CTRL takes over OP, MAXLEN_EN and IE (R21); the reserved bits are ignored. -/
def setCtrl (v : Word) (s : State) : State :=
  { s with regs := { s.regs with op := writtenOp v, maxlenEn := v.getLsbD 2, ie := v.getLsbD 3 } }

/-- Does a written CTRL word set START (bit 0, R21)? -/
def writesStart (v : Word) : Bool := v.getLsbD 0

/-- A write of STATUS: 1 in bit 1 clears DONE, everything else is unchanged (R22). -/
def writeStatus (v : Word) (s : State) : State :=
  if v.getLsbD 1 then { s with regs := { s.regs with done := false } } else s

end Sys2Proof.Machine
end

