-- ==== Sys2Proof/Machine/HostPort.lean ====
section
/-! DEFINITION. The host's accesses (R263): the register block (R21 to R29), START (R253) and the spaces IN and OUT (R61, R275). -/

namespace Sys2Proof.Machine

/-- The bytes of the register block (`10_state.md` section 2). -/
def registerBlockBytes : Nat := 64

/-- What a read of the register at a byte offset returns (`10_state.md` section 2). Reserved offsets read 0 (R29). -/
def registerValue (s : State) (offset : Nat) : Word :=
  match offset with
  | 0x00 => ctrlWord s
  | 0x04 => statusWord s
  | 0x08 => s.regs.inLen
  | 0x0C => s.regs.maxLen
  | 0x10 => s.regs.outLen
  | 0x14 => s.regs.hdrLen
  | 0x18 => s.regs.errPos
  | 0x1C => s.par.inSize
  | 0x20 => s.par.outSize
  | _ => 0#32

/-- The engine's place at the start of a command (R253). -/
def Command.entry : Command → Engine
  | .compress => .compress .start
  | .decompress => .decompress .start

/-- START, once CTRL's fields are written (R253): DONE, ERR, ERR_DETAIL, OUT_LEN, HDR_LEN and ERR_POS become 0 and the engine is RUNNING(OP). OUT's bytes become a new draw if the last command left them unspecified (log 7). IN_LEN and MAX_LEN are sampled as they stand: nothing can change them before the end (R262, log 22). -/
def startCommand (s : State) : State :=
  let s := settleOut s
  { s with
    regs := { s.regs with done := false, err := none, outLen := 0#32, hdrLen := 0#32, errPos := 0#32 }
    engine := s.regs.op.entry }

/-- A write of CTRL (R21, R253, R262): ignored while BUSY; else the fields, and with bit 0 a START. -/
def writeCtrl (v : Word) (s : State) : State :=
  if s.busy then s
  else if writesStart v then startCommand (setCtrl v s)
  else setCtrl v s

/-- A write of the register at a byte offset (R21 to R29, R262). Read-only and reserved offsets ignore it. -/
def writeRegister (offset : Nat) (v : Word) (s : State) : State :=
  match offset with
  | 0x00 => writeCtrl v s
  | 0x04 => writeStatus v s
  | 0x08 => if s.busy then s else { s with regs := { s.regs with inLen := v } }
  | 0x0C => if s.busy then s else { s with regs := { s.regs with maxLen := v } }
  | _ => s

/-- Go on only with a naturally aligned 32-bit access inside the register block (R29, R58). -/
def withinRegisters (s : State) (addr bytes : Nat) (r : Result) : Result :=
  if addr < s.par.regBase ∨ s.par.regBase + registerBlockBytes ≤ addr then .refused .outsideRegisterBlock
  else if bytes = 4 ∧ addr % 4 = 0 then r
  else .refused .registerAccessForm

/-- Hand a value to the host. -/
def deliver (v : Word) (s : State) : State := { s with rdata := v }

/-- A host read of OUT: an unspecified value while BUSY, drawn anew (R275, U5, log 8); after an error the bytes are unspecified (R244, log 7); else the byte. -/
def readOutByte (addr : Nat) (s : State) : State :=
  if s.busy then deliver ((Config.freeByte s.draws addr).setWidth 32) { s with draws := s.draws + 1 }
  else
    let s := settleOut s
    deliver ((s.out.read addr).setWidth 32) s

/-- A host write of OUT while BUSY = 0. -/
def writeOutByte (addr : Nat) (b : Byte) (s : State) : State :=
  let s := settleOut s
  { s with out := s.out.write addr b }

/-- Go on only while no command runs (R275, U7). -/
def whileIdle (s : State) (r : Result) : Result :=
  if s.busy then .refused .hostWriteWhileBusy else r

/-- One access of the host. -/
def hostAccess (a : HostAccess) (s : State) : Result :=
  match a with
  | .readReg addr bytes =>
    withinRegisters s addr bytes <| .next (deliver (registerValue s (addr - s.par.regBase)) s)
  | .writeReg addr bytes v =>
    withinRegisters s addr bytes <| .next (writeRegister (addr - s.par.regBase) v s)
  | .readIn addr => withinIn s addr 1 <| .next (deliver ((s.inp.read addr).setWidth 32) s)
  | .writeIn addr b => whileIdle s <| withinIn s addr 1 <| .next { s with inp := s.inp.write addr b }
  | .readOut addr => withinOut s addr 1 <| .next (readOutByte addr s)
  | .writeOut addr b => whileIdle s <| withinOut s addr 1 <| .next (writeOutByte addr b s)

end Sys2Proof.Machine
end

