-- ==== Sys2Proof/Machine/Step.lean ====
section
/-! DEFINITION. One step of CORE: one step of the engine, one access of the host, or a reset. -/

namespace Sys2Proof.Machine

/-- One step of the engine. IDLE does nothing (R261). -/
def engineStep (s : State) : Result :=
  match s.engine with
  | .idle => .next s
  | .compress place => stepCompress place s
  | .decompress place => stepDecompress place s

/-- One step of CORE: the first turn listed says who moves; with none listed the engine does (log 11). -/
def step (s : State) : Host.Outcome State Fault Refusal :=
  match s.turns with
  | [] => engineStep s
  | .engine :: rest => engineStep { s with turns := rest }
  | .host a :: rest => hostAccess a { s with turns := rest }
  | .waitDone :: rest => if s.regs.done then .next { s with turns := rest } else engineStep s
  | .waitIrq :: rest => if s.irq then .next { s with turns := rest } else engineStep s
  | .reset :: rest => .next (resetState { s with turns := rest })

/-- How many of the data bytes of an opcode with `head` tag and operand bytes at `pos` have room in IN. -/
def roomForData (s : State) (head dataLen : Nat) : Nat := min dataLen (s.inSize - (s.dec.pos + head))

/-- The state that runs an opcode-table word as its next step: DECOMPRESS in its opcode loop, the opcode's bytes (with zeros for the operand bytes the word has not, and for the data bytes of a literal, as many as IN has room for) in IN at `pos`, IN_LEN at their end, L with room for the output as far as OUT has it, and the engine's turn first (log 20). -/
def State.withFetchWord (s : State) (nbits w : Nat) : State :=
  let bytes := tableWordBytes nbits w
  let i := match decode bytes with
    | .ok (i, _) => i
    | .error _ => .lit 1
  let head := 1 + i.operandBytes
  let data := roomForData s head i.dataLen
  { s with
    engine := .decompress .loop
    inp := s.inp.writeBytes s.dec.pos (bytes.take head ++ List.replicate data 0#8)
    regs := { s.regs with inLen := BitVec.ofNat 32 (s.dec.pos + head + data) }
    dec := { s.dec with declared := max s.dec.declared (min s.outSize (s.dec.outPos + i.len)) }
    turns := .engine :: s.turns }

end Sys2Proof.Machine
end

