-- ==== Sys2Proof/Machine/Assembly.lean ====
section
/-! DEFINITION. The assembler's lines and pseudo-instructions (R84 to R87, D27), as data: what bytes a line stands for. The characters of the text syntax have no behaviour (D27) and are not modelled (log 31). -/

namespace Sys2Proof.Machine

/-- One line of an opcode stream (R85). A literal is written with its data. -/
inductive AsmLine where
  | hdr (n : Nat)
  | lit (data : List Byte)
  | litx1 (data : List Byte)
  | litx2 (data : List Byte)
  | litx3 (data : List Byte)
  | litx4 (data : List Byte)
  | copy1 (len off : Nat)
  | copy2 (len off : Nat)
  | copy4 (len off : Nat)
  /-- The pseudo-instruction LITERAL (R87). -/
  | literal (data : List Byte)
  /-- The pseudo-instruction COPY (R87). -/
  | copy (len off : Nat)
deriving DecidableEq, Repr

/-- An opcode's bytes, or an assembly error where its operands have no encoding (R86). -/
def opcodeWithData (i : Instr) (data : List Byte) : Option (List Byte) :=
  if i.WellFormed then some (encode i ++ data) else none

/-- The bytes a line assembles to; `none` is an assembly error: "nothing is assembled, since no encoding exists" (R86, R87). -/
def AsmLine.bytes (width : LitExtWidth) : AsmLine → Option (List Byte)
  | .hdr n => if n < 2 ^ 32 then some (varintBytes (BitVec.ofNat 32 n)) else none
  | .lit data => opcodeWithData (.lit data.length) data
  | .litx1 data => opcodeWithData (.litx1 data.length) data
  | .litx2 data => opcodeWithData (.litx2 data.length) data
  | .litx3 data => opcodeWithData (.litx3 data.length) data
  | .litx4 data => opcodeWithData (.litx4 data.length) data
  | .copy1 len off => opcodeWithData (.copy1 len off) []
  | .copy2 len off => opcodeWithData (.copy2 len off) []
  | .copy4 len off => opcodeWithData (.copy4 len off) []
  | .literal data =>
    if 1 ≤ data.length ∧ data.length ≤ 65536 then some (literalHeader width data.length ++ data) else none
  | .copy len off => if 4 ≤ len ∧ 1 ≤ off ∧ off ≤ 65535 then some (copyBytes off len) else none

/-- The bytes of a program: those of its lines, back to back (R70). R86 makes only an operand out of range an assembly error. DESIGN CHOICE: lines are taken in any order, so a listing whose HDR is missing, repeated or not first assembles too, although its bytes are no stream by R70 (log 32). -/
def asmBytes (width : LitExtWidth) : List AsmLine → Option (List Byte)
  | [] => some []
  | line :: lines =>
    match line.bytes width, asmBytes width lines with
    | some head, some tail => some (head ++ tail)
    | _, _ => none

end Sys2Proof.Machine
end

