-- ==== Sys2Proof/Machine/System.lean ====
section
/-! DEFINITION. Several instances of CORE in one system (R259, D28): each has its own registers, IN, OUT and T, and nothing is shared. -/

namespace Sys2Proof.Machine

/-- A system of N_INSTANCES cores (R7): their number is the length of the list. The spec makes the unspecified contents of each instance an arbitrary draw (R272) and does not say whether two instances' draws agree. DESIGN CHOICE, unsafe: the free values take no number of an instance, so two cores with equal draws hold equal unspecified contents (log 33). -/
structure System where
  cores : List State
deriving DecidableEq, Repr

/-- R7: N_INSTANCES is at least 1. -/
def System.wf (y : System) : Bool := decide (1 ≤ y.cores.length)

/-- One step of the instance `i`. No order between instances exists (R259), so any instance may move. -/
def System.stepAt (y : System) (i : Fin y.cores.length) : Host.Outcome System Fault Refusal :=
  match step (y.cores.get i) with
  | .next s => .next { cores := y.cores.set i s }
  | .fault e => .fault e
  | .refused e => .refused e

end Sys2Proof.Machine
end

