-- ==== Sys2Proof/Safety.lean ====
section
/-! DEFINITION. What counts as a safe run, in the terms the claims use: the invariants of the machine, and the meaning of a stream of opcodes as a function on lists of bytes. -/

namespace Sys2Proof.Machine

/-! ## Invariants -/

/-- The storages have their canonical form and list nothing outside their spaces (R40, R50, R51). -/
abbrev StorageInv (s : State) : Prop :=
  s.inp.wf s.inSize = true ∧ s.out.wf s.outSize = true ∧ s.table.wf = true

/-- The command the engine runs (R30). -/
def Engine.running : Engine → Option Command
  | .idle => none
  | .compress _ => some .compress
  | .decompress _ => some .decompress

/-- The registers agree with the engine (R22, R25, R27, R30, R253): while a command runs DONE, ERR, ERR_POS and OUT_LEN are 0 and CTRL.OP is the running command; ERR_POS is 0 when there is no error, and OUT_LEN is 0 when there is one. OUT is marked as unspecified only while IDLE and after an error (R244, R250, log 7). -/
abbrev StatusInv (s : State) : Prop :=
  (s.busy = true → s.regs.done = false ∧ s.regs.err = none ∧ s.regs.outLen = 0#32) ∧
  (s.engine.running = none ∨ s.engine.running = some s.regs.op) ∧
  (s.regs.err = none → s.regs.errPos = 0#32) ∧
  (s.regs.err ≠ none → s.regs.outLen = 0#32) ∧
  (s.outLost = true → s.busy = false ∧ s.regs.err ≠ none)

/-- The decoder's cursors between two opcodes (R219): `pos` at most IN_LEN, `outPos` at most L, L at most OUT_SIZE and at most the caller's cap; HDR_LEN is L (R26). -/
abbrev DecompressInv (s : State) : Prop :=
  s.engine = .decompress .loop →
    s.inLen ≤ s.inSize ∧ s.dec.pos ≤ s.inLen ∧ s.dec.outPos ≤ s.dec.declared ∧ s.dec.declared ≤ s.outSize ∧
    s.regs.hdrLen.toNat = s.dec.declared ∧ (s.regs.maxlenEn = true → s.dec.declared ≤ s.regs.maxLen.toNat)

/-- The capacity checks of R193 have passed and the header is written. -/
abbrev CapacityChecked (s : State) : Prop :=
  s.inLen ≤ s.inSize ∧ maxCompressedLength s.inLen ≤ s.outSize ∧ s.regs.hdrLen = s.regs.inLen

/-- The engine is inside the block at `inPos` (R141, R191). -/
abbrev InsideBlock (s : State) : Prop :=
  s.enc.inPos < s.inLen ∧ s.enc.inPos % Config.blockSize = 0 ∧ s.enc.blockStart = s.enc.inPos ∧
  s.enc.blockEnd = s.enc.inPos + min (s.inLen - s.enc.inPos) Config.blockSize ∧
  s.enc.blockStart ≤ s.enc.nextEmit ∧ s.enc.nextEmit ≤ s.enc.blockEnd

/-- The geometry of a block that is searched (R123, R124, R143) and its cleared table (R125). -/
abbrev Searched (s : State) : Prop :=
  s.enc.blockStart + Config.inputMargin ≤ s.enc.blockEnd ∧ s.enc.ipLimit + Config.inputMargin = s.enc.blockEnd ∧
  s.enc.tableBits = tableBitsOf (s.enc.blockEnd - s.enc.blockStart) ∧ s.enc.shift = 32 - s.enc.tableBits ∧
  2 ^ s.enc.tableBits ≤ s.table.zeroed

/-- Every entry of the used part of T names a position below `bound` bytes into the block (R131). -/
abbrev EntriesBelow (s : State) (bound : Nat) : Prop :=
  ∀ i, i < 2 ^ s.enc.tableBits → (s.table.get i).toNat < bound

/-- How much of OUT is written when the input below `covered` is encoded, `pendingLiteral` at most 1 while a literal's copy is still to come: five bytes of header, and in the current block at most one byte more per 60 bytes. It implies the bound of R192. -/
abbrev Written (s : State) (covered pendingLiteral : Nat) : Prop :=
  60 * s.enc.op ≤ 300 + 70 * s.enc.blockStart + 61 * (covered - s.enc.blockStart) + 60 * pendingLiteral

/-- The match being extended (R146, R152): the candidate lies in the block before `base`, and the `matched` bytes from both agree. -/
abbrev Matching (s : State) : Prop :=
  s.enc.blockStart < s.enc.base ∧ s.enc.base ≤ s.enc.ipLimit ∧ s.enc.nextEmit ≤ s.enc.base ∧
  s.enc.blockStart ≤ s.enc.candidate ∧ s.enc.candidate < s.enc.base ∧
  Config.minMatch ≤ s.enc.matched ∧ s.enc.base + s.enc.matched ≤ s.enc.blockEnd ∧
  (∀ i, i < s.enc.matched → s.inp.read (s.enc.base + i) = s.inp.read (s.enc.candidate + i))

/-- At the head of the loop over blocks (R191). -/
abbrev AtBlock (s : State) : Prop :=
  CapacityChecked s ∧ s.enc.inPos ≤ s.inLen ∧ 60 * s.enc.op ≤ 360 + 70 * s.enc.inPos ∧
  (s.enc.inPos < s.inLen → s.enc.inPos % Config.blockSize = 0 ∧ 60 * s.enc.op ≤ 300 + 70 * s.enc.inPos)

/-- At the head of the search loop (R144, R34, R152). -/
abbrev AtSearch (s : State) : Prop :=
  CapacityChecked s ∧ InsideBlock s ∧ Searched s ∧ s.enc.blockStart < s.enc.ip ∧ s.enc.nextEmit < s.enc.ip ∧
  Config.skipInit ≤ s.enc.skip ∧ s.enc.skip ≤ Config.skipInit + (s.enc.ip - s.enc.blockStart) ∧
  EntriesBelow s (s.enc.ip - s.enc.blockStart) ∧ Written s s.enc.nextEmit 0

/-- A match was found at `ip` (R145, R152). -/
abbrev AtLiteral (s : State) : Prop :=
  CapacityChecked s ∧ InsideBlock s ∧ Searched s ∧ s.enc.nextEmit < s.enc.ip ∧ s.enc.blockStart < s.enc.ip ∧
  s.enc.ip ≤ s.enc.ipLimit ∧ s.enc.blockStart ≤ s.enc.candidate ∧ s.enc.candidate < s.enc.ip ∧
  (∀ i, i < 4 → s.inp.read (s.enc.ip + i) = s.inp.read (s.enc.candidate + i)) ∧
  EntriesBelow s (s.enc.ip - s.enc.blockStart + 1) ∧ Written s s.enc.nextEmit 0

/-- At the head of the extension loop (R146, R152). -/
abbrev AtExtend (s : State) : Prop :=
  CapacityChecked s ∧ InsideBlock s ∧ Searched s ∧ Matching s ∧
  EntriesBelow s (s.enc.base - s.enc.blockStart + 1) ∧ Written s s.enc.base 1

/-- The match is extended (R147). -/
abbrev AtCopy (s : State) : Prop := AtExtend s ∧ s.enc.ip = s.enc.base + s.enc.matched

/-- After a copy (R148). -/
abbrev AtChain (s : State) : Prop :=
  CapacityChecked s ∧ InsideBlock s ∧ Searched s ∧ s.enc.blockStart < s.enc.ip ∧ s.enc.ip = s.enc.nextEmit ∧
  EntriesBelow s (s.enc.ip - s.enc.blockStart) ∧ Written s s.enc.nextEmit 0

/-- The block is exhausted (R150). -/
abbrev AtTrailing (s : State) : Prop := CapacityChecked s ∧ InsideBlock s ∧ Written s s.enc.nextEmit 0

/-- The encoder at the places between its steps (R34, R131, R152, R193). -/
abbrev CompressInv (s : State) : Prop :=
  (s.engine = .compress .block → AtBlock s) ∧ (s.engine = .compress .search → AtSearch s) ∧
  (s.engine = .compress .literal → AtLiteral s) ∧ (s.engine = .compress .extend → AtExtend s) ∧
  (s.engine = .compress .copy → AtCopy s) ∧ (s.engine = .compress .chain → AtChain s) ∧
  (s.engine = .compress .trailing → AtTrailing s)

/-! ## Whose turn it is -/

/-- The state the engine steps from when it is its turn (log 11): with no turn listed, with the engine's turn taken, or while the host waits; none when the host or the platform moves. -/
def engineTurn (s : State) : Option State :=
  match s.turns with
  | [] => some s
  | .engine :: rest => some { s with turns := rest }
  | .host _ :: _ => none
  | .waitDone :: _ => if s.regs.done then none else some s
  | .waitIrq :: _ => if s.irq then none else some s
  | .reset :: _ => none

/-- The host's access that is next, and the state it acts on. -/
def hostTurn (s : State) : Option (HostAccess × State) :=
  match s.turns with
  | .host a :: rest => some (a, { s with turns := rest })
  | _ => none

/-- `t` differs from `s` at most in the decoder's registers, in OUT and in what an end of the command writes: what every opcode leaves alone (R42, R50, R220). -/
abbrev SameButDecoder (s t : State) : Prop :=
  t.par = s.par ∧ t.inp = s.inp ∧ t.table = s.table ∧ t.enc = s.enc ∧ t.draws = s.draws ∧ t.turns = s.turns ∧
  t.rdata = s.rdata

/-- `t` differs from `s` at most in the encoder's registers, in OUT and in the engine's place. -/
abbrev SameButEncoder (s t : State) : Prop :=
  t.par = s.par ∧ t.inp = s.inp ∧ t.regs = s.regs ∧ t.dec = s.dec ∧ t.outLost = s.outLost ∧ t.draws = s.draws ∧
  t.turns = s.turns ∧ t.rdata = s.rdata

/-- OUT after `s` wrote `bytes` from `a` on (R12, R13): those bytes there, every other byte as before. -/
abbrev OutHolds (s t : State) (a : Nat) (bytes : List Byte) : Prop :=
  ∀ x, t.out.read x = if a ≤ x ∧ x < a + bytes.length then bytes.getD (x - a) 0#8 else s.out.read x

/-! ## The meaning of a stream -/

/-- The output of a copy of `n` bytes at offset `off` after `out`, one byte at a time (R213). -/
def repeatBytes (off : Nat) : Nat → List Byte → List Byte
  | 0, out => out
  | n + 1, out => repeatBytes off n (out ++ [out.getD (out.length - off) 0#8])

/-- The offset of a copy; a literal has none. -/
def copyOffset : Instr → Option Nat
  | .lit _ => none
  | .litx1 _ => none
  | .litx2 _ => none
  | .litx3 _ => none
  | .litx4 _ => none
  | .copy1 _ off => some off
  | .copy2 _ off => some off
  | .copy4 _ off => some off

/-- The bytes a list of opcodes produces after `out` (R200 to R218), or none where an operand or data is missing or an offset is 0 or too far. The first argument bounds the opcodes; the length of the stream is enough. -/
def expandFrom : Nat → List Byte → List Byte → Option (List Byte)
  | 0, stream, out => if stream.length = 0 then some out else none
  | fuel + 1, stream, out =>
    match decode stream with
    | .error .noTag => some out
    | .error .operandsMissing => none
    | .ok (i, rest) =>
      match copyOffset i with
      | none => if rest.length < i.len then none else expandFrom fuel (rest.drop i.len) (out ++ rest.take i.len)
      | some off => if off = 0 ∨ out.length < off then none else expandFrom fuel rest (repeatBytes off i.len out)

/-- The bytes a stream of opcodes, header excluded, stands for. -/
def expand (opcodes : List Byte) : Option (List Byte) := expandFrom opcodes.length opcodes []

/-- How much of the input the opcodes written so far stand for, at each place of COMPRESS. -/
def covered (place : CompressAt) (s : State) : Nat :=
  match place with
  | .start => 0
  | .block => s.enc.inPos
  | .search => s.enc.nextEmit
  | .literal => s.enc.nextEmit
  | .extend => s.enc.base
  | .copy => s.enc.base
  | .chain => s.enc.nextEmit
  | .trailing => s.enc.nextEmit

/-- OUT below `written` holds the header of `n` and opcodes that stand for the input bytes below `upTo` (R154, R195). -/
def StreamHolds (s : State) (written : Nat) (n : Word) (upTo : Nat) : Prop :=
  ∃ opcodes, s.out.readBytes 0 written = varintBytes n ++ opcodes ∧ expand opcodes = some (s.inp.readBytes 0 upTo)

end Sys2Proof.Machine
end

