-- ==== Sys2Proof/Certificates/Slice0/Obligations.lean ====
section
/-! DEFINITION. The statements for the provers. Each says in its docstring which rule of the spec it formalises. -/

open Sys2Proof Sys2Proof.Machine

/-! ## The encoding -/

/-- R72 to R78: reading back the tag and operand bytes of a well-formed instruction gives that instruction, whatever follows. -/
def Obligations.DecodeInvertsEncode : Prop :=
  ∀ (i : Instr) (rest : List Byte), i.WellFormed = true → decode (encode i ++ rest) = .ok (i, rest)

/-- R72 to R78: what the decoder reads is well-formed, and its bytes are the only spelling of the instruction. -/
def Obligations.EncodeInvertsDecode : Prop :=
  ∀ (bytes : List Byte) (i : Instr) (rest : List Byte), decode bytes = .ok (i, rest) →
    i.WellFormed = true ∧ encode i ++ rest = bytes

/-- R80: every one of the 256 tags is a valid opcode, of the kind the map gives. -/
def Obligations.EveryTagIsAnOpcode : Prop :=
  ∀ (c : Byte) (rest : List Byte), 4 ≤ rest.length → ∃ i tail, decode (c :: rest) = .ok (i, tail) ∧
    (c.extractLsb' 0 2 = 0#2 → c.toNat ≤ 0xEC → ∃ len, i = .lit len) ∧
    (c = 0xF0#8 → ∃ len, i = .litx1 len) ∧ (c = 0xF4#8 → ∃ len, i = .litx2 len) ∧
    (c = 0xF8#8 → ∃ len, i = .litx3 len) ∧ (c = 0xFC#8 → ∃ len, i = .litx4 len) ∧
    (c.extractLsb' 0 2 = 1#2 → ∃ len off, i = .copy1 len off) ∧
    (c.extractLsb' 0 2 = 2#2 → ∃ len off, i = .copy2 len off) ∧
    (c.extractLsb' 0 2 = 3#2 → ∃ len off, i = .copy4 len off)

/-- A few words written out from R73 to R77, R171, R172, R174 and `95_test_vectors.md` P1. -/
def Obligations.WrittenOutWordsDecode : Prop :=
  decode [0xEC#8] = .ok (.lit 60, []) ∧ decode [0x08#8, 0x61#8] = .ok (.lit 3, [0x61#8]) ∧
  decode [0xF0#8, 0x05#8] = .ok (.litx1 6, []) ∧ decode [0xF4#8, 0xFF#8, 0x00#8] = .ok (.litx2 256, []) ∧
  decode [0xF8#8, 0x01#8, 0x00#8, 0x00#8] = .ok (.litx3 2, []) ∧
  decode [0xFC#8, 0xFF#8, 0xFF#8, 0xFF#8, 0xFF#8] = .ok (.litx4 4294967296, []) ∧
  decode [0x2D#8, 0x23#8] = .ok (.copy1 7 0x123, []) ∧ decode [0x26#8, 0x01#8, 0x00#8] = .ok (.copy2 10 1, []) ∧
  decode [0x13#8, 0x15#8, 0x00#8, 0x00#8, 0x00#8] = .ok (.copy4 5 21, [])

/-- R87: LITERAL and COPY expand to core opcodes: LITERAL to the one form R170 chooses, COPY to the chunks of R177, each COPY1 or COPY2. -/
def Obligations.PseudoInstructionsExpand : Prop :=
  (∀ (w : LitExtWidth) (data : List Byte), 1 ≤ data.length → data.length ≤ 65536 →
    (AsmLine.literal data).bytes w =
      (if data.length ≤ 60 then AsmLine.lit data
       else if data.length ≤ 255 then AsmLine.litx1 data
       else if w = .two then AsmLine.litx2 data else AsmLine.litx4 data).bytes w) ∧
  (∀ (w : LitExtWidth) (len off : Nat), 4 ≤ len → 1 ≤ off → off ≤ 65535 →
    (AsmLine.copy len off).bytes w =
      asmBytes w ((copyChunks len).map fun m => if m < 12 ∧ off < 2048 then AsmLine.copy1 m off else AsmLine.copy2 m off))

/-! ## The varint codec -/

/-- How many bytes VARINT_ENCODE (R100) writes: R101, which the spec marks "derived: from rule R100". -/
def Obligations.VarintSize : Prop :=
  ∀ n : Word, (varintBytes n).length =
    if n.toNat < 2 ^ 7 then 1 else if n.toNat < 2 ^ 14 then 2 else if n.toNat < 2 ^ 21 then 3
    else if n.toNat < 2 ^ 28 then 4 else 5

/-- R71, R100, R102: VARINT_DECODE reads back what VARINT_ENCODE wrote, whatever follows, and stops just after it. -/
def Obligations.VarintDecodeInvertsEncode : Prop :=
  ∀ (n : Word) (rest : List Byte), varintDecode (varintBytes n ++ rest) = .ok (n, (varintBytes n).length)

/-- Exactly which streams VARINT_DECODE (R102) finds no header in, and with which cause: R103, R104 and R106, which the spec marks "derived: from rule R102". -/
def Obligations.VarintFailures : Prop :=
  ∀ stream : List Byte,
    (varintDecode stream = .error .overflow ↔
      5 ≤ stream.length ∧ (∀ i, i < 4 → (stream.getD i 0#8).getLsbD 7 = true) ∧
      16 ≤ ((stream.getD 4 0#8).extractLsb' 0 7).toNat) ∧
    (varintDecode stream = .error .truncated ↔ stream.length < 5 ∧ ∀ b ∈ stream, b.getLsbD 7 = true) ∧
    (varintDecode stream = .error .tooLong ↔
      5 ≤ stream.length ∧ (∀ i, i < 5 → (stream.getD i 0#8).getLsbD 7 = true) ∧
      ((stream.getD 4 0#8).extractLsb' 0 7).toNat < 16)

/-! ## The hash table -/

/-- The index HASH (R121) gives lies in the used part of T, and is the top `tableBits` bits of the 32-bit product: R122, which the spec marks "derived: from rule R121". -/
def Obligations.HashIndexInRange : Prop :=
  ∀ (key : Word) (tableBits : Nat), 1 ≤ tableBits → tableBits ≤ 14 →
    hashIndex key (32 - tableBits) < 2 ^ tableBits ∧
    hashIndex key (32 - tableBits) = key.toNat * 0x1E35A7BD % 2 ^ 32 / 2 ^ (32 - tableBits)

/-- R123: TABLE_BITS is the largest exponent up to 14 that fits the block length, and at least 1. -/
def Obligations.TableBitsLargestFit : Prop :=
  ∀ blen : Nat, 1 ≤ blen → 1 ≤ tableBitsOf blen ∧ tableBitsOf blen ≤ 14 ∧
    (tableBitsOf blen = 1 ∨ 2 ^ tableBitsOf blen ≤ blen) ∧ (∀ b, b ≤ 14 → 2 ^ b ≤ blen → b ≤ tableBitsOf blen)

/-- R126, R127: PROBE reads the previous occupant of the slot, then stores its own position; INSERT stores without reading. Neither touches anything else. -/
def Obligations.ProbeReadsThenStores : Prop :=
  ∀ (s : State) (p : Nat), p + 4 ≤ s.inSize → hashAt s p < 16384 →
    (∃ t, tableProbe p s = .next t ∧
      t.enc = { s.enc with candidate := s.enc.blockStart + (s.table.get (hashIndex (load32 s.inp p) s.enc.shift)).toNat } ∧
      (∀ j, t.table.get j =
        if j = hashIndex (load32 s.inp p) s.enc.shift then BitVec.ofNat 16 (p - s.enc.blockStart) else s.table.get j) ∧
      t.out = s.out ∧ t.engine = s.engine ∧ SameButEncoder s t) ∧
    (∃ t, tableInsert p s = .next t ∧ t.enc = s.enc ∧
      (∀ j, t.table.get j =
        if j = hashIndex (load32 s.inp p) s.enc.shift then BitVec.ofNat 16 (p - s.enc.blockStart) else s.table.get j) ∧
      t.out = s.out ∧ t.engine = s.engine ∧ SameButEncoder s t)

/-- R120, R128: EQUAL32 holds exactly when the four bytes agree, equivalently when the two little-endian words agree. -/
def Obligations.Equal32ComparesWords : Prop :=
  ∀ (m : Memory) (p q : Nat),
    (equal32 m p q = true ↔ ∀ i, i < 4 → m.read (p + i) = m.read (q + i)) ∧
    (equal32 m p q = true ↔ load32 m p = load32 m q)

/-! ## The opcode encoder -/

/-- R171, R172, R173: the tag and length bytes of an emitted literal. They are the encoding of the form R179 names. -/
def Obligations.LiteralHeaderForms : Prop :=
  ∀ (w : LitExtWidth) (n : Nat), 1 ≤ n → n ≤ 65536 →
    (n ≤ 60 → literalHeader w n = [BitVec.ofNat 8 ((n - 1) * 4)] ∧ literalHeader w n = encode (.lit n)) ∧
    (61 ≤ n → n ≤ 255 → literalHeader w n = [0xF0#8, BitVec.ofNat 8 (n - 1)] ∧ literalHeader w n = encode (.litx1 n)) ∧
    (256 ≤ n → w = .two →
      literalHeader w n = [0xF4#8, BitVec.ofNat 8 ((n - 1) % 256), BitVec.ofNat 8 ((n - 1) / 256)] ∧
      literalHeader w n = encode (.litx2 n)) ∧
    (256 ≤ n → w = .four →
      literalHeader w n = [0xFC#8, BitVec.ofNat 8 ((n - 1) % 256), BitVec.ofNat 8 ((n - 1) / 256), 0x00#8, 0x00#8] ∧
      literalHeader w n = encode (.litx4 n))

/-- R174, R175, R176: the bytes of a copy chunk: COPY1 for a length below 12 with an offset below 2048, else COPY2. -/
def Obligations.CopyChunkForms : Prop :=
  ∀ off m : Nat, 1 ≤ off → off ≤ 65535 → 4 ≤ m → m ≤ 64 →
    (m < 12 → off < 2048 →
      copyBytes64 off m = [BitVec.ofNat 8 (1 + (m - 4) * 4 + off / 256 * 32), BitVec.ofNat 8 (off % 256)] ∧
      copyBytes64 off m = encode (.copy1 m off)) ∧
    (12 ≤ m ∨ 2048 ≤ off →
      copyBytes64 off m = [BitVec.ofNat 8 (2 + (m - 1) * 4), BitVec.ofNat 8 (off % 256), BitVec.ofNat 8 (off / 256)] ∧
      copyBytes64 off m = encode (.copy2 m off))

/-- R177, R178: a copy of `m` bytes is cut into 64-byte chunks while 68 or more remain, then, of the 4 to 67 that are left, 60 and the rest if more than 64. So every chunk has 4 to 64 bytes and together they have `m`. -/
def Obligations.CopyChunking : Prop :=
  ∀ m : Nat, 4 ≤ m →
    (∃ q r, m = 64 * q + r ∧ 4 ≤ r ∧ r ≤ 67 ∧
      copyChunks m = List.replicate q 64 ++ (if 64 < r then [60, r - 60] else [r])) ∧
    (copyChunks m).sum = m ∧ (∀ n ∈ copyChunks m, 4 ≤ n ∧ n ≤ 64)

/-- What a literal and a copy cost, from the forms of R170 to R177: R180, which the spec marks "derived: from rules R170 to R177". A copy costs less than the bytes it stands for. -/
def Obligations.EmittedSizes : Prop :=
  (∀ (w : LitExtWidth) (n : Nat), 1 ≤ n → (literalHeader w n).length + n =
    if n ≤ 60 then n + 1 else if n ≤ 255 then n + 2 else if w = .two then n + 3 else n + 5) ∧
  (∀ off m : Nat, (copyBytes64 off m).length = 2 ∨ (copyBytes64 off m).length = 3) ∧
  (∀ off m : Nat, 4 ≤ m → (copyBytes off m).length < m)

/-- R13, R170, R177: the emitters write at `op`, in increasing order, and advance `op`; nothing else changes. EMIT_LITERAL writes the tag and length bytes and then the bytes of IN; EMIT_COPY the bytes of its chunks. -/
def Obligations.EmittersAppend : Prop :=
  (∀ (s : State) (src n : Nat), src + n ≤ s.inSize →
    s.enc.op + (literalHeader s.par.litExtWidth n).length + n ≤ s.outSize →
    ∃ t, emitLiteral src n s = .next t ∧
      t.enc = { s.enc with op := s.enc.op + (literalHeader s.par.litExtWidth n).length + n } ∧
      OutHolds s t s.enc.op (literalHeader s.par.litExtWidth n ++ s.inp.readBytes src n) ∧
      t.table = s.table ∧ t.engine = s.engine ∧ SameButEncoder s t) ∧
  (∀ (s : State) (off m : Nat), s.enc.op + (copyBytes off m).length ≤ s.outSize →
    ∃ t, emitCopy off m s = .next t ∧ t.enc = { s.enc with op := s.enc.op + (copyBytes off m).length } ∧
      OutHolds s t s.enc.op (copyBytes off m) ∧ t.table = s.table ∧ t.engine = s.engine ∧ SameButEncoder s t)

/-! ## The opcodes -/

/-- R60, R204, R205: on the engine's turn in the opcode loop, when the bytes from `pos` to IN_LEN decode to an instruction, the step is that instruction's meaning, run with `tagPos` at the tag, `c` the tag and `pos` just after it. -/
def Obligations.StepRunsDecodedOpcode : Prop :=
  ∀ (s u : State) (i : Instr) (rest : List Byte), engineTurn s = some u → u.engine = .decompress .loop →
    u.inLen ≤ u.inSize → decode (u.inp.readBytes u.dec.pos (u.inLen - u.dec.pos)) = .ok (i, rest) →
    step s = exec i { u with dec := { u.dec with tagPos := u.dec.pos, c := u.inp.read u.dec.pos, pos := u.dec.pos + 1 } }

/-- R207, R214 to R216, R242: when operand bytes are missing the step raises TRUNC_LIT_LEN for an extended literal and TRUNC_COPY for a copy, with ERR_POS at the tag, and writes no byte of OUT. -/
def Obligations.MissingOperandsRaise : Prop :=
  ∀ s u : State, engineTurn s = some u → u.engine = .decompress .loop → u.inLen ≤ u.inSize →
    decode (u.inp.readBytes u.dec.pos (u.inLen - u.dec.pos)) = .error .operandsMissing →
    ∃ t, step s = .next t ∧ t.engine = .idle ∧ t.regs.done = true ∧
      t.regs.err = some (if (u.inp.read u.dec.pos).extractLsb' 0 2 = 0#2 then .truncLitLen else .truncCopy) ∧
      t.regs.errPos = BitVec.ofNat 32 u.dec.pos ∧ t.regs.outLen = 0#32 ∧ t.out = u.out ∧ t.outLost = true

/-- R206, R208: LIT moves its `len` bytes from IN to OUT and advances both cursors; nothing else changes. -/
def Obligations.LitCompletes : Prop :=
  ∀ (s : State) (len : Nat), s.inLen ≤ s.inSize → s.dec.declared ≤ s.outSize →
    s.dec.pos + len ≤ s.inLen → s.dec.outPos + len ≤ s.dec.declared →
    ∃ t, exec (.lit len) s = .next t ∧
      t.dec = { s.dec with len := len, pos := s.dec.pos + len, outPos := s.dec.outPos + len } ∧
      (∀ i, i < len → t.out.read (s.dec.outPos + i) = s.inp.read (s.dec.pos + i)) ∧
      (∀ a, a < s.dec.outPos ∨ s.dec.outPos + len ≤ a → t.out.read a = s.out.read a) ∧
      t.regs = s.regs ∧ t.engine = s.engine ∧ t.outLost = s.outLost ∧ SameButDecoder s t

/-- R206, R207, R209 to R212: LITXk steps over its `k` length bytes, moves its `len` bytes from IN to OUT and advances both cursors; nothing else changes. Under WINDOW4 four bytes must follow the tag. -/
def Obligations.ExtendedLiteralsComplete : Prop :=
  ∀ (s : State) (k len : Nat) (i : Instr),
    (k, i) ∈ [(1, Instr.litx1 len), (2, Instr.litx2 len), (3, Instr.litx3 len), (4, Instr.litx4 len)] →
    s.inLen ≤ s.inSize → s.dec.declared ≤ s.outSize →
    (s.par.litExtCheck = .window4 → s.dec.pos + 4 ≤ s.inLen) →
    s.dec.pos + k + len ≤ s.inLen → s.dec.outPos + len ≤ s.dec.declared →
    ∃ t, exec i s = .next t ∧
      t.dec = { s.dec with k := k, len := len, pos := s.dec.pos + k + len, outPos := s.dec.outPos + len } ∧
      (∀ j, j < len → t.out.read (s.dec.outPos + j) = s.inp.read (s.dec.pos + k + j)) ∧
      (∀ a, a < s.dec.outPos ∨ s.dec.outPos + len ≤ a → t.out.read a = s.out.read a) ∧
      t.regs = s.regs ∧ t.engine = s.engine ∧ t.outLost = s.outLost ∧ SameButDecoder s t

/-- R206, R207, R221: the checks of the literals, in their order. The first that fails raises; `raiseError` is the operation of R244. -/
def Obligations.LiteralsRaise : Prop :=
  (∀ (s : State) (len : Nat),
    (s.inLen < s.dec.pos + len → exec (.lit len) s = .next (raiseError .truncLitData s)) ∧
    (s.dec.pos + len ≤ s.inLen → s.dec.declared < s.dec.outPos + len →
      exec (.lit len) s = .next (raiseError .outOverflow s))) ∧
  (∀ (s : State) (k len : Nat) (i : Instr),
    (k, i) ∈ [(1, Instr.litx1 len), (2, Instr.litx2 len), (3, Instr.litx3 len), (4, Instr.litx4 len)] →
    (s.inLen < s.dec.pos + (if s.par.litExtCheck = .exact then k else 4) →
      exec i s = .next (raiseError .truncLitLen s)) ∧
    (s.dec.pos + (if s.par.litExtCheck = .exact then k else 4) ≤ s.inLen → s.inLen < s.dec.pos + k + len →
      exec i s = .next (raiseError .truncLitData { s with dec := { s.dec with k := k, pos := s.dec.pos + k } })) ∧
    (s.dec.pos + (if s.par.litExtCheck = .exact then k else 4) ≤ s.inLen → s.dec.pos + k + len ≤ s.inLen →
      s.dec.declared < s.dec.outPos + len →
      exec i s = .next (raiseError .outOverflow { s with dec := { s.dec with k := k, pos := s.dec.pos + k } })))

/-- R213 to R216, R218: a copy steps over its offset bytes and repeats the last `off` bytes of the output periodically, also when it overlaps itself; nothing else changes. -/
def Obligations.CopiesRepeatPeriodically : Prop :=
  ∀ (s : State) (n len off : Nat) (i : Instr),
    (n, i) ∈ [(1, Instr.copy1 len off), (2, Instr.copy2 len off), (4, Instr.copy4 len off)] →
    s.dec.declared ≤ s.outSize → s.dec.pos + n ≤ s.inLen → 1 ≤ off → off ≤ s.dec.outPos →
    s.dec.outPos + len ≤ s.dec.declared →
    ∃ t, exec i s = .next t ∧
      t.dec = { s.dec with len := len, offset := off, pos := s.dec.pos + n, outPos := s.dec.outPos + len } ∧
      (∀ j, j < len → t.out.read (s.dec.outPos + j) = s.out.read (s.dec.outPos - off + j % off)) ∧
      (∀ a, a < s.dec.outPos ∨ s.dec.outPos + len ≤ a → t.out.read a = s.out.read a) ∧
      t.regs = s.regs ∧ t.engine = s.engine ∧ t.outLost = s.outLost ∧ SameButDecoder s t

/-- R213 to R216, R221: the checks of the copies, in their order. The first that fails raises; `raiseError` is the operation of R244. -/
def Obligations.CopiesRaise : Prop :=
  ∀ (s : State) (n len off : Nat) (i : Instr),
    (n, i) ∈ [(1, Instr.copy1 len off), (2, Instr.copy2 len off), (4, Instr.copy4 len off)] →
    (s.inLen < s.dec.pos + n → exec i s = .next (raiseError .truncCopy s)) ∧
    (s.dec.pos + n ≤ s.inLen →
      (off = 0 → exec i s = .next (raiseError .offsetZero { s with dec := { s.dec with pos := s.dec.pos + n } })) ∧
      (1 ≤ off → s.dec.outPos < off →
        exec i s = .next (raiseError .offsetTooFar { s with dec := { s.dec with pos := s.dec.pos + n } })) ∧
      (1 ≤ off → off ≤ s.dec.outPos → s.dec.declared < s.dec.outPos + len →
        exec i s = .next (raiseError .outOverflow { s with dec := { s.dec with pos := s.dec.pos + n } })))

/-- R42, R221, R242: the frame of every opcode that answers next. It either completes, changing no register of the host and of OUT only the `len` bytes from `outPos` on, or raises one of the INVALID_BITSTREAM details 1 to 6 with ERR_POS at its tag, changing no byte of OUT. -/
def Obligations.OpcodeFrame : Prop :=
  ∀ (i : Instr) (s t : State), exec i s = .next t →
    SameButDecoder s t ∧ t.dec.declared = s.dec.declared ∧ t.dec.tagPos = s.dec.tagPos ∧ t.dec.c = s.dec.c ∧
    ((t.regs = s.regs ∧ t.engine = s.engine ∧ t.outLost = s.outLost ∧ t.dec.outPos = s.dec.outPos + i.len ∧
        ∀ a, a < s.dec.outPos ∨ s.dec.outPos + i.len ≤ a → t.out.read a = s.out.read a) ∨
     (∃ e ∈ [Error.truncLitLen, .truncLitData, .truncCopy, .offsetZero, .offsetTooFar, .outOverflow],
        t.regs = { s.regs with done := true, err := some e, errPos := BitVec.ofNat 32 s.dec.tagPos, outLen := 0#32 } ∧
        t.engine = .idle ∧ t.outLost = true ∧ ∀ a, t.out.read a = s.out.read a))

/-! ## The commands -/

/-- R244, R242: what a raise writes, and that it writes nothing else. The mark `outLost`, which says that OUT's bytes are unspecified from here on, is the model's (log 7). -/
def Obligations.RaiseEndsTheCommand : Prop :=
  ∀ (e : Error) (s : State),
    (raiseError e s).regs = { s.regs with
      done := true, err := some e, outLen := 0#32,
      errPos := (if e = .lenShort then s.regs.inLen
        else if e ∈ [Error.truncLitLen, .truncLitData, .truncCopy, .offsetZero, .offsetTooFar, .outOverflow] then
          BitVec.ofNat 32 s.dec.tagPos
        else 0#32) } ∧
    (raiseError e s).engine = .idle ∧ (raiseError e s).busy = false ∧ (raiseError e s).irq = s.regs.ie ∧
    (raiseError e s).out = s.out ∧ (raiseError e s).outLost = true ∧ (raiseError e s).dec = s.dec ∧ SameButDecoder s (raiseError e s)

/-- R22, R240, R241: what STATUS reads after each error, the values of `95_test_vectors.md` sections 2.10 and 2.11. -/
def Obligations.StatusReadsErrorCodes : Prop :=
  ∀ (e : Error) (v : Word) (s : State),
    (e, v) ∈ [(Error.truncated, 0x0112#32), (.overflow, 0x0212#32), (.tooLong, 0x0312#32), (.overMaxLen, 0x0122#32),
      (.overOutSize, 0x0222#32), (.truncLitLen, 0x0132#32), (.truncLitData, 0x0232#32), (.truncCopy, 0x0332#32),
      (.offsetZero, 0x0432#32), (.offsetTooFar, 0x0532#32), (.outOverflow, 0x0632#32), (.lenShort, 0x0732#32),
      (.inLenTooBig, 0x0142#32), (.outTooSmall, 0x0242#32)] →
    statusWord (raiseError e s) = v

/-- R201, R202, R203, R247, R249: the start of DECOMPRESS, check by check in the order of R247. No clause writes a byte of OUT. That the whole start is one step of the engine is the model's choice (log 12), as is the mark `outLost` after an error (log 7). -/
def Obligations.DecompressStartChecks : Prop :=
  ∀ s : State, s.engine = .decompress .start →
    (s.inSize < s.inLen → engineStep s = .next (raiseError .inLenTooBig s)) ∧
    (s.inLen ≤ s.inSize →
      (∀ e, varintDecode (s.inp.readBytes 0 s.inLen) = .error e → engineStep s = .next (raiseError e s)) ∧
      (∀ L pos, varintDecode (s.inp.readBytes 0 s.inLen) = .ok (L, pos) → ∃ t, engineStep s = .next t ∧
        t.regs.hdrLen = L ∧ t.out = s.out ∧ SameButDecoder s t ∧
        (s.regs.maxlenEn = true → s.regs.maxLen.toNat < L.toNat →
          t.engine = .idle ∧ t.outLost = true ∧ t.dec = { s.dec with declared := L.toNat, pos := pos } ∧
          t.regs = { s.regs with hdrLen := L, done := true, err := some .overMaxLen, errPos := 0#32, outLen := 0#32 }) ∧
        ((s.regs.maxlenEn = true → L.toNat ≤ s.regs.maxLen.toNat) → s.outSize < L.toNat →
          t.engine = .idle ∧ t.outLost = true ∧ t.dec = { s.dec with declared := L.toNat, pos := pos } ∧
          t.regs = { s.regs with hdrLen := L, done := true, err := some .overOutSize, errPos := 0#32, outLen := 0#32 }) ∧
        ((s.regs.maxlenEn = true → L.toNat ≤ s.regs.maxLen.toNat) → L.toNat ≤ s.outSize →
          t.engine = .decompress .loop ∧ t.outLost = s.outLost ∧ t.regs = { s.regs with hdrLen := L } ∧
          t.dec = { s.dec with declared := L.toNat, pos := pos, outPos := 0 })))

/-- R217, R250: the end of the stream. A short output raises LEN_SHORT with ERR_POS = IN_LEN; else OUT_LEN is L and the command ends without error. That this is one step of the engine is the model's choice (log 12), and that OUT's stored bytes stand after LEN_SHORT, where R244 leaves them unspecified, is the model's (log 7). -/
def Obligations.EndOfStreamChecksLength : Prop :=
  ∀ s : State, s.engine = .decompress .loop → s.dec.pos = s.inLen →
    (s.dec.outPos ≠ s.dec.declared → ∃ t, engineStep s = .next t ∧
      t.regs = { s.regs with done := true, err := some .lenShort, errPos := s.regs.inLen, outLen := 0#32 } ∧
      t.engine = .idle ∧ t.out = s.out ∧ t.outLost = true ∧ SameButDecoder s t) ∧
    (s.dec.outPos = s.dec.declared → ∃ t, engineStep s = .next t ∧
      t.regs = { s.regs with done := true, err := none, errPos := 0#32, outLen := BitVec.ofNat 32 s.dec.declared } ∧
      t.engine = .idle ∧ t.irq = s.regs.ie ∧ t.out = s.out ∧ t.outLost = s.outLost ∧ SameButDecoder s t)

/-- R190, R193, R248, R249: the start of COMPRESS: the two capacity checks in their order, before any byte is written, then the header varint from OUT offset 0. -/
def Obligations.CompressStartChecks : Prop :=
  ∀ s : State, s.engine = .compress .start →
    (s.inSize < s.inLen → engineStep s = .next (raiseError .inLenTooBig s)) ∧
    (s.inLen ≤ s.inSize → s.outSize < 32 + s.inLen + s.inLen / 6 → engineStep s = .next (raiseError .outTooSmall s)) ∧
    (s.inLen ≤ s.inSize → 32 + s.inLen + s.inLen / 6 ≤ s.outSize → ∃ t, engineStep s = .next t ∧
      t.engine = .compress .block ∧ t.regs = { s.regs with hdrLen := s.regs.inLen } ∧
      t.enc = { s.enc with op := (varintBytes s.regs.inLen).length, inPos := 0 } ∧
      OutHolds s t 0 (varintBytes s.regs.inLen) ∧ t.inp = s.inp ∧ t.par = s.par ∧ t.table = s.table ∧ t.dec = s.dec ∧
      t.outLost = s.outLost ∧ t.draws = s.draws ∧ t.turns = s.turns ∧ t.rdata = s.rdata)

/-- R124, R125, R141, R143, R191: the set-up of a block: its cursors, its geometry and a table whose used entries all read 0. OUT and the registers stand. That this is one step of the engine is the model's choice (log 12). -/
def Obligations.BlockSetUp : Prop :=
  ∀ (s : State) (blen : Nat), s.engine = .compress .block → s.enc.inPos < s.inLen →
    blen = min (s.inLen - s.enc.inPos) 65536 →
    ∃ t, engineStep s = .next t ∧ t.enc.blockStart = s.enc.inPos ∧ t.enc.blockEnd = s.enc.inPos + blen ∧
      t.enc.nextEmit = s.enc.inPos ∧ t.enc.tableBits = tableBitsOf blen ∧ t.enc.shift = 32 - tableBitsOf blen ∧
      t.enc.op = s.enc.op ∧ t.enc.inPos = s.enc.inPos ∧
      (∀ i, i < 2 ^ tableBitsOf blen → t.table.get i = 0#16) ∧
      (∀ i, 2 ^ tableBitsOf blen ≤ i → t.table.get i = s.table.get i) ∧
      (15 ≤ blen → t.engine = .compress .search ∧ t.enc.ipLimit = s.enc.inPos + blen - 15 ∧
        t.enc.ip = s.enc.inPos + 1 ∧ t.enc.skip = 32) ∧
      (blen < 15 → t.engine = .compress .trailing) ∧ t.out = s.out ∧ SameButEncoder s t

/-- R126, R144: one pass of the search: at the limit the block is exhausted; else the probe, and on a match the literal, on a miss a step of `skip >> 5` with `skip` growing by 1. That this is one step of the engine is the model's choice (log 12). -/
def Obligations.SearchPass : Prop :=
  ∀ s : State, s.engine = .compress .search → AtSearch s →
    ∃ t, engineStep s = .next t ∧ t.out = s.out ∧ SameButEncoder s t ∧
      (s.enc.ipLimit < s.enc.ip → t.engine = .compress .trailing ∧ t.enc = s.enc ∧ t.table = s.table) ∧
      (s.enc.ip ≤ s.enc.ipLimit →
        t.enc.candidate = s.enc.blockStart + (s.table.get (hashAt s s.enc.ip)).toNat ∧
        t.table = s.table.set (hashAt s s.enc.ip) (BitVec.ofNat 16 (s.enc.ip - s.enc.blockStart)) ∧
        (load32 s.inp s.enc.ip = load32 s.inp t.enc.candidate →
          t.engine = .compress .literal ∧ t.enc = { s.enc with candidate := t.enc.candidate }) ∧
        (load32 s.inp s.enc.ip ≠ load32 s.inp t.enc.candidate →
          t.engine = .compress .search ∧
          t.enc = { s.enc with candidate := t.enc.candidate, ip := s.enc.ip + s.enc.skip / 32, skip := s.enc.skip + 1 }))

/-- R146: one pass of the extension: it goes on while the block lasts and the bytes agree, and else ends with `ip = base + matched`. That this is one step of the engine is the model's choice (log 12). -/
def Obligations.ExtendPass : Prop :=
  ∀ s : State, s.engine = .compress .extend → AtExtend s →
    ∃ t, engineStep s = .next t ∧ t.out = s.out ∧ t.table = s.table ∧ SameButEncoder s t ∧
      (s.enc.base + s.enc.matched < s.enc.blockEnd ∧
          s.inp.read (s.enc.base + s.enc.matched) = s.inp.read (s.enc.candidate + s.enc.matched) →
        t.engine = .compress .extend ∧ t.enc = { s.enc with matched := s.enc.matched + 1 }) ∧
      (¬(s.enc.base + s.enc.matched < s.enc.blockEnd ∧
          s.inp.read (s.enc.base + s.enc.matched) = s.inp.read (s.enc.candidate + s.enc.matched)) →
        t.engine = .compress .copy ∧ t.enc = { s.enc with ip := s.enc.base + s.enc.matched })

/-- R148, R149: the chain step: at the limit the block is exhausted; else `ip - 1` is inserted before `ip` is probed, a match extends again from `ip`, and without one the search goes on at `ip + 1` with `skip` reset. That this is one step of the engine is the model's choice (log 12). -/
def Obligations.ChainStep : Prop :=
  ∀ s : State, s.engine = .compress .chain → AtChain s →
    ∃ t, engineStep s = .next t ∧ t.out = s.out ∧ SameButEncoder s t ∧
      (s.enc.ipLimit ≤ s.enc.ip → t.engine = .compress .trailing ∧ t.enc = s.enc ∧ t.table = s.table) ∧
      (s.enc.ip < s.enc.ipLimit →
        t.enc.candidate = s.enc.blockStart +
          (if hashAt s s.enc.ip = hashAt s (s.enc.ip - 1) then s.enc.ip - 1 - s.enc.blockStart
           else (s.table.get (hashAt s s.enc.ip)).toNat) ∧
        (∀ j, t.table.get j =
          if j = hashAt s s.enc.ip then BitVec.ofNat 16 (s.enc.ip - s.enc.blockStart)
          else if j = hashAt s (s.enc.ip - 1) then BitVec.ofNat 16 (s.enc.ip - 1 - s.enc.blockStart)
          else s.table.get j) ∧
        (load32 s.inp s.enc.ip = load32 s.inp t.enc.candidate →
          t.engine = .compress .extend ∧
          t.enc = { s.enc with candidate := t.enc.candidate, base := s.enc.ip, matched := 4 }) ∧
        (load32 s.inp s.enc.ip ≠ load32 s.inp t.enc.candidate →
          t.engine = .compress .search ∧
          t.enc = { s.enc with candidate := t.enc.candidate, ip := s.enc.ip + 1, skip := 32 }))

/-- R145, R147, R150: the three emissions of a block: the literal before a match, the copy of `matched` bytes at offset `base - candidate`, and the trailing literal if one is pending. That this is one step of the engine is the model's choice (log 12). -/
def Obligations.BlockEmissions : Prop :=
  (∀ s : State, s.engine = .compress .literal → AtLiteral s → ∃ t bytes, engineStep s = .next t ∧
    bytes = literalHeader s.par.litExtWidth (s.enc.ip - s.enc.nextEmit) ++
      s.inp.readBytes s.enc.nextEmit (s.enc.ip - s.enc.nextEmit) ∧
    OutHolds s t s.enc.op bytes ∧ t.engine = .compress .extend ∧ t.table = s.table ∧ SameButEncoder s t ∧
    t.enc = { s.enc with op := s.enc.op + bytes.length, base := s.enc.ip, matched := 4 }) ∧
  (∀ s : State, s.engine = .compress .copy → AtCopy s → ∃ t bytes, engineStep s = .next t ∧
    bytes = copyBytes (s.enc.base - s.enc.candidate) s.enc.matched ∧
    OutHolds s t s.enc.op bytes ∧ t.engine = .compress .chain ∧ t.table = s.table ∧ SameButEncoder s t ∧
    t.enc = { s.enc with op := s.enc.op + bytes.length, nextEmit := s.enc.ip }) ∧
  (∀ s : State, s.engine = .compress .trailing → AtTrailing s → ∃ t bytes, engineStep s = .next t ∧
    bytes = (if s.enc.nextEmit < s.enc.blockEnd then
      literalHeader s.par.litExtWidth (s.enc.blockEnd - s.enc.nextEmit) ++
        s.inp.readBytes s.enc.nextEmit (s.enc.blockEnd - s.enc.nextEmit) else []) ∧
    OutHolds s t s.enc.op bytes ∧ t.engine = .compress .block ∧ t.table = s.table ∧ SameButEncoder s t ∧
    t.enc = { s.enc with op := s.enc.op + bytes.length, inPos := s.enc.blockEnd })

/-! ## The host -/

/-- R21, R252, R253: a host write to CTRL with bit 0 = 1 while BUSY = 0 starts a command, with the written OP, MAXLEN_EN and IE; while BUSY = 1 it is ignored as a whole. What it says of the mark `outLost` (START clears it, and OUT's stored bytes stand where it was not set) is the model's choice (log 7), and so is that `turns` lists the access (log 11). -/
def Obligations.StartBeginsACommand : Prop :=
  ∀ (s u : State) (v : Word), hostTurn s = some (.writeReg u.par.regBase 4 v, u) → u.par.wf = true → v.getLsbD 0 = true →
    (u.busy = false → ∃ t, step s = .next t ∧ t.busy = true ∧ t.irq = false ∧
      t.engine = (if v.getLsbD 1 then .decompress .start else .compress .start) ∧
      t.regs = { u.regs with op := (if v.getLsbD 1 then .decompress else .compress), maxlenEn := v.getLsbD 2,
                             ie := v.getLsbD 3, done := false, err := none, outLen := 0#32, hdrLen := 0#32, errPos := 0#32 } ∧
      t.inp = u.inp ∧ t.par = u.par ∧ t.outLost = false ∧ (u.outLost = false → t.out = u.out)) ∧
    (u.busy = true → step s = .next u)

/-- R21, R22, R23, R24, R25 to R29, R276: a host write to a register while BUSY = 0 that starts no command: what each offset takes over, and that nothing else changes. That a write of CTRL without START takes over OP, MAXLEN_EN and IE is the model's reading of R21 (log 28). -/
def Obligations.RegisterWritesWhileIdle : Prop :=
  ∀ (s u : State) (offset : Nat) (v : Word), hostTurn s = some (.writeReg (u.par.regBase + offset) 4 v, u) →
    u.par.wf = true → u.busy = false → offset < 64 → offset % 4 = 0 → (offset = 0 → v.getLsbD 0 = false) →
    step s = .next { u with regs :=
      if offset = 0x00 then { u.regs with op := (if v.getLsbD 1 then .decompress else .compress),
                                          maxlenEn := v.getLsbD 2, ie := v.getLsbD 3 }
      else if offset = 0x04 then { u.regs with done := u.regs.done && !v.getLsbD 1 }
      else if offset = 0x08 then { u.regs with inLen := v }
      else if offset = 0x0C then { u.regs with maxLen := v }
      else u.regs }

/-- R262: while BUSY = 1 every host write to the register block is ignored, START and STATUS bit 1 included, and reads return the current values. `StatusInv` is the invariant that DONE is 0 while BUSY. -/
def Obligations.WritesIgnoredWhileBusy : Prop :=
  ∀ (s u : State) (offset : Nat) (v : Word), u.par.wf = true → u.busy = true → StatusInv u →
    offset < 64 → offset % 4 = 0 →
    (hostTurn s = some (.writeReg (u.par.regBase + offset) 4 v, u) → step s = .next u) ∧
    (hostTurn s = some (.readReg (u.par.regBase + offset) 4, u) →
      step s = .next { u with rdata := registerValue u offset })

/-- R21, R22, R28, R29, R263: what a host read of each offset of the register block returns, whether or not a command runs, bit by bit for CTRL and STATUS, and that it changes nothing else. That the value goes to `rdata` is the model's (log 11). -/
def Obligations.RegisterReads : Prop :=
  (∀ (s u : State) (offset : Nat), hostTurn s = some (.readReg (u.par.regBase + offset) 4, u) → u.par.wf = true →
    offset < 64 → offset % 4 = 0 → step s = .next { u with rdata := registerValue u offset }) ∧
  ∀ s : State,
    (registerValue s 0x00).toNat =
      (if s.regs.op = .decompress then 2 else 0) + (if s.regs.maxlenEn then 4 else 0) + (if s.regs.ie then 8 else 0) ∧
    (registerValue s 0x04).getLsbD 0 = s.busy ∧ (registerValue s 0x04).getLsbD 1 = s.regs.done ∧
    (registerValue s 0x04).extractLsb' 2 2 = 0#2 ∧
    ((registerValue s 0x04).extractLsb' 4 4).toNat = (s.regs.err.map Error.kindCode).getD 0 ∧
    ((registerValue s 0x04).extractLsb' 8 8).toNat = (s.regs.err.map Error.detailCode).getD 0 ∧
    (registerValue s 0x04).extractLsb' 16 16 = 0#16 ∧
    registerValue s 0x08 = s.regs.inLen ∧ registerValue s 0x0C = s.regs.maxLen ∧ registerValue s 0x10 = s.regs.outLen ∧
    registerValue s 0x14 = s.regs.hdrLen ∧ registerValue s 0x18 = s.regs.errPos ∧
    registerValue s 0x1C = s.par.inSize ∧ registerValue s 0x20 = s.par.outSize ∧
    (∀ offset, 0x24 ≤ offset → registerValue s offset = 0#32)

/-- R29, R275 (U7, U9): the accesses of the host that the model refuses: a register access that is not a naturally aligned 32-bit one, and a write of IN or OUT while a command runs. -/
def Obligations.UndefinedHostAccessesRefused : Prop :=
  ∀ s u : State,
    (∀ addr bytes v, u.par.regBase ≤ addr → addr < u.par.regBase + 64 → ¬(bytes = 4 ∧ addr % 4 = 0) →
      (hostTurn s = some (.readReg addr bytes, u) → step s = .refused .registerAccessForm) ∧
      (hostTurn s = some (.writeReg addr bytes v, u) → step s = .refused .registerAccessForm)) ∧
    (∀ addr b, u.busy = true →
      (hostTurn s = some (.writeIn addr b, u) → step s = .refused .hostWriteWhileBusy) ∧
      (hostTurn s = some (.writeOut addr b, u) → step s = .refused .hostWriteWhileBusy))

/-- R50, R51, R61, R263: what the host writes into IN or OUT while BUSY = 0 it reads back, every other byte stands, and a result in OUT is read as the engine left it. IN is read at any time (log 26). After an error, where OUT's other bytes are unspecified (R244), a write of OUT leaves each of them a free value (log 5, log 7). That a value read goes to `rdata` is the model's (log 11). -/
def Obligations.HostReadsAndWritesSpaces : Prop :=
  (∀ (s u : State) (addr : Nat) (b : Byte), hostTurn s = some (.writeIn addr b, u) → u.busy = false → addr < u.inSize →
    ∃ t, step s = .next t ∧ (∀ a, t.inp.read a = if a = addr then b else u.inp.read a) ∧
      t.out = u.out ∧ t.regs = u.regs ∧ t.engine = u.engine) ∧
  (∀ (s u : State) (addr : Nat), hostTurn s = some (.readIn addr, u) → addr < u.inSize →
    step s = .next { u with rdata := (u.inp.read addr).setWidth 32 }) ∧
  (∀ (s u : State) (addr : Nat) (b : Byte), hostTurn s = some (.writeOut addr b, u) → u.busy = false → addr < u.outSize →
    ∃ t, step s = .next t ∧ t.outLost = false ∧
      (∀ a, t.out.read a =
        if a = addr then b else if u.outLost then Config.freeByte u.draws a else u.out.read a) ∧
      t.inp = u.inp ∧ t.regs = u.regs ∧ t.engine = u.engine) ∧
  (∀ (s u : State) (addr : Nat), hostTurn s = some (.readOut addr, u) → u.busy = false → u.outLost = false →
    addr < u.outSize → step s = .next { u with rdata := (u.out.read addr).setWidth 32 })

/-- R244, R275 (U4, U5), log 7 and log 8: after an error, and while a command runs, a host read of OUT returns an unspecified value: a free one, whatever it is. The form of the free value is the model's. -/
def Obligations.OutIsUnspecifiedAfterErrorAndWhileBusy : Prop :=
  ∀ (s u : State) (addr : Nat), hostTurn s = some (.readOut addr, u) → addr < u.outSize →
    u.busy = true ∨ u.outLost = true →
    ∃ t, step s = .next t ∧ t.rdata = (Config.freeByte u.draws addr).setWidth 32 ∧ t.draws = u.draws + 1 ∧
      t.regs = u.regs ∧ t.engine = u.engine ∧ t.inp = u.inp

/-! ## Reset -/

/-- R270: the state after reset, whatever the parameters: the registers read 0 but for IN_CAP and OUT_CAP, which read IN_SIZE and OUT_SIZE, the engine is IDLE and IRQ is 0, and the engine starts no command on its own. That `State.reset` is the instance with the parameters of log 1 to 3, with no turn listed, so that its step is the engine's (log 11), is the model's choice. -/
def Obligations.ResetValues : Prop :=
  (∀ (p : Params) (draws : Nat) (turns : List Turn) (s : State), s = State.resetOf p draws turns →
    (∀ offset, offset < 64 → offset % 4 = 0 → offset ≠ 0x1C → offset ≠ 0x20 → registerValue s offset = 0#32) ∧
    registerValue s 0x1C = p.inSize ∧ registerValue s 0x20 = p.outSize ∧
    s.engine = .idle ∧ s.irq = false ∧ engineStep s = .next s) ∧
  State.reset = State.resetOf Config.defaultParams 0 [] ∧ step State.reset = .next State.reset

/-- R28, R270, R271: reset in any state, also while a command runs: the command is abandoned, no completion is signalled, every register holds its reset value and the parameters stand. The contents of IN, OUT and T are free values (log 5, log 6, log 21). -/
def Obligations.ResetAbandonsTheCommand : Prop :=
  ∀ (s : State) (rest : List Turn), s.turns = .reset :: rest →
    ∃ t, step s = .next t ∧ t.engine = .idle ∧ t.irq = false ∧ t.par = s.par ∧
      t.regs = { op := .compress, maxlenEn := false, ie := false, done := false, err := none, inLen := 0#32,
                 maxLen := 0#32, outLen := 0#32, hdrLen := 0#32, errPos := 0#32 } ∧
      (∀ a, t.inp.read a = Config.freeByte s.draws a) ∧ (∀ a, t.out.read a = Config.freeByte (s.draws + 1) a) ∧
      (∀ i, t.table.get i = Config.freeEntry (s.draws + 2) i)

/-! ## Invariants -/

/-- R22, R25, R27, R30, R40, R50, R51, R270 (log 5, log 6): the state after reset meets every invariant below. -/
def Obligations.ResetMeetsTheInvariants : Prop :=
  StorageInv State.reset ∧ StatusInv State.reset ∧ DecompressInv State.reset ∧ CompressInv State.reset ∧
  State.reset.par.wf = true

/-- R12, R40, R50, R51 (log 5, log 6): every step keeps the canonical form of IN, OUT and T, with nothing listed outside them. -/
def Obligations.StepKeepsStorageCanonical : Prop :=
  ∀ s t : State, StorageInv s → step s = .next t → StorageInv t

/-- R28, R50: the parameters never change, and no step of the engine changes IN. -/
def Obligations.ParametersAndInputAreKept : Prop :=
  (∀ s t : State, step s = .next t → t.par = s.par) ∧ (∀ s t : State, engineStep s = .next t → t.inp = s.inp)

/-- R22, R25, R27, R30, R262: every step keeps the registers in agreement with the engine. After a command that ended without an error the mark `outLost` is not set, so OUT holds the result (R250); the mark is the model's (log 7). -/
def Obligations.StepKeepsStatusConsistent : Prop :=
  ∀ s t : State, StatusInv s → step s = .next t → StatusInv t

/-- R219: every step keeps the bounds of the decoder's cursors. -/
def Obligations.StepKeepsDecoderBounds : Prop :=
  ∀ s t : State, DecompressInv s → step s = .next t → DecompressInv t

/-- R131, R152, R193: every step keeps the encoder's invariant: its cursors inside the block, every candidate before the position it is a candidate for, the match equal byte for byte, and the output within its bound. The invariant's form, place by place, is the model's (log 12). -/
def Obligations.StepKeepsEncoderInvariant : Prop :=
  ∀ s t : State, CompressInv s → step s = .next t → CompressInv t

/-- R12, R193, R219: where the invariants hold the engine always answers a next state: no primitive is called outside its space. -/
def Obligations.EngineNeverStops : Prop :=
  ∀ s : State, CompressInv s → DecompressInv s → ∃ t, engineStep s = .next t

/-- R196, R219, R245: the engine writes OUT only where it appends: COMPRESS from `op` on, DECOMPRESS from `outPos` on and below L. -/
def Obligations.EngineOnlyAppends : Prop :=
  ∀ (s t : State) (a : Nat), engineStep s = .next t → t.out.read a ≠ s.out.read a →
    (∃ place, s.engine = .compress place ∧ (place ≠ .start → s.enc.op ≤ a) ∧ a < t.enc.op) ∨
    (s.engine = .decompress .loop ∧ s.dec.outPos ≤ a ∧ a < t.dec.outPos ∧ t.dec.outPos ≤ s.dec.declared)

/-! ## Whole commands -/

/-- R282: DECOMPRESS ends, within as many steps as IN_LEN has bytes and two more. -/
def Obligations.DecompressEnds : Prop :=
  ∀ s : State, s.turns = [] → s.engine = .decompress .start →
    ∃ k t, k ≤ s.inLen + 2 ∧ Host.Core.run Sys2Proof.core k s = .next t ∧ t.engine = .idle ∧ t.regs.done = true

/-- R282: COMPRESS ends, within a number of steps linear in IN_LEN. The factor is the model's, which takes one step a pass of each loop (log 12). -/
def Obligations.CompressEnds : Prop :=
  ∀ s : State, s.turns = [] → s.engine = .compress .start →
    ∃ k t, k ≤ 5 * s.inLen + 2 ∧ Host.Core.run Sys2Proof.core k s = .next t ∧ t.engine = .idle ∧ t.regs.done = true

/-- R200, R206, R213, R217: DECOMPRESS computes the meaning of the stream as a function on lists: it succeeds only if the opcodes expand to L bytes, and under LIT_EXT_CHECK = EXACT it does whenever they do, with those bytes in OUT. -/
def Obligations.DecompressComputesExpansion : Prop :=
  ∀ (s : State) (L : Word) (pos : Nat), s.turns = [] → s.engine = .decompress .start → s.inLen ≤ s.inSize →
    varintDecode (s.inp.readBytes 0 s.inLen) = .ok (L, pos) →
    (s.regs.maxlenEn = true → L.toNat ≤ s.regs.maxLen.toNat) → L.toNat ≤ s.outSize →
    ∃ k t, Host.Core.run Sys2Proof.core k s = .next t ∧ t.engine = .idle ∧ t.regs.done = true ∧
      (t.regs.err = none → t.regs.outLen = L ∧ t.outLost = s.outLost ∧
        expand (s.inp.readBytes pos (s.inLen - pos)) = some (t.out.readBytes 0 L.toNat)) ∧
      (∀ bytes, s.par.litExtCheck = .exact → expand (s.inp.readBytes pos (s.inLen - pos)) = some bytes →
        bytes.length = L.toNat → t.regs.err = none)

/-- R154, R190, R195, R196: COMPRESS writes a stream of the header `varint(n)` and opcodes that expand to the input, within the bound of R192, and leaves the rest of OUT and IN as they were. -/
def Obligations.CompressWritesAStreamOfItsInput : Prop :=
  ∀ s : State, s.turns = [] → s.engine = .compress .start → s.inLen ≤ s.inSize →
    maxCompressedLength s.inLen ≤ s.outSize →
    ∃ k t, Host.Core.run Sys2Proof.core k s = .next t ∧ t.engine = .idle ∧ t.regs.done = true ∧ t.regs.err = none ∧
      t.regs.hdrLen = s.regs.inLen ∧ t.inp = s.inp ∧ t.outLost = s.outLost ∧ t.regs.outLen.toNat ≤ maxCompressedLength s.inLen ∧
      StreamHolds t t.regs.outLen.toNat s.regs.inLen s.inLen ∧
      (∀ a, t.regs.outLen.toNat ≤ a → t.out.read a = s.out.read a)

/-- R195 (a): DECOMPRESS applied to the bytes COMPRESS wrote reproduces its input, on any instance whose spaces and cap admit it, under every setting of the parameters. -/
def Obligations.RoundTrip : Prop :=
  ∀ (s t u : State) (k : Nat), s.turns = [] → s.engine = .compress .start → s.inLen ≤ s.inSize →
    maxCompressedLength s.inLen ≤ s.outSize → Host.Core.run Sys2Proof.core k s = .next t → t.engine = .idle →
    u.turns = [] → u.engine = .decompress .start → u.regs.inLen = t.regs.outLen → u.inLen ≤ u.inSize →
    (∀ a, a < u.inLen → u.inp.read a = t.out.read a) → s.inLen ≤ u.outSize →
    (u.regs.maxlenEn = true → s.inLen ≤ u.regs.maxLen.toNat) →
    ∃ j v, Host.Core.run Sys2Proof.core j u = .next v ∧ v.engine = .idle ∧ v.regs.err = none ∧
      v.regs.outLen = s.regs.inLen ∧ ∀ a, a < s.inLen → v.out.read a = s.inp.read a

/-- R41, R66, R220, R272: the result of DECOMPRESS depends on the registers, the parameters and the bytes of IN below IN_LEN alone: not on OUT, on T or on a working register before the command. -/
def Obligations.DecompressDependsOnItsInputOnly : Prop :=
  ∀ (s s' : State) (k : Nat) (t : State), s.turns = [] → s'.turns = [] →
    s.engine = .decompress .start → s'.engine = .decompress .start → s'.regs = s.regs → s'.par = s.par →
    (∀ a, a < s.inLen → s'.inp.read a = s.inp.read a) → Host.Core.run Sys2Proof.core k s = .next t →
    ∃ t', Host.Core.run Sys2Proof.core k s' = .next t' ∧ t'.regs = t.regs ∧ t'.engine = t.engine ∧
      (t.engine = .idle → t.regs.err = none → ∀ a, a < t.regs.outLen.toNat → t'.out.read a = t.out.read a)

/-- R41, R195 (d), R272: the result of COMPRESS depends on the registers, the parameters and the bytes of IN below IN_LEN alone: not on T, on OUT or on a working register before the command. -/
def Obligations.CompressDependsOnItsInputOnly : Prop :=
  ∀ (s s' : State) (k : Nat) (t : State), s.turns = [] → s'.turns = [] →
    s.engine = .compress .start → s'.engine = .compress .start → s'.regs = s.regs → s'.par = s.par →
    (∀ a, a < s.inLen → s'.inp.read a = s.inp.read a) → Host.Core.run Sys2Proof.core k s = .next t →
    ∃ t', Host.Core.run Sys2Proof.core k s' = .next t' ∧ t'.regs = t.regs ∧ t'.engine = t.engine ∧
      (t.engine = .idle → t.regs.err = none → ∀ a, a < t.regs.outLen.toNat → t'.out.read a = t.out.read a)

/-- R132, R259: a step of one instance leaves every other instance as it is. -/
def Obligations.InstancesShareNothing : Prop :=
  ∀ (y z : System) (i : Fin y.cores.length), y.stepAt i = .next z →
    z.cores.length = y.cores.length ∧ (∀ j, j ≠ i.val → z.cores[j]? = y.cores[j]?) ∧
    ∃ t, step (y.cores.get i) = .next t ∧ z.cores[i.val]? = some t
end

