-- ==== Sys2Proof/Laws/Memory.lean ====
section
/-! SUPPORT. The laws of the sparse lists, of the byte spaces and of the hash table: what a read gives after a write, and that every operation keeps the canonical form. -/

namespace Sys2Proof.Machine

/-! ## Sparse lists -/

theorem lookup_insertCell {α : Type} (cells : List (Nat × α)) (k k' : Nat) (v : α) :
    lookup (insertCell cells k v) k' = if k' = k then some v else lookup cells k' := by
  induction cells with
  | nil => simp [insertCell, lookup]
  | cons cell rest ih =>
    obtain ⟨a, w⟩ := cell
    simp only [insertCell]
    split
    · simp [lookup]
    · split
      · subst k
        by_cases h : k' = a <;> simp [lookup, h]
      · simp only [lookup, ih]
        by_cases h : k' = a
        · subst h
          simp [Ne.symm ‹¬k = k'›]
        · simp [h]

theorem lookup_filter {α : Type} (keep : Nat → Bool) (cells : List (Nat × α)) (k : Nat) :
    lookup (cells.filter fun cell => keep cell.1) k = if keep k then lookup cells k else none := by
  induction cells with
  | nil => simp [lookup]
  | cons cell rest ih =>
    obtain ⟨a, w⟩ := cell
    by_cases hk : k = a
    · subst hk
      by_cases hkeep : keep k <;> simp [hkeep, lookup, ih]
    · by_cases hkeep : keep a <;> simp [hkeep, lookup, ih, hk]

theorem lookup_eraseCell {α : Type} (cells : List (Nat × α)) (k k' : Nat) :
    lookup (eraseCell cells k) k' = if k' = k then none else lookup cells k' := by
  rw [eraseCell, lookup_filter (fun a => decide (a ≠ k))]
  by_cases h : k' = k <;> simp [h]

theorem lookup_cellsFrom {α : Type} (cells : List (Nat × α)) (n k : Nat) :
    lookup (cellsFrom cells n) k = if n ≤ k then lookup cells k else none := by
  rw [cellsFrom, lookup_filter (fun a => decide (n ≤ a))]
  by_cases h : n ≤ k <;> simp [h]

/-- The canonical order, said with the library's predicate. -/
theorem rising_iff_pairwise {α : Type} (cells : List (Nat × α)) :
    rising cells = true ↔ cells.Pairwise fun a b => a.1 < b.1 := by
  induction cells with
  | nil => simp [rising]
  | cons a rest ih =>
    cases rest with
    | nil => simp [rising]
    | cons b rest =>
      rw [rising, Bool.and_eq_true, ih, decide_eq_true_iff]
      constructor
      · rintro ⟨hab, hrest⟩
        refine List.pairwise_cons.mpr ⟨fun c hc => ?_, hrest⟩
        rcases List.mem_cons.mp hc with rfl | hc
        · exact hab
        · exact lt_trans hab ((List.pairwise_cons.mp hrest).1 c hc)
      · intro h
        obtain ⟨hall, hrest⟩ := List.pairwise_cons.mp h
        exact ⟨hall b (by simp), hrest⟩

theorem mem_insertCell {α : Type} (cells : List (Nat × α)) (k : Nat) (v : α) (c : Nat × α)
    (h : c ∈ insertCell cells k v) : c = (k, v) ∨ c ∈ cells := by
  induction cells with
  | nil => simpa [insertCell] using h
  | cons cell rest ih =>
    obtain ⟨a, w⟩ := cell
    simp only [insertCell] at h
    split at h
    · simpa using h
    · split at h
      · rcases List.mem_cons.mp h with h | h
        · exact .inl h
        · exact .inr (List.mem_cons_of_mem _ h)
      · rcases List.mem_cons.mp h with h | h
        · exact .inr (by simp [h])
        · rcases ih h with h | h
          · exact .inl h
          · exact .inr (List.mem_cons_of_mem _ h)

theorem rising_insertCell {α : Type} (cells : List (Nat × α)) (k : Nat) (v : α) (h : rising cells = true) :
    rising (insertCell cells k v) = true := by
  rw [rising_iff_pairwise] at h ⊢
  induction cells with
  | nil => simp [insertCell]
  | cons cell rest ih =>
    obtain ⟨a, w⟩ := cell
    obtain ⟨hhead, hrest⟩ := List.pairwise_cons.mp h
    simp only [insertCell]
    split
    · refine List.pairwise_cons.mpr ⟨?_, h⟩
      intro c hc
      rcases List.mem_cons.mp hc with rfl | hc
      · assumption
      · exact lt_trans ‹k < a› (hhead c hc)
    · split
      · subst k
        exact List.pairwise_cons.mpr ⟨hhead, hrest⟩
      · refine List.pairwise_cons.mpr ⟨?_, ih hrest⟩
        intro c hc
        rcases mem_insertCell rest k v c hc with rfl | hc
        · show a < k
          omega
        · exact hhead c hc

theorem rising_filter {α : Type} (keep : Nat × α → Bool) (cells : List (Nat × α)) (h : rising cells = true) :
    rising (cells.filter keep) = true := by
  rw [rising_iff_pairwise] at h ⊢
  exact h.filter keep

/-! ## Byte spaces -/

theorem Memory.read_write (m : Memory) (a : Nat) (b : Byte) (a' : Nat) :
    (m.write a b).read a' = if a' = a then b else m.read a' := by
  simp only [Memory.read, Memory.known, Memory.write, Memory.unlisted, lookup_insertCell]
  split <;> simp

/-- Bytes written from `a` on: the written list inside, the old bytes outside. -/
theorem Memory.read_writeBytes (bs : List Byte) (m : Memory) (a a' : Nat) :
    (m.writeBytes a bs).read a' = if a ≤ a' ∧ a' < a + bs.length then bs.getD (a' - a) 0#8 else m.read a' := by
  induction bs generalizing m a with
  | nil =>
    have h : ¬(a ≤ a' ∧ a' < a + 0) := by omega
    simp only [Memory.writeBytes, List.length_nil, h, if_false]
  | cons b bs ih =>
    rw [Memory.writeBytes, ih, Memory.read_write, List.length_cons]
    by_cases h1 : a' = a
    · subst h1
      rw [if_neg (by omega), if_pos rfl, if_pos (by omega)]
      simp
    · rw [if_neg h1]
      by_cases h2 : a + 1 ≤ a' ∧ a' < a + 1 + bs.length
      · obtain ⟨k, hk⟩ : ∃ k, a' - a = k + 1 := ⟨a' - a - 1, by omega⟩
        rw [if_pos h2, if_pos (by omega), hk, show a' - (a + 1) = k by omega]
        simp
      · rw [if_neg h2, if_neg (by omega)]

@[simp] theorem Memory.length_readBytes (m : Memory) (n a : Nat) : (m.readBytes a n).length = n := by
  induction n generalizing a with
  | zero => rfl
  | succ n ih => simp [Memory.readBytes, ih]

theorem Memory.getD_readBytes (m : Memory) (n a i : Nat) (h : i < n) :
    (m.readBytes a n).getD i 0#8 = m.read (a + i) := by
  induction n generalizing a i with
  | zero => omega
  | succ n ih =>
    cases i with
    | zero => simp [Memory.readBytes]
    | succ i =>
      have := ih (a + 1) i (by omega)
      simpa [Memory.readBytes, Nat.add_assoc, Nat.add_comm 1 i] using this

theorem Memory.readBytes_append (m : Memory) (n k a : Nat) :
    m.readBytes a (n + k) = m.readBytes a n ++ m.readBytes (a + n) k := by
  induction n generalizing a with
  | zero => simp [Memory.readBytes]
  | succ n ih =>
    rw [show n + 1 + k = (n + k) + 1 by omega, Memory.readBytes, ih (a + 1), Memory.readBytes,
      show a + 1 + n = a + (n + 1) by omega, List.cons_append]

theorem Memory.readBytes_congr (m m' : Memory) (n a : Nat) (h : ∀ i, i < n → m.read (a + i) = m'.read (a + i)) :
    m.readBytes a n = m'.readBytes a n := by
  induction n generalizing a with
  | zero => rfl
  | succ n ih =>
    rw [Memory.readBytes, Memory.readBytes, ih (a + 1) (fun i hi => by
      have := h (i + 1) (by omega)
      rwa [show a + (i + 1) = a + 1 + i by omega] at this)]
    have := h 0 (by omega)
    simp only [Nat.add_zero] at this
    rw [this]

theorem Memory.wf_iff (m : Memory) (size : Nat) :
    m.wf size = true ↔ rising m.cells = true ∧ ∀ cell ∈ m.cells, cell.1 < size := by
  simp [Memory.wf]

theorem Memory.wf_write (m : Memory) (size a : Nat) (b : Byte) (h : m.wf size = true) (ha : a < size) :
    (m.write a b).wf size = true := by
  rw [Memory.wf_iff] at h ⊢
  refine ⟨rising_insertCell _ _ _ h.1, fun cell hc => ?_⟩
  rcases mem_insertCell _ _ _ _ hc with rfl | hc
  · exact ha
  · exact h.2 cell hc

theorem Memory.wf_writeBytes (bs : List Byte) (m : Memory) (size a : Nat) (h : m.wf size = true)
    (ha : a + bs.length ≤ size) : (m.writeBytes a bs).wf size = true := by
  induction bs generalizing m a with
  | nil => exact h
  | cons b bs ih =>
    simp only [List.length_cons] at ha
    exact ih _ _ (Memory.wf_write m size a b h (by omega)) (by omega)

theorem Memory.wf_moveFrom (inp : Memory) (n : Nat) (out : Memory) (size src dst : Nat) (h : out.wf size = true)
    (hd : dst + n ≤ size) : (inp.moveFrom src dst n out).wf size = true := by
  induction n generalizing out src dst with
  | zero => exact h
  | succ n ih => exact ih _ _ _ (Memory.wf_write out size dst _ h (by omega)) (by omega)

theorem Memory.wf_repeatBack (off n : Nat) (out : Memory) (size dst : Nat) (h : out.wf size = true)
    (hd : dst + n ≤ size) : (Memory.repeatBack off dst n out).wf size = true := by
  induction n generalizing out dst with
  | zero => exact h
  | succ n ih => exact ih _ _ (Memory.wf_write out size dst _ h (by omega)) (by omega)

@[simp] theorem Memory.wf_unspecified (draw size : Nat) : (Memory.unspecified draw).wf size = true := rfl

/-- A byte below the moved range or past it keeps its value (R206). -/
theorem Memory.read_moveFrom_outside (inp : Memory) (n : Nat) (out : Memory) (src dst a : Nat)
    (h : a < dst ∨ dst + n ≤ a) : (inp.moveFrom src dst n out).read a = out.read a := by
  induction n generalizing out src dst with
  | zero => rfl
  | succ n ih =>
    rw [Memory.moveFrom, ih _ _ _ (by omega), Memory.read_write, if_neg (by omega)]

/-- A byte below the copied range or past it keeps its value (R213). -/
theorem Memory.read_repeatBack_outside (off n : Nat) (out : Memory) (dst a : Nat) (h : a < dst ∨ dst + n ≤ a) :
    (Memory.repeatBack off dst n out).read a = out.read a := by
  induction n generalizing out dst with
  | zero => rfl
  | succ n ih =>
    rw [Memory.repeatBack, ih _ _ (by omega), Memory.read_write, if_neg (by omega)]

/-! ## The hash table -/

theorem Table.get_set (t : Table) (i j : Nat) (v : Half) : (t.set i v).get j = if j = i then v else t.get j := by
  unfold Table.set
  split
  · rename_i hv
    simp only [Table.get, lookup_eraseCell]
    by_cases h : j = i
    · subst h
      simp [hv.1, hv.2]
    · simp [h]
  · simp only [Table.get, lookup_insertCell]
    by_cases h : j = i <;> simp [h]

theorem Table.zeroed_set (t : Table) (i : Nat) (v : Half) : (t.set i v).zeroed = t.zeroed := by
  unfold Table.set
  split <;> rfl

theorem Table.wf_iff (t : Table) : t.wf = true ↔ rising t.cells = true ∧
    (∀ cell ∈ t.cells, cell.1 < Config.tableEntries ∧ ¬(cell.2 = 0#16 ∧ cell.1 < t.zeroed)) ∧
    t.zeroed ≤ Config.tableEntries := by
  simp only [Table.wf, Bool.and_eq_true, List.all_eq_true, decide_eq_true_eq, Bool.not_eq_true',
    Bool.and_eq_false_iff, decide_eq_false_iff_not, and_assoc]
  constructor
  · rintro ⟨h1, h2, h3⟩
    exact ⟨h1, fun c hc => ⟨(h2 c hc).1, by have := (h2 c hc).2; tauto⟩, h3⟩
  · rintro ⟨h1, h2, h3⟩
    exact ⟨h1, fun c hc => ⟨(h2 c hc).1, by have := (h2 c hc).2; tauto⟩, h3⟩

theorem Table.wf_set (t : Table) (i : Nat) (v : Half) (h : t.wf = true) (hi : i < Config.tableEntries) :
    (t.set i v).wf = true := by
  rw [Table.wf_iff] at h
  obtain ⟨hr, hc, hz⟩ := h
  rw [Table.wf_iff, Table.zeroed_set]
  unfold Table.set
  split
  · exact ⟨rising_filter _ _ hr, fun c hm => hc c (List.mem_of_mem_filter hm), hz⟩
  · rename_i hv
    refine ⟨rising_insertCell _ _ _ hr, fun c hm => ?_, hz⟩
    rcases mem_insertCell _ _ _ _ hm with rfl | hm
    · exact ⟨hi, hv⟩
    · exact hc c hm

theorem Table.wf_clear (t : Table) (n : Nat) (h : t.wf = true) (hn : n ≤ Config.tableEntries) :
    (t.clear n).wf = true := by
  rw [Table.wf_iff] at h ⊢
  obtain ⟨hr, hc, hz⟩ := h
  refine ⟨rising_filter _ _ hr, fun c hm => ?_, Nat.max_le.mpr ⟨hz, hn⟩⟩
  simp only [Table.clear, cellsFrom, List.mem_filter, decide_eq_true_eq] at hm
  have := hc c hm.1
  refine ⟨this.1, fun hcon => this.2 ⟨hcon.1, ?_⟩⟩
  have hlt : c.1 < max t.zeroed n := hcon.2
  omega

/-- The storages right after reset have their canonical form, whatever the parameters (R272). -/
theorem wf_resetOf (p : Params) (draws : Nat) (turns : List Turn) :
    (State.resetOf p draws turns).inp.wf p.inSize.toNat = true ∧
      (State.resetOf p draws turns).out.wf p.outSize.toNat = true ∧ (State.resetOf p draws turns).table.wf = true :=
  ⟨rfl, rfl, rfl⟩

end Sys2Proof.Machine
end

