-- ==== Sys2Proof/Laws/State.lean ====
section
/-! SUPPORT. What each update of the state leaves in each field, true by definition: later proofs cite these and do not unfold the updates. -/

namespace Sys2Proof.Machine

/-! ## `raiseError` (R244) -/
section
variable (e : Error) (s : State)
@[simp] theorem raiseError_par : (raiseError e s).par = s.par := rfl
@[simp] theorem raiseError_engine : (raiseError e s).engine = .idle := rfl
@[simp] theorem raiseError_enc : (raiseError e s).enc = s.enc := rfl
@[simp] theorem raiseError_dec : (raiseError e s).dec = s.dec := rfl
@[simp] theorem raiseError_table : (raiseError e s).table = s.table := rfl
@[simp] theorem raiseError_inp : (raiseError e s).inp = s.inp := rfl
@[simp] theorem raiseError_out : (raiseError e s).out = s.out := rfl
@[simp] theorem raiseError_outLost : (raiseError e s).outLost = true := rfl
@[simp] theorem raiseError_draws : (raiseError e s).draws = s.draws := rfl
@[simp] theorem raiseError_turns : (raiseError e s).turns = s.turns := rfl
@[simp] theorem raiseError_rdata : (raiseError e s).rdata = s.rdata := rfl
@[simp] theorem raiseError_op : (raiseError e s).regs.op = s.regs.op := rfl
@[simp] theorem raiseError_maxlenEn : (raiseError e s).regs.maxlenEn = s.regs.maxlenEn := rfl
@[simp] theorem raiseError_ie : (raiseError e s).regs.ie = s.regs.ie := rfl
@[simp] theorem raiseError_done : (raiseError e s).regs.done = true := rfl
@[simp] theorem raiseError_err : (raiseError e s).regs.err = some e := rfl
@[simp] theorem raiseError_inLen : (raiseError e s).regs.inLen = s.regs.inLen := rfl
@[simp] theorem raiseError_maxLen : (raiseError e s).regs.maxLen = s.regs.maxLen := rfl
@[simp] theorem raiseError_outLen : (raiseError e s).regs.outLen = 0#32 := rfl
@[simp] theorem raiseError_hdrLen : (raiseError e s).regs.hdrLen = s.regs.hdrLen := rfl
@[simp] theorem raiseError_errPos : (raiseError e s).regs.errPos = errPosOf e s := rfl
end

/-! ## `finish` (R250) -/
section
variable (s : State)
@[simp] theorem finish_par : (finish s).par = s.par := rfl
@[simp] theorem finish_engine : (finish s).engine = .idle := rfl
@[simp] theorem finish_enc : (finish s).enc = s.enc := rfl
@[simp] theorem finish_dec : (finish s).dec = s.dec := rfl
@[simp] theorem finish_table : (finish s).table = s.table := rfl
@[simp] theorem finish_inp : (finish s).inp = s.inp := rfl
@[simp] theorem finish_out : (finish s).out = s.out := rfl
@[simp] theorem finish_outLost : (finish s).outLost = s.outLost := rfl
@[simp] theorem finish_draws : (finish s).draws = s.draws := rfl
@[simp] theorem finish_turns : (finish s).turns = s.turns := rfl
@[simp] theorem finish_rdata : (finish s).rdata = s.rdata := rfl
@[simp] theorem finish_op : (finish s).regs.op = s.regs.op := rfl
@[simp] theorem finish_maxlenEn : (finish s).regs.maxlenEn = s.regs.maxlenEn := rfl
@[simp] theorem finish_ie : (finish s).regs.ie = s.regs.ie := rfl
@[simp] theorem finish_done : (finish s).regs.done = true := rfl
@[simp] theorem finish_err : (finish s).regs.err = none := rfl
@[simp] theorem finish_inLen : (finish s).regs.inLen = s.regs.inLen := rfl
@[simp] theorem finish_maxLen : (finish s).regs.maxLen = s.regs.maxLen := rfl
@[simp] theorem finish_outLen : (finish s).regs.outLen = s.regs.outLen := rfl
@[simp] theorem finish_hdrLen : (finish s).regs.hdrLen = s.regs.hdrLen := rfl
@[simp] theorem finish_errPos : (finish s).regs.errPos = 0#32 := rfl
end

/-! ## `goCompress`, `startExtend`, `resumeSearch`, `leaveBlock` -/
section
variable (place : CompressAt) (s : State)
@[simp] theorem goCompress_par : (goCompress place s).par = s.par := rfl
@[simp] theorem goCompress_engine : (goCompress place s).engine = .compress place := rfl
@[simp] theorem goCompress_regs : (goCompress place s).regs = s.regs := rfl
@[simp] theorem goCompress_enc : (goCompress place s).enc = s.enc := rfl
@[simp] theorem goCompress_dec : (goCompress place s).dec = s.dec := rfl
@[simp] theorem goCompress_table : (goCompress place s).table = s.table := rfl
@[simp] theorem goCompress_inp : (goCompress place s).inp = s.inp := rfl
@[simp] theorem goCompress_out : (goCompress place s).out = s.out := rfl
@[simp] theorem goCompress_outLost : (goCompress place s).outLost = s.outLost := rfl
@[simp] theorem goCompress_draws : (goCompress place s).draws = s.draws := rfl
@[simp] theorem goCompress_turns : (goCompress place s).turns = s.turns := rfl
@[simp] theorem goCompress_rdata : (goCompress place s).rdata = s.rdata := rfl
end

/-! ## `enterOpcode` (R204) -/
section
variable (s : State)
@[simp] theorem enterOpcode_par : (enterOpcode s).par = s.par := rfl
@[simp] theorem enterOpcode_regs : (enterOpcode s).regs = s.regs := rfl
@[simp] theorem enterOpcode_engine : (enterOpcode s).engine = s.engine := rfl
@[simp] theorem enterOpcode_enc : (enterOpcode s).enc = s.enc := rfl
@[simp] theorem enterOpcode_table : (enterOpcode s).table = s.table := rfl
@[simp] theorem enterOpcode_inp : (enterOpcode s).inp = s.inp := rfl
@[simp] theorem enterOpcode_out : (enterOpcode s).out = s.out := rfl
@[simp] theorem enterOpcode_outLost : (enterOpcode s).outLost = s.outLost := rfl
@[simp] theorem enterOpcode_draws : (enterOpcode s).draws = s.draws := rfl
@[simp] theorem enterOpcode_turns : (enterOpcode s).turns = s.turns := rfl
@[simp] theorem enterOpcode_rdata : (enterOpcode s).rdata = s.rdata := rfl
@[simp] theorem enterOpcode_pos : (enterOpcode s).dec.pos = s.dec.pos + 1 := rfl
@[simp] theorem enterOpcode_tagPos : (enterOpcode s).dec.tagPos = s.dec.pos := rfl
@[simp] theorem enterOpcode_outPos : (enterOpcode s).dec.outPos = s.dec.outPos := rfl
@[simp] theorem enterOpcode_declared : (enterOpcode s).dec.declared = s.dec.declared := rfl
@[simp] theorem enterOpcode_c : (enterOpcode s).dec.c = s.inp.read s.dec.pos := rfl
end

/-! ## `setCtrl`, `deliver` (R21, R263) -/
section
variable (v : Word) (s : State)
@[simp] theorem setCtrl_op : (setCtrl v s).regs.op = writtenOp v := rfl
@[simp] theorem setCtrl_maxlenEn : (setCtrl v s).regs.maxlenEn = v.getLsbD 2 := rfl
@[simp] theorem setCtrl_ie : (setCtrl v s).regs.ie = v.getLsbD 3 := rfl
@[simp] theorem setCtrl_done : (setCtrl v s).regs.done = s.regs.done := rfl
@[simp] theorem setCtrl_err : (setCtrl v s).regs.err = s.regs.err := rfl
@[simp] theorem setCtrl_inLen : (setCtrl v s).regs.inLen = s.regs.inLen := rfl
@[simp] theorem setCtrl_maxLen : (setCtrl v s).regs.maxLen = s.regs.maxLen := rfl
@[simp] theorem setCtrl_outLen : (setCtrl v s).regs.outLen = s.regs.outLen := rfl
@[simp] theorem setCtrl_hdrLen : (setCtrl v s).regs.hdrLen = s.regs.hdrLen := rfl
@[simp] theorem setCtrl_errPos : (setCtrl v s).regs.errPos = s.regs.errPos := rfl
@[simp] theorem setCtrl_engine : (setCtrl v s).engine = s.engine := rfl
@[simp] theorem setCtrl_par : (setCtrl v s).par = s.par := rfl
@[simp] theorem setCtrl_enc : (setCtrl v s).enc = s.enc := rfl
@[simp] theorem setCtrl_dec : (setCtrl v s).dec = s.dec := rfl
@[simp] theorem setCtrl_table : (setCtrl v s).table = s.table := rfl
@[simp] theorem setCtrl_inp : (setCtrl v s).inp = s.inp := rfl
@[simp] theorem setCtrl_out : (setCtrl v s).out = s.out := rfl
@[simp] theorem setCtrl_outLost : (setCtrl v s).outLost = s.outLost := rfl
@[simp] theorem setCtrl_draws : (setCtrl v s).draws = s.draws := rfl
@[simp] theorem setCtrl_turns : (setCtrl v s).turns = s.turns := rfl
@[simp] theorem setCtrl_rdata : (setCtrl v s).rdata = s.rdata := rfl
@[simp] theorem deliver_enc : (deliver v s).enc = s.enc := rfl
@[simp] theorem deliver_dec : (deliver v s).dec = s.dec := rfl
@[simp] theorem deliver_table : (deliver v s).table = s.table := rfl
@[simp] theorem deliver_outLost : (deliver v s).outLost = s.outLost := rfl
@[simp] theorem deliver_draws : (deliver v s).draws = s.draws := rfl
@[simp] theorem deliver_turns : (deliver v s).turns = s.turns := rfl
@[simp] theorem deliver_rdata : (deliver v s).rdata = v := rfl
@[simp] theorem deliver_regs : (deliver v s).regs = s.regs := rfl
@[simp] theorem deliver_engine : (deliver v s).engine = s.engine := rfl
@[simp] theorem deliver_inp : (deliver v s).inp = s.inp := rfl
@[simp] theorem deliver_out : (deliver v s).out = s.out := rfl
@[simp] theorem deliver_par : (deliver v s).par = s.par := rfl
end

/-! ## `insertAt`, `probeAt` (R126, R127) -/
section
variable (p : Nat) (s : State)
@[simp] theorem insertAt_par : (insertAt p s).par = s.par := rfl
@[simp] theorem insertAt_regs : (insertAt p s).regs = s.regs := rfl
@[simp] theorem insertAt_engine : (insertAt p s).engine = s.engine := rfl
@[simp] theorem insertAt_enc : (insertAt p s).enc = s.enc := rfl
@[simp] theorem insertAt_dec : (insertAt p s).dec = s.dec := rfl
@[simp] theorem insertAt_inp : (insertAt p s).inp = s.inp := rfl
@[simp] theorem insertAt_out : (insertAt p s).out = s.out := rfl
@[simp] theorem insertAt_table :
    (insertAt p s).table = s.table.set (hashAt s p) (BitVec.ofNat 16 (p - s.enc.blockStart)) := rfl
@[simp] theorem probeAt_par : (probeAt p s).par = s.par := rfl
@[simp] theorem probeAt_regs : (probeAt p s).regs = s.regs := rfl
@[simp] theorem probeAt_engine : (probeAt p s).engine = s.engine := rfl
@[simp] theorem probeAt_enc :
    (probeAt p s).enc = { s.enc with candidate := s.enc.blockStart + (s.table.get (hashAt s p)).toNat } := rfl
@[simp] theorem probeAt_dec : (probeAt p s).dec = s.dec := rfl
@[simp] theorem probeAt_inp : (probeAt p s).inp = s.inp := rfl
@[simp] theorem probeAt_out : (probeAt p s).out = s.out := rfl
@[simp] theorem probeAt_table :
    (probeAt p s).table = s.table.set (hashAt s p) (BitVec.ofNat 16 (p - s.enc.blockStart)) := rfl
end

/-! ## `settleOut` (log 7): every field but OUT and its marks stands -/
section
variable (s : State)
@[simp] theorem settleOut_par : (settleOut s).par = s.par := by unfold settleOut; split <;> rfl
@[simp] theorem settleOut_regs : (settleOut s).regs = s.regs := by unfold settleOut; split <;> rfl
@[simp] theorem settleOut_engine : (settleOut s).engine = s.engine := by unfold settleOut; split <;> rfl
@[simp] theorem settleOut_enc : (settleOut s).enc = s.enc := by unfold settleOut; split <;> rfl
@[simp] theorem settleOut_dec : (settleOut s).dec = s.dec := by unfold settleOut; split <;> rfl
@[simp] theorem settleOut_table : (settleOut s).table = s.table := by unfold settleOut; split <;> rfl
@[simp] theorem settleOut_inp : (settleOut s).inp = s.inp := by unfold settleOut; split <;> rfl
@[simp] theorem settleOut_turns : (settleOut s).turns = s.turns := by unfold settleOut; split <;> rfl
@[simp] theorem settleOut_rdata : (settleOut s).rdata = s.rdata := by unfold settleOut; split <;> rfl
theorem settleOut_outLost : (settleOut s).outLost = false := by
  unfold settleOut; split <;> simp_all
end

end Sys2Proof.Machine
end

