-- ==== Sys2Proof/Laws/Ops.lean ====
section
/-! SUPPORT. For each shared operation, once, everything it can do: if it answers next, then one of the listed cases holds. Later proofs cite these and do not unfold the operations. -/

namespace Sys2Proof.Machine

theorem andThen_next {r : Result} {f : State → Result} {t : State} :
    andThen r f = .next t ↔ ∃ u, r = .next u ∧ f u = .next t := by
  cases r <;> simp [andThen]

theorem withinIn_next {s : State} {a n : Nat} {r : Result} {t : State} :
    withinIn s a n r = .next t ↔ a + n ≤ s.inSize ∧ r = .next t := by
  unfold withinIn; split <;> simp_all

theorem withinOut_next {s : State} {a n : Nat} {r : Result} {t : State} :
    withinOut s a n r = .next t ↔ a + n ≤ s.outSize ∧ r = .next t := by
  unfold withinOut; split <;> simp_all

theorem whileIdle_next {s : State} {r : Result} {t : State} :
    whileIdle s r = .next t ↔ s.busy = false ∧ r = .next t := by
  unfold whileIdle; split <;> simp_all

theorem withinRegisters_next {s : State} {addr bytes : Nat} {r : Result} {t : State} :
    withinRegisters s addr bytes r = .next t ↔
      s.par.regBase ≤ addr ∧ addr < s.par.regBase + registerBlockBytes ∧ bytes = 4 ∧ addr % 4 = 0 ∧ r = .next t := by
  unfold withinRegisters
  split
  · rename_i h
    constructor
    · intro hc; cases hc
    · rintro ⟨h1, h2, -⟩; omega
  · rename_i h
    split
    · rename_i h2
      constructor
      · intro hr; exact ⟨by omega, by omega, h2.1, h2.2, hr⟩
      · exact fun hr => hr.2.2.2.2
    · rename_i h2
      constructor
      · intro hc; cases hc
      · exact fun hr => absurd ⟨hr.2.2.1, hr.2.2.2.1⟩ h2

theorem withinTable_next {s : State} {p : Nat} {r : Result} {t : State} :
    withinTable s p r = .next t ↔ p + 4 ≤ s.inSize ∧ hashAt s p < Config.tableEntries ∧ r = .next t := by
  unfold withinTable
  rw [withinIn_next]
  split <;> simp_all

/-- What `Emit` of a list of bytes can do (R13). -/
theorem emit_next {bytes : List Byte} {s t : State} :
    emit bytes s = .next t ↔ s.enc.op + bytes.length ≤ s.outSize ∧
      t = { s with out := s.out.writeBytes s.enc.op bytes, enc := { s.enc with op := s.enc.op + bytes.length } } := by
  unfold emit
  rw [withinOut_next]
  simp [eq_comm]

/-- What EMIT_LITERAL can do (R170). -/
theorem emitLiteral_next {src n : Nat} {s t : State} :
    emitLiteral src n s = .next t ↔ src + n ≤ s.inSize ∧
      emit (literalHeader s.par.litExtWidth n ++ s.inp.readBytes src n) s = .next t := by
  unfold emitLiteral
  rw [withinIn_next]

/-- What INSERT can do (R127). -/
theorem tableInsert_next {p : Nat} {s t : State} :
    tableInsert p s = .next t ↔ p + 4 ≤ s.inSize ∧ hashAt s p < Config.tableEntries ∧ t = insertAt p s := by
  unfold tableInsert
  rw [withinTable_next]
  simp [eq_comm]

/-- What PROBE can do (R126). -/
theorem tableProbe_next {p : Nat} {s t : State} :
    tableProbe p s = .next t ↔ p + 4 ≤ s.inSize ∧ hashAt s p < Config.tableEntries ∧ t = probeAt p s := by
  unfold tableProbe
  rw [withinTable_next]
  simp [eq_comm]

/-- What LiteralBody can do (R206). -/
theorem literalBody_next {len : Nat} {s t : State} (h : literalBody len s = .next t) :
    (s.inLen < s.dec.pos + len ∧ t = raiseError .truncLitData s) ∨
    (s.dec.pos + len ≤ s.inLen ∧ s.dec.declared < s.dec.outPos + len ∧ t = raiseError .outOverflow s) ∨
    (s.dec.pos + len ≤ s.inLen ∧ s.dec.outPos + len ≤ s.dec.declared ∧
      s.dec.pos + len ≤ s.inSize ∧ s.dec.outPos + len ≤ s.outSize ∧
      t = { s with
            out := s.inp.moveFrom s.dec.pos s.dec.outPos len s.out
            dec := { s.dec with len := len, pos := s.dec.pos + len, outPos := s.dec.outPos + len } }) := by
  unfold literalBody at h
  split at h
  · exact .inl ⟨‹_›, by simpa [eq_comm] using h⟩
  · split at h
    · exact .inr (.inl ⟨by omega, ‹_›, by simpa [eq_comm] using h⟩)
    · rw [withinIn_next, withinOut_next] at h
      obtain ⟨h1, h2, h3⟩ := h
      exact .inr (.inr ⟨by omega, by omega, h1, h2, by simpa [eq_comm] using h3⟩)

/-- What LITX(k) can do (R207, R209 to R212). -/
theorem extendedLiteral_next {k len : Nat} {s t : State} (h : extendedLiteral k len s = .next t) :
    (s.inLen < s.dec.pos + extNeed s.par.litExtCheck k ∧ t = raiseError .truncLitLen s) ∨
    (s.dec.pos + extNeed s.par.litExtCheck k ≤ s.inLen ∧
      literalBody len { s with dec := { s.dec with k := k, pos := s.dec.pos + k } } = .next t) := by
  unfold extendedLiteral at h
  split at h
  · exact .inl ⟨‹_›, by simpa [eq_comm] using h⟩
  · exact .inr ⟨by omega, h⟩

/-- What CopyBody can do (R213). -/
theorem copyBody_next {len off : Nat} {s t : State} (h : copyBody len off s = .next t) :
    (off = 0 ∧ t = raiseError .offsetZero s) ∨
    (1 ≤ off ∧ s.dec.outPos < off ∧ t = raiseError .offsetTooFar s) ∨
    (1 ≤ off ∧ off ≤ s.dec.outPos ∧ s.dec.declared < s.dec.outPos + len ∧ t = raiseError .outOverflow s) ∨
    (1 ≤ off ∧ off ≤ s.dec.outPos ∧ s.dec.outPos + len ≤ s.dec.declared ∧ s.dec.outPos + len ≤ s.outSize ∧
      t = { s with
            out := Memory.repeatBack off s.dec.outPos len s.out
            dec := { s.dec with len := len, offset := off, outPos := s.dec.outPos + len } }) := by
  unfold copyBody at h
  split at h
  · exact .inl ⟨‹_›, by simpa [eq_comm] using h⟩
  · split at h
    · exact .inr (.inl ⟨by omega, ‹_›, by simpa [eq_comm] using h⟩)
    · split at h
      · exact .inr (.inr (.inl ⟨by omega, by omega, ‹_›, by simpa [eq_comm] using h⟩))
      · rw [withinOut_next] at h
        exact .inr (.inr (.inr ⟨by omega, by omega, by omega, h.1, by simpa [eq_comm] using h.2⟩))

/-- What a copy opcode can do (R214 to R216). -/
theorem copyOpcode_next {n len off : Nat} {s t : State} (h : copyOpcode n len off s = .next t) :
    (s.inLen < s.dec.pos + n ∧ t = raiseError .truncCopy s) ∨
    (s.dec.pos + n ≤ s.inLen ∧
      copyBody len off { s with dec := { s.dec with pos := s.dec.pos + n } } = .next t) := by
  unfold copyOpcode at h
  split at h
  · exact .inl ⟨‹_›, by simpa [eq_comm] using h⟩
  · exact .inr ⟨by omega, h⟩

/-- What a move of the opcodes leaves alone: the parameters, IN, T, the encoder and the environment's fields. -/
structure OpcodeFrame (s t : State) : Prop where
  par : t.par = s.par
  inp : t.inp = s.inp
  table : t.table = s.table
  enc : t.enc = s.enc
  draws : t.draws = s.draws
  turns : t.turns = s.turns
  rdata : t.rdata = s.rdata

theorem literalBody_frame {len : Nat} {s t : State} (h : literalBody len s = .next t) : OpcodeFrame s t := by
  rcases literalBody_next h with ⟨-, rfl⟩ | ⟨-, -, rfl⟩ | ⟨-, -, -, -, rfl⟩ <;> exact ⟨rfl, rfl, rfl, rfl, rfl, rfl, rfl⟩

theorem copyBody_frame {len off : Nat} {s t : State} (h : copyBody len off s = .next t) : OpcodeFrame s t := by
  rcases copyBody_next h with ⟨-, rfl⟩ | ⟨-, -, rfl⟩ | ⟨-, -, -, rfl⟩ | ⟨-, -, -, -, rfl⟩ <;>
    exact ⟨rfl, rfl, rfl, rfl, rfl, rfl, rfl⟩

/-- The size checks after the header (R202, R203). -/
theorem checkSizes_next {s t : State} (h : checkSizes s = .next t) :
    (s.regs.maxlenEn = true ∧ s.regs.maxLen.toNat < s.dec.declared ∧ t = raiseError .overMaxLen s) ∨
    ((s.regs.maxlenEn = true → s.dec.declared ≤ s.regs.maxLen.toNat) ∧ s.outSize < s.dec.declared ∧
      t = raiseError .overOutSize s) ∨
    ((s.regs.maxlenEn = true → s.dec.declared ≤ s.regs.maxLen.toNat) ∧ s.dec.declared ≤ s.outSize ∧
      t = { s with engine := .decompress .loop, dec := { s.dec with outPos := 0 } }) := by
  unfold checkSizes at h
  split at h
  · rename_i hc
    exact .inl ⟨hc.1, hc.2, by simpa [eq_comm] using h⟩
  · rename_i hc
    have hc' : s.regs.maxlenEn = true → s.dec.declared ≤ s.regs.maxLen.toNat := fun he => by
      by_contra hlt
      exact hc ⟨he, by omega⟩
    split at h
    · exact .inr (.inl ⟨hc', ‹_›, by simpa [eq_comm] using h⟩)
    · exact .inr (.inr ⟨hc', by omega, by simpa [eq_comm] using h⟩)

/-- What one step can be: an engine step with the turn taken, an access of the host, a wait that ends, or a reset. -/
theorem step_cases (s : State) :
    (∃ rest, step s = engineStep { s with turns := rest } ∧ (s.turns = rest ∨ s.turns = .engine :: rest)) ∨
    (∃ a rest, s.turns = .host a :: rest ∧ step s = hostAccess a { s with turns := rest }) ∨
    (∃ rest, step s = .next { s with turns := rest } ∧
      ((s.turns = .waitDone :: rest ∧ s.regs.done = true) ∨ (s.turns = .waitIrq :: rest ∧ s.irq = true))) ∨
    (∃ rest, s.turns = .reset :: rest ∧ step s = .next (resetState { s with turns := rest })) := by
  obtain ⟨par, regs, engine, enc, dec, table, inp, out, lost, draws, turns, rdata⟩ := s
  rcases turns with _ | ⟨turn, rest⟩
  · exact .inl ⟨[], rfl, .inl rfl⟩
  · cases turn with
    | engine => exact .inl ⟨rest, rfl, .inr rfl⟩
    | host a => exact .inr (.inl ⟨a, rest, rfl, rfl⟩)
    | waitDone =>
      by_cases h : regs.done = true
      · exact .inr (.inr (.inl ⟨rest, by simp [step, h], .inl ⟨rfl, h⟩⟩))
      · exact .inl ⟨.waitDone :: rest, by simp [step, h], .inl rfl⟩
    | waitIrq =>
      by_cases h : (regs.done && regs.ie) = true
      · exact .inr (.inr (.inl ⟨rest, by simp only [step, State.irq, h, if_true], .inr ⟨rfl, h⟩⟩))
      · exact .inl ⟨.waitIrq :: rest, by simp only [step, State.irq, h, Bool.false_eq_true, if_false], .inl rfl⟩
    | reset => exact .inr (.inr (.inr ⟨rest, rfl, rfl⟩))

end Sys2Proof.Machine
end

