-- ==== Sys2Proof/Laws/PerInstr.lean ====
section
/-! SUPPORT. Statements about every instruction as syntax, one lemma per constructor. -/

namespace Sys2Proof.Laws.EncodedLength

/-- An opcode's tag and operand bytes are as many as R78 and R79 say: one tag and its operand bytes. -/
def Statement (i : Instr) : Prop := (encode i).length = 1 + i.operandBytes

theorem lit (len : Nat) : Statement (.lit len) := rfl
theorem litx1 (len : Nat) : Statement (.litx1 len) := rfl
theorem litx2 (len : Nat) : Statement (.litx2 len) := rfl
theorem litx3 (len : Nat) : Statement (.litx3 len) := rfl
theorem litx4 (len : Nat) : Statement (.litx4 len) := rfl
theorem copy1 (len off : Nat) : Statement (.copy1 len off) := rfl
theorem copy2 (len off : Nat) : Statement (.copy2 len off) := rfl
theorem copy4 (len off : Nat) : Statement (.copy4 len off) := rfl

end Sys2Proof.Laws.EncodedLength
end

