-- ==== Sys2Proof/Tests/Slice0.lean ====
section
/-! SUPPORT. The model's own tests: ill-formed terms, words written out from the spec, single steps with the results of `95_test_vectors.md`, and a witness for the hypotheses of every statement. -/

open Sys2Proof Sys2Proof.Machine

namespace Sys2Proof.Tests

/-! ## States to test on -/

/-- Does a step answer a next state with a property? -/
def answers (r : Result) (p : State → Bool) : Bool :=
  match r with
  | .next t => p t
  | .fault _ => false
  | .refused _ => false

theorem next_of_answers {r : Result} {p : State → Bool} (h : answers r p = true) : ∃ t, r = .next t := by
  cases r with
  | next t => exact ⟨t, rfl⟩
  | fault e => simp [answers] at h
  | refused e => simp [answers] at h

/-- DECOMPRESS in its opcode loop, at `pos` of a stream, `out` being the output so far and `declared` the length to reach. -/
def decoding (stream : List Byte) (pos : Nat) (out : List Byte) (declared : Nat) : State :=
  let s := State.reset
  { s with
    engine := .decompress .loop
    inp := s.inp.writeBytes 0 stream
    out := s.out.writeBytes 0 out
    regs := { s.regs with op := .decompress, inLen := BitVec.ofNat 32 stream.length, hdrLen := BitVec.ofNat 32 declared }
    dec := { s.dec with pos := pos, outPos := out.length, declared := declared } }

/-- The same just after the fetch of the tag at `pos`. -/
def fetched (stream : List Byte) (pos : Nat) (out : List Byte) (declared : Nat) : State :=
  enterOpcode (decoding stream pos out declared)

/-- A command at its start, IN holding its input. -/
def starting (op : Command) (input : List Byte) : State :=
  let s := State.reset
  { s with
    engine := op.entry
    inp := s.inp.writeBytes 0 input
    regs := { s.regs with op := op, inLen := BitVec.ofNat 32 input.length } }

/-- Twenty times the byte 0x61. -/
def runInput : List Byte := List.replicate 20 0x61#8

/-- Twenty different bytes. -/
def mixedInput : List Byte :=
  [0#8, 1#8, 2#8, 3#8, 4#8, 5#8, 6#8, 7#8, 8#8, 9#8, 10#8, 11#8, 12#8, 13#8, 14#8, 15#8, 16#8, 17#8, 18#8, 19#8]

/-- COMPRESS inside the one block of a 20-byte input that fills IN: TABLE_BITS 4, `ipLimit` 5 (R123, R143), one byte of header written. -/
def compressing (place : CompressAt) (input : List Byte) (ip nextEmit candidate base matched : Nat) : State :=
  let s := starting .compress input
  { s with
    par := { s.par with inSize := 20#32 }
    engine := .compress place
    regs := { s.regs with hdrLen := s.regs.inLen }
    table := s.table.clear 16
    enc := { s.enc with op := 1, blockEnd := 20, ipLimit := 5, ip := ip, nextEmit := nextEmit, candidate := candidate,
                        base := base, skip := 32, matched := matched, tableBits := 4, shift := 28 } }

/-- A state where the host's access is next. -/
def accessing (a : HostAccess) (s : State) : State := { s with turns := [.host a] }

/-! ## Well-formedness: each check refuses a term (R86) -/

theorem test_lit_lengths : (Instr.lit 0).WellFormed = false ∧ (Instr.lit 61).WellFormed = false ∧ (Instr.lit 60).WellFormed = true := by decide
theorem test_litx1_lengths : (Instr.litx1 0).WellFormed = false ∧ (Instr.litx1 257).WellFormed = false ∧ (Instr.litx1 256).WellFormed = true := by decide
theorem test_litx2_lengths : (Instr.litx2 0).WellFormed = false ∧ (Instr.litx2 65537).WellFormed = false ∧ (Instr.litx2 65536).WellFormed = true := by decide
theorem test_litx3_lengths : (Instr.litx3 0).WellFormed = false ∧ (Instr.litx3 16777217).WellFormed = false ∧ (Instr.litx3 16777216).WellFormed = true := by decide
theorem test_litx4_lengths : (Instr.litx4 0).WellFormed = false ∧ (Instr.litx4 4294967297).WellFormed = false ∧ (Instr.litx4 4294967296).WellFormed = true := by decide
theorem test_copy1_operands : (Instr.copy1 3 1).WellFormed = false ∧ (Instr.copy1 12 1).WellFormed = false ∧
    (Instr.copy1 4 2048).WellFormed = false ∧ (Instr.copy1 11 2047).WellFormed = true := by decide
theorem test_copy2_operands : (Instr.copy2 0 1).WellFormed = false ∧ (Instr.copy2 65 1).WellFormed = false ∧
    (Instr.copy2 1 65536).WellFormed = false ∧ (Instr.copy2 64 65535).WellFormed = true := by decide
theorem test_copy4_operands : (Instr.copy4 0 1).WellFormed = false ∧ (Instr.copy4 65 1).WellFormed = false ∧
    (Instr.copy4 1 4294967296).WellFormed = false ∧ (Instr.copy4 64 4294967295).WellFormed = true := by decide
theorem test_params_checked : ({ Config.defaultParams with inSize := 0#32 } : Params).wf = false ∧
    ({ Config.defaultParams with outSize := 0#32 } : Params).wf = false ∧
    ({ Config.defaultParams with regBase := 2 } : Params).wf = false ∧ Config.defaultParams.wf = true := by decide

/-! ## Words written out from the spec -/

-- Source: the encodings of `opcode_table.json`, R73 to R77, bit by bit.
theorem test_word_lit : decode [0b11101100#8] = .ok (.lit 60, []) ∧ decodeTableWord 8 0b00000100 = some (.lit 2) := by decide
theorem test_word_litx1 : decode [0b11110000#8, 0b00111100#8] = .ok (.litx1 61, []) ∧
    decodeTableWord 8 0b11110000 = some (.litx1 1) := by decide
theorem test_word_litx2 : decode [0b11110100#8, 0x34#8, 0x12#8] = .ok (.litx2 0x1235, []) ∧
    decodeTableWord 8 0b11110100 = some (.litx2 1) := by decide
theorem test_word_litx3 : decode [0b11111000#8, 0x56#8, 0x34#8, 0x12#8] = .ok (.litx3 0x123457, []) ∧
    decodeTableWord 8 0b11111000 = some (.litx3 1) := by decide
theorem test_word_litx4 : decode [0b11111100#8, 0x78#8, 0x56#8, 0x34#8, 0x12#8] = .ok (.litx4 0x12345679, []) ∧
    decodeTableWord 8 0b11111100 = some (.litx4 1) := by decide
theorem test_word_copy1 : decode [0b10110101#8, 0b00000110#8] = .ok (.copy1 9 0x506, []) ∧
    decodeTableWord 16 0b0000011010110101 = some (.copy1 9 0x506) := by decide
theorem test_word_copy2 : decode [0b11111110#8, 0x34#8, 0x12#8] = .ok (.copy2 64 0x1234, []) ∧
    decodeTableWord 24 0x1234FE = some (.copy2 64 0x1234) := by decide
theorem test_word_copy4 : decode [0b00000111#8, 0x78#8, 0x56#8, 0x34#8, 0x12#8] = .ok (.copy4 2 0x12345678, []) ∧
    decodeTableWord 40 0x1234567807 = some (.copy4 2 0x12345678) := by decide
theorem test_missing_operands_refused : decode [] = .error .noTag ∧ decode [0xF4#8, 0x04#8] = .error .operandsMissing ∧
    decode [0x03#8, 1#8, 0#8, 0#8] = .error .operandsMissing := by decide
-- A literal with a single byte, an extended literal and a copy run as the first instruction after reset.
theorem test_fetch_words : (answers (step (State.reset.withFetchWord 8 0x00)) fun t => t.dec.outPos == 1) = true ∧
    (answers (step (State.reset.withFetchWord 8 0xFC)) fun t => t.dec.outPos == 1 && t.dec.pos == 6) = true ∧
    (answers (step (State.reset.withFetchWord 16 0x0101)) fun t => t.regs.err == some .offsetTooFar) = true := by
  decide +kernel

/-! ## One opcode, one step: the rows of `95_test_vectors.md` 2.9 and 2.10 -/

-- DE2.
theorem test_lit : (answers (step (decoding [2#8, 0x04#8, 0x68#8, 0x69#8] 1 [] 2)) fun t =>
    t.out.readBytes 0 2 == [0x68#8, 0x69#8] && t.dec.pos == 4 && t.dec.outPos == 2) = true := by decide +kernel
-- X9.
theorem test_lit_truncated : (answers (step (decoding [5#8, 0x10#8, 0x61#8, 0x62#8] 1 [] 5)) fun t =>
    statusWord t == 0x0232#32 && t.regs.errPos == 1#32) = true := by decide +kernel
-- DE3.
theorem test_litx1 : (answers (step (decoding [2#8, 0xF0#8, 1#8, 0x41#8, 0x42#8] 1 [] 2)) fun t =>
    t.out.readBytes 0 2 == [0x41#8, 0x42#8] && t.dec.pos == 5) = true := by decide +kernel
-- DE3 under WINDOW4.
theorem test_litx1_window4 : (answers (step { decoding [2#8, 0xF0#8, 1#8, 0x41#8, 0x42#8] 1 [] 2 with
      par := { Config.defaultParams with litExtCheck := .window4 } }) fun t =>
    statusWord t == 0x0132#32 && t.regs.errPos == 1#32) = true := by decide +kernel
-- DE4.
theorem test_litx2 : (answers (step (decoding [2#8, 0xF4#8, 1#8, 0#8, 0x41#8, 0x42#8] 1 [] 2)) fun t =>
    t.out.readBytes 0 2 == [0x41#8, 0x42#8] && t.dec.pos == 6) = true := by decide +kernel
-- X10.
theorem test_litx2_truncated : (answers (step (decoding [5#8, 0xF4#8, 4#8] 1 [] 5)) fun t =>
    statusWord t == 0x0132#32 && t.regs.errPos == 1#32) = true := by decide +kernel
-- DE5.
theorem test_litx3 : (answers (step (decoding [2#8, 0xF8#8, 1#8, 0#8, 0#8, 0x41#8, 0x42#8] 1 [] 2)) fun t =>
    t.out.readBytes 0 2 == [0x41#8, 0x42#8] && t.dec.pos == 7) = true := by decide +kernel
-- DE6.
theorem test_litx4 : (answers (step (decoding [2#8, 0xFC#8, 1#8, 0#8, 0#8, 0#8, 0x41#8, 0x42#8] 1 [] 2)) fun t =>
    t.out.readBytes 0 2 == [0x41#8, 0x42#8] && t.dec.pos == 8) = true := by decide +kernel
-- DE8: the copy overlaps itself.
theorem test_copy1 : (answers (step (decoding [6#8, 4#8, 0x61#8, 0x62#8, 0x01#8, 2#8] 4 [0x61#8, 0x62#8] 6)) fun t =>
    t.out.readBytes 0 6 == [0x61#8, 0x62#8, 0x61#8, 0x62#8, 0x61#8, 0x62#8] && t.dec.pos == 6) = true := by decide +kernel
-- X2.
theorem test_copy1_offset_zero : (answers (step (decoding [5#8, 0#8, 0x7A#8, 0x01#8, 0#8] 3 [0x7A#8] 5)) fun t =>
    statusWord t == 0x0432#32 && t.regs.errPos == 3#32) = true := by decide +kernel
-- DE7.
theorem test_copy2 : (answers (step (decoding [10#8, 0#8, 0x61#8, 0x22#8, 1#8, 0#8] 3 [0x61#8] 10)) fun t =>
    t.out.readBytes 0 10 == List.replicate 10 0x61#8 && t.dec.outPos == 10) = true := by decide +kernel
-- X7.
theorem test_copy2_truncated : (answers (step (decoding [5#8, 0#8, 0x7A#8, 0x02#8, 1#8] 3 [0x7A#8] 5)) fun t =>
    statusWord t == 0x0332#32 && t.regs.errPos == 3#32) = true := by decide +kernel
-- DE10.
theorem test_copy4 : (answers (step (decoding [5#8, 0#8, 0x7A#8, 0x0F#8, 1#8, 0#8, 0#8, 0#8] 3 [0x7A#8] 5)) fun t =>
    t.out.readBytes 0 5 == List.replicate 5 0x7A#8 && t.dec.pos == 8) = true := by decide +kernel
-- X5.
theorem test_copy4_too_far : (answers (step (decoding [4#8, 0#8, 0x41#8, 0x03#8, 0#8, 0#8, 0#8, 1#8] 3 [0x41#8] 4)) fun t =>
    statusWord t == 0x0532#32 && t.regs.errPos == 3#32) = true := by decide +kernel

/-! ## The other tables of `95_test_vectors.md` -/

-- Section 2.1.
theorem test_varint_encode : varintBytes 300#32 = [0xAC#8, 0x02#8] ∧ varintBytes 4294967295#32 = [0xFF#8, 0xFF#8, 0xFF#8, 0xFF#8, 0x0F#8] := by decide
theorem test_varint_decode : varintDecode [0x80#8, 0#8] = .ok (0#32, 2) ∧
    varintDecode [0xFF#8, 0xFF#8, 0xFF#8, 0xFF#8, 0x90#8] = .error .overflow ∧
    varintDecode [0xFF#8, 0xFF#8, 0xFF#8, 0xFF#8, 0x8F#8] = .error .tooLong ∧
    varintDecode [0x80#8, 0x80#8] = .error .truncated := by decide
-- Sections 2.2 and 2.3.
theorem test_hash : hashIndex 0x61616161#32 (32 - 14) = 15520 ∧ hashIndex 0x01020304#32 (32 - 6) = 9 := by decide
theorem test_table_bits : tableBitsOf 1 = 1 ∧ tableBitsOf 15 = 3 ∧ tableBitsOf 16383 = 13 ∧ tableBitsOf 65536 = 14 := by decide
-- Sections 2.4 and 2.5.
theorem test_literal_headers : literalHeader .two 257 = [0xF4#8, 0x00#8, 0x01#8] ∧
    literalHeader .four 257 = [0xFC#8, 0x00#8, 0x01#8, 0#8, 0#8] := by decide
theorem test_copy_chunks : copyBytes 1 131 = [0xFE#8, 1#8, 0#8, 0xEE#8, 1#8, 0#8, 0x0D#8, 1#8] ∧
    copyBytes 2047 11 = [0xFD#8, 0xFF#8] ∧ copyBytes 2048 11 = [0x2A#8, 0x00#8, 0x08#8] := by decide
-- Section 2.8.
theorem test_bound : maxCompressedLength 200 = 265 ∧ maxCompressedLength 131077 = 152955 := by decide
-- Section 2.7, CP5: 20 times 0x61. The first probe finds the candidate 0, and the copy of 19 bytes is 4A 01 00.
theorem test_search_finds_zero_entry :
    (answers (step (compressing .search runInput 1 0 0 0 0)) fun t =>
      t.engine == .compress .literal && t.enc.candidate == 0) = true := by decide +kernel
theorem test_copy_emission :
    (answers (step (compressing .copy runInput 20 0 0 1 19)) fun t =>
      t.out.readBytes 1 3 == [0x4A#8, 0x01#8, 0x00#8] && t.enc.nextEmit == 20) = true := by decide +kernel

/-! ## Witnesses: the hypotheses of each statement can be met -/

theorem witness_DecodeInvertsEncode : (Instr.copy4 64 4294967295).WellFormed = true ∧ (Instr.litx4 4294967296).WellFormed = true ∧
    (Instr.lit 1).WellFormed = true ∧ (Instr.copy1 4 0).WellFormed = true := by decide
theorem witness_EncodeInvertsDecode : decode [0x2D#8, 0x23#8, 0x00#8] = .ok (.copy1 7 0x123, [0x00#8]) := by decide
theorem witness_EveryTagIsAnOpcode : 4 ≤ [0#8, 0#8, 0#8, 0#8].length ∧
    (0xEC#8).extractLsb' 0 2 = 0#2 ∧ (0xEC#8).toNat ≤ 0xEC ∧ (0x00#8).extractLsb' 0 2 = 0#2 ∧
    (0xFD#8).extractLsb' 0 2 = 1#2 ∧ (0xFE#8).extractLsb' 0 2 = 2#2 ∧ (0xFF#8).extractLsb' 0 2 = 3#2 := by decide
theorem witness_PseudoInstructionsExpand : (∀ n ∈ [1, 60, 61, 255, 256, 65536],
      1 ≤ (List.replicate n 0#8).length ∧ (List.replicate n 0#8).length ≤ 65536) ∧
    4 ≤ 4 ∧ 1 ≤ 1 ∧ 1 ≤ 2048 ∧ 65535 ≤ 65535 := by
  simp
theorem witness_HashIndexInRange : 1 ≤ 1 ∧ 1 ≤ 14 ∧ 14 ≤ 14 := by decide
theorem witness_TableBitsLargestFit : 1 ≤ 1 ∧ 1 ≤ 65536 ∧ 14 ≤ 14 ∧ 2 ^ 14 ≤ 65536 := by decide
theorem witness_ProbeReadsThenStores : 16 + 4 ≤ (compressing .search runInput 1 0 0 0 0).inSize ∧
    hashAt (compressing .search runInput 1 0 0 0 0) 16 < 16384 := by decide +kernel
theorem witness_LiteralHeaderForms : 1 ≤ 1 ∧ 60 ≤ 60 ∧ 61 ≤ 61 ∧ 255 ≤ 255 ∧ 256 ≤ 256 ∧ 256 ≤ 65536 ∧ 65536 ≤ 65536 := by decide
theorem witness_CopyChunkForms : (1 ≤ 2047 ∧ 2047 ≤ 65535 ∧ 4 ≤ 11 ∧ 11 ≤ 64 ∧ 11 < 12 ∧ 2047 < 2048) ∧
    (4 ≤ 12 ∧ 12 ≤ 64 ∧ (12 ≤ 12 ∨ 2048 ≤ 1)) ∧ (65535 ≤ 65535 ∧ 4 ≤ 4 ∧ (12 ≤ 4 ∨ 2048 ≤ 65535)) := by decide
theorem witness_CopyChunking : 4 ≤ 4 ∧ 4 ≤ 67 ∧ 4 ≤ 68 := by decide
theorem witness_EmittedSizes : 1 ≤ 256 ∧ 4 ≤ 4 := by decide
theorem witness_EmittersAppend :
    0 + 20 ≤ (compressing .trailing runInput 20 0 0 0 0).inSize ∧
    (compressing .trailing runInput 20 0 0 0 0).enc.op + (literalHeader .two 20).length + 20 ≤ 256 ∧
    { (compressing .copy runInput 20 0 0 1 19).enc with op := 253 }.op + (copyBytes 1 19).length ≤ 256 := by decide +kernel
theorem witness_StepRunsDecodedOpcode : ∃ s u i rest, engineTurn s = some u ∧ u.engine = .decompress .loop ∧ u.inLen ≤ u.inSize ∧
    decode (u.inp.readBytes u.dec.pos (u.inLen - u.dec.pos)) = .ok (i, rest) := by
  refine ⟨{ decoding [5#8, 0#8, 0x7A#8, 0x0F#8, 1#8, 0#8, 0#8, 0#8] 3 [0x7A#8] 5 with turns := [.waitDone] }, _, .copy4 4 1, [], rfl, rfl, ?_, ?_⟩ <;> decide +kernel
theorem witness_MissingOperandsRaise : (∃ s u, engineTurn s = some u ∧ u.engine = .decompress .loop ∧ u.inLen ≤ u.inSize ∧
      decode (u.inp.readBytes u.dec.pos (u.inLen - u.dec.pos)) = .error .operandsMissing ∧
      (u.inp.read u.dec.pos).extractLsb' 0 2 = 0#2) ∧
    (∃ s u, engineTurn s = some u ∧ u.engine = .decompress .loop ∧ u.inLen ≤ u.inSize ∧
      decode (u.inp.readBytes u.dec.pos (u.inLen - u.dec.pos)) = .error .operandsMissing ∧
      (u.inp.read u.dec.pos).extractLsb' 0 2 ≠ 0#2) := by
  refine ⟨⟨decoding [5#8, 0xF4#8, 4#8] 1 [] 5, _, rfl, rfl, ?_, ?_, ?_⟩,
    ⟨decoding [5#8, 0#8, 0x7A#8, 0x01#8] 3 [0x7A#8] 5, _, rfl, rfl, ?_, ?_, ?_⟩⟩ <;> decide +kernel
theorem witness_LitCompletes : let s := fetched [2#8, 0x04#8, 0x68#8, 0x69#8] 1 [] 2
    s.inLen ≤ s.inSize ∧ s.dec.declared ≤ s.outSize ∧ s.dec.pos + 2 ≤ s.inLen ∧ s.dec.outPos + 2 ≤ s.dec.declared := by
  decide +kernel
theorem witness_ExtendedLiteralsComplete : let s := fetched [3#8, 0xF0#8, 2#8, 0x41#8, 0x42#8, 0x43#8] 1 [] 3
    let t := fetched [1#8, 0xFC#8, 0#8, 0#8, 0#8, 0#8, 0x41#8] 1 [] 1
    (s.inLen ≤ s.inSize ∧ s.dec.declared ≤ s.outSize ∧ s.dec.pos + 4 ≤ s.inLen ∧ s.dec.pos + 1 + 3 ≤ s.inLen ∧
      s.dec.outPos + 3 ≤ s.dec.declared) ∧
    (t.dec.pos + 4 + 1 ≤ t.inLen ∧ t.dec.outPos + 1 ≤ t.dec.declared) := by decide +kernel
theorem witness_LiteralsRaise : let s := fetched [5#8, 0x10#8, 0x61#8, 0x62#8] 1 [] 5
    let t := fetched [1#8, 0x04#8, 0x61#8, 0x62#8] 1 [] 1
    let u := fetched [2#8, 0xF0#8, 1#8, 0x41#8, 0x42#8] 1 [] 1
    s.inLen < s.dec.pos + 5 ∧ (t.dec.pos + 2 ≤ t.inLen ∧ t.dec.declared < t.dec.outPos + 2) ∧
    u.inLen < u.dec.pos + 4 ∧ (u.dec.pos + 1 ≤ u.inLen ∧ u.inLen < u.dec.pos + 1 + 3) ∧
    (u.dec.pos + 1 + 2 ≤ u.inLen ∧ u.dec.declared < u.dec.outPos + 2) := by decide +kernel
theorem witness_CopiesRepeatPeriodically : let s := fetched [6#8, 4#8, 0x61#8, 0x62#8, 0x01#8, 2#8] 4 [0x61#8, 0x62#8] 6
    s.dec.declared ≤ s.outSize ∧ s.dec.pos + 1 ≤ s.inLen ∧ 1 ≤ 2 ∧ 2 ≤ s.dec.outPos ∧ s.dec.outPos + 4 ≤ s.dec.declared := by
  decide +kernel
theorem witness_CopiesRaise : let s := fetched [6#8, 4#8, 0x61#8, 0x62#8, 0x01#8, 2#8] 4 [0x61#8, 0x62#8] 5
    s.inLen < s.dec.pos + 2 ∧ s.dec.pos + 1 ≤ s.inLen ∧ (1 ≤ 3 ∧ s.dec.outPos < 3) ∧
    (1 ≤ 2 ∧ 2 ≤ s.dec.outPos ∧ s.dec.declared < s.dec.outPos + 4) := by decide +kernel
theorem witness_OpcodeFrame : (∃ t, exec (.lit 2) (fetched [2#8, 0x04#8, 0x68#8, 0x69#8] 1 [] 2) = .next t) ∧
    ∃ t, exec (.copy1 4 0) (fetched [5#8, 0#8, 0x7A#8, 0x01#8, 0#8] 3 [0x7A#8] 5) = .next t := ⟨⟨_, rfl⟩, ⟨_, rfl⟩⟩
theorem witness_RaiseEndsTheCommand : errPosOf .lenShort (decoding [3#8, 4#8, 0x61#8, 0x62#8] 4 [0x61#8, 0x62#8] 3) = 4#32 ∧
    errPosOf .truncCopy (fetched [5#8, 0#8, 0x7A#8, 0x01#8] 3 [0x7A#8] 5) = 3#32 ∧ errPosOf .overMaxLen State.reset = 0#32 := by
  decide +kernel
theorem witness_StatusReadsErrorCodes : statusWord (raiseError .lenShort State.reset) = 0x0732#32 ∧
    statusWord (raiseError .outTooSmall State.reset) = 0x0242#32 := by decide +kernel
-- X1, X17, X18 and DE10.
theorem witness_DecompressStartChecks :
    let big := { starting .decompress [] with regs := { Regs.reset with inLen := 257#32 } }
    let none := starting .decompress []
    let capped := starting .decompress [5#8, 0#8]
    let wide := starting .decompress [0x81#8, 2#8]
    big.inSize < big.inLen ∧
    (none.inLen ≤ none.inSize ∧ varintDecode (none.inp.readBytes 0 none.inLen) = .error .truncated) ∧
    (varintDecode (capped.inp.readBytes 0 capped.inLen) = .ok (5#32, 1) ∧ (4#32).toNat < (5#32).toNat ∧ (5#32).toNat ≤ capped.outSize) ∧
    (varintDecode (wide.inp.readBytes 0 wide.inLen) = .ok (257#32, 2) ∧ wide.regs.maxlenEn = false ∧ wide.outSize < (257#32).toNat) := by
  decide +kernel
theorem witness_EndOfStreamChecksLength : let s := decoding [3#8, 4#8, 0x61#8, 0x62#8] 4 [0x61#8, 0x62#8] 3
    let t := decoding [2#8, 4#8, 0x61#8, 0x62#8] 4 [0x61#8, 0x62#8] 2
    (s.dec.pos = s.inLen ∧ s.dec.outPos ≠ s.dec.declared) ∧ (t.dec.pos = t.inLen ∧ t.dec.outPos = t.dec.declared) := by
  decide +kernel
-- CF1, CF2 and CF3.
theorem witness_CompressStartChecks : let s := fun n : Nat => { starting .compress [] with regs := { Regs.reset with inLen := BitVec.ofNat 32 n } }
    (s 300).inSize < (s 300).inLen ∧
    ((s 200).inLen ≤ (s 200).inSize ∧ (s 200).outSize < 32 + (s 200).inLen + (s 200).inLen / 6) ∧
    ((s 190).inLen ≤ (s 190).inSize ∧ 32 + (s 190).inLen + (s 190).inLen / 6 ≤ (s 190).outSize) := by decide +kernel
theorem witness_BlockSetUp : let s := fun n : Nat => { compressing .block [] 0 0 0 0 0 with regs := { Regs.reset with inLen := BitVec.ofNat 32 n } }
    ((s 14).enc.inPos < (s 14).inLen ∧ 14 = min ((s 14).inLen - (s 14).enc.inPos) 65536) ∧
    ((s 15).enc.inPos < (s 15).inLen ∧ 15 = min ((s 15).inLen - (s 15).enc.inPos) 65536) ∧
    ((s 65537).enc.inPos < (s 65537).inLen ∧ 65536 = min ((s 65537).inLen - (s 65537).enc.inPos) 65536) := by decide +kernel
theorem witness_SearchPass : AtSearch (compressing .search runInput 1 0 0 0 0) ∧ AtSearch (compressing .search mixedInput 5 0 0 0 0) ∧
    AtSearch (compressing .search runInput 6 0 0 0 0) := by decide +kernel
theorem witness_SearchPass_outcomes :
    (answers (engineStep (compressing .search mixedInput 5 0 0 0 0)) fun t => t.engine == .compress .search && t.enc.ip == 6) = true ∧
    (answers (engineStep (compressing .search runInput 6 0 0 0 0)) fun t => t.engine == .compress .trailing) = true := by decide +kernel
theorem witness_ExtendPass : AtExtend (compressing .extend runInput 1 0 0 1 4) ∧ AtExtend (compressing .extend runInput 1 0 0 1 19) := by
  decide +kernel
theorem witness_ChainStep : AtChain (compressing .chain runInput 4 4 0 0 0) ∧ AtChain (compressing .chain mixedInput 4 4 0 0 0) ∧
    AtChain (compressing .chain runInput 5 5 0 0 0) := by decide +kernel
theorem witness_ChainStep_outcomes :
    (answers (engineStep (compressing .chain runInput 4 4 0 0 0)) fun t => t.engine == .compress .extend && t.enc.candidate == 3) = true ∧
    (answers (engineStep (compressing .chain mixedInput 4 4 0 0 0)) fun t => t.engine == .compress .search && t.enc.ip == 5) = true := by
  decide +kernel
theorem witness_BlockEmissions : AtLiteral (compressing .literal runInput 1 0 0 0 0) ∧ AtCopy (compressing .copy runInput 20 0 0 1 19) ∧
    AtTrailing (compressing .trailing runInput 6 0 0 0 0) ∧ AtTrailing (compressing .trailing runInput 20 20 0 0 0) := by
  refine ⟨?_, ?_, ?_, ?_⟩ <;> decide +kernel
theorem witness_StartBeginsACommand : ∃ u, hostTurn (accessing (.writeReg 0 4 0xB#32) State.reset) = some (.writeReg u.par.regBase 4 0xB#32, u) ∧
    u.par.wf = true ∧ u.busy = false ∧ (0xB#32).getLsbD 0 = true ∧ u.outLost = false := ⟨State.reset, rfl, by decide⟩
theorem witness_StartBeginsACommand_busy : ∃ u, hostTurn (accessing (.writeReg 0 4 1#32) (starting .decompress [])) = some (.writeReg u.par.regBase 4 1#32, u) ∧
    u.par.wf = true ∧ u.busy = true ∧ (1#32).getLsbD 0 = true := ⟨starting .decompress [], rfl, by decide⟩
theorem witness_RegisterWritesWhileIdle : ∀ offset ∈ [0x00, 0x04, 0x08, 0x0C, 0x10, 0x3C],
    ∃ u, hostTurn (accessing (.writeReg (0 + offset) 4 0xE#32) State.reset) = some (.writeReg (u.par.regBase + offset) 4 0xE#32, u) ∧
      u.par.wf = true ∧ u.busy = false ∧ offset < 64 ∧ offset % 4 = 0 ∧ (0xE#32).getLsbD 0 = false := by
  intro offset h
  refine ⟨State.reset, rfl, by decide, by decide, ?_⟩
  revert offset
  decide
theorem witness_WritesIgnoredWhileBusy : (let u := starting .decompress []; u.par.wf = true ∧ u.busy = true ∧ StatusInv u) ∧
    (∃ u, hostTurn (accessing (.writeReg 0x3C 4 1#32) (starting .decompress [])) = some (.writeReg (u.par.regBase + 0x3C) 4 1#32, u)) ∧
    (∃ u, hostTurn (accessing (.readReg 0x04 4) (starting .decompress [])) = some (.readReg (u.par.regBase + 0x04) 4, u)) :=
  ⟨by decide, ⟨starting .decompress [], rfl⟩, ⟨starting .decompress [], rfl⟩⟩
theorem witness_RegisterReads : (∃ u, hostTurn (accessing (.readReg 0x00 4) State.reset) = some (.readReg (u.par.regBase + 0x00) 4, u) ∧
      u.par.wf = true ∧ u.busy = false) ∧
    (∃ u, hostTurn (accessing (.readReg 0x3C 4) (starting .decompress [])) = some (.readReg (u.par.regBase + 0x3C) 4, u) ∧
      u.par.wf = true ∧ u.busy = true) :=
  ⟨⟨State.reset, rfl, by decide⟩, ⟨starting .decompress [], rfl, by decide⟩⟩
theorem witness_UndefinedHostAccessesRefused :
    (∃ u, hostTurn (accessing (.readReg 2 4) State.reset) = some (.readReg 2 4, u) ∧ u.par.regBase ≤ 2 ∧ 2 < u.par.regBase + 64) ∧
    (∃ u, hostTurn (accessing (.writeReg 63 1 0#32) State.reset) = some (.writeReg 63 1 0#32, u) ∧ 63 < u.par.regBase + 64) ∧
    (∃ u, hostTurn (accessing (.writeIn 0 1#8) (starting .compress [])) = some (.writeIn 0 1#8, u) ∧ u.busy = true) ∧
    (∃ u, hostTurn (accessing (.writeOut 255 1#8) (starting .compress [])) = some (.writeOut 255 1#8, u) ∧ u.busy = true) :=
  ⟨⟨_, rfl, by decide⟩, ⟨_, rfl, by decide⟩, ⟨_, rfl, by decide⟩, ⟨_, rfl, by decide⟩⟩
theorem witness_HostReadsAndWritesSpaces :
    (∃ u, hostTurn (accessing (.writeIn 255 1#8) State.reset) = some (.writeIn 255 1#8, u) ∧ u.busy = false ∧ 255 < u.inSize) ∧
    (∃ u, hostTurn (accessing (.writeOut 0 1#8) State.reset) = some (.writeOut 0 1#8, u) ∧ u.busy = false ∧ u.outLost = false ∧ 0 < u.outSize) ∧
    (∃ u, hostTurn (accessing (.readOut 255) State.reset) = some (.readOut 255, u) ∧ u.busy = false ∧ u.outLost = false ∧ 255 < u.outSize) :=
  ⟨⟨_, rfl, by decide⟩, ⟨_, rfl, by decide⟩, ⟨_, rfl, by decide⟩⟩
theorem witness_HostReadsAndWritesSpaces_in_and_error :
    (∃ u, hostTurn (accessing (.readIn 0) (starting .compress [])) = some (.readIn 0, u) ∧ u.busy = true ∧ 0 < u.inSize) ∧
    (∃ u, hostTurn (accessing (.readIn 255) State.reset) = some (.readIn 255, u) ∧ u.busy = false ∧ 255 < u.inSize) ∧
    (∃ u, hostTurn (accessing (.writeOut 255 1#8) (raiseError .truncated State.reset)) = some (.writeOut 255 1#8, u) ∧
      u.busy = false ∧ u.outLost = true ∧ 255 < u.outSize) :=
  ⟨⟨_, rfl, by decide⟩, ⟨_, rfl, by decide⟩, ⟨_, rfl, by decide⟩⟩
theorem witness_OutIsUnspecifiedAfterErrorAndWhileBusy :
    (∃ u, hostTurn (accessing (.readOut 0) (starting .compress [])) = some (.readOut 0, u) ∧ 0 < u.outSize ∧ u.busy = true) ∧
    (∃ u, hostTurn (accessing (.readOut 255) (raiseError .truncated State.reset)) = some (.readOut 255, u) ∧ 255 < u.outSize ∧ u.outLost = true) :=
  ⟨⟨_, rfl, by decide⟩, ⟨_, rfl, by decide⟩⟩
theorem witness_ResetValues : State.reset = State.resetOf Config.defaultParams 0 [] ∧ 0x3C < 64 ∧ 0x3C % 4 = 0 ∧ 0x3C ≠ 0x1C := ⟨rfl, by decide⟩
theorem witness_ResetAbandonsTheCommand : { starting .compress runInput with turns := [.reset] }.turns = .reset :: [] := rfl

/-- Each step theorem of the invariants has a state that meets its hypotheses in the middle of a command. -/
theorem witness_invariants_decoding : let s := decoding [6#8, 4#8, 0x61#8, 0x62#8, 0x01#8, 2#8] 4 [0x61#8, 0x62#8] 6
    StorageInv s ∧ StatusInv s ∧ DecompressInv s := by
  refine ⟨?_, ?_, ?_⟩ <;> decide +kernel
theorem witness_StatusInv_after_error : StatusInv (raiseError .truncated State.reset) ∧ (raiseError .truncated State.reset).outLost = true ∧
    ∃ t, step (raiseError .truncated State.reset) = .next t := ⟨by decide, rfl, ⟨_, rfl⟩⟩
theorem witness_invariants_step : ∃ t, step (decoding [6#8, 4#8, 0x61#8, 0x62#8, 0x01#8, 2#8] 4 [0x61#8, 0x62#8] 6) = .next t :=
  next_of_answers (p := fun _ => true) (by decide +kernel)
theorem witness_StepKeepsStorageCanonical : StorageInv (compressing .search runInput 1 0 0 0 0) := by decide +kernel
theorem witness_StepKeepsEncoderInvariant : CompressInv (compressing .search runInput 1 0 0 0 0) ∧
    CompressInv (compressing .chain runInput 4 4 0 0 0) ∧ ∃ t, step (compressing .search runInput 1 0 0 0 0) = .next t := by
  refine ⟨⟨?_, ?_, ?_, ?_, ?_, ?_, ?_⟩, ⟨?_, ?_, ?_, ?_, ?_, ?_, ?_⟩, ⟨_, rfl⟩⟩ <;> decide +kernel
theorem witness_EngineNeverStops : DecompressInv (compressing .search runInput 1 0 0 0 0) := by decide +kernel
theorem witness_ParametersAndInputAreKept : ∃ t, engineStep (compressing .extend runInput 1 0 0 1 4) = .next t := ⟨_, rfl⟩
theorem witness_EngineOnlyAppends : let s := decoding [1#8, 0x00#8, 0x61#8] 1 [] 1
    (answers (engineStep { s with out := s.out.write 0 0x7A#8 }) fun t =>
      decide (t.out.read 0 ≠ (s.out.write 0 0x7A#8).read 0)) = true := by decide +kernel
theorem witness_DecompressEnds : (starting .decompress [5#8, 0#8]).turns = [] ∧ (starting .decompress [5#8, 0#8]).engine = .decompress .start := ⟨rfl, rfl⟩
theorem witness_CompressEnds : (starting .compress runInput).turns = [] ∧ (starting .compress runInput).engine = .compress .start := ⟨rfl, rfl⟩
-- DE2: the stream of "hi".
theorem witness_DecompressComputesExpansion : let s := starting .decompress [2#8, 0x04#8, 0x68#8, 0x69#8]
    s.turns = [] ∧ s.engine = .decompress .start ∧ s.inLen ≤ s.inSize ∧ varintDecode (s.inp.readBytes 0 s.inLen) = .ok (2#32, 1) ∧
    s.regs.maxlenEn = false ∧ (2#32).toNat ≤ s.outSize ∧
    expand (s.inp.readBytes 1 (s.inLen - 1)) = some [0x68#8, 0x69#8] := by decide +kernel
theorem witness_CompressWritesAStreamOfItsInput : let s := starting .compress runInput
    s.turns = [] ∧ s.engine = .compress .start ∧ s.inLen ≤ s.inSize ∧ maxCompressedLength s.inLen ≤ s.outSize := by decide +kernel
-- CP2: "a" compresses to 01 00 61.
theorem witness_RoundTrip : let s := starting .compress [0x61#8]
    let u : State := { starting .decompress [1#8, 0#8, 0x61#8] with par := { Config.defaultParams with outSize := 1#32 } }
    (s.turns = [] ∧ s.engine = .compress .start ∧ s.inLen ≤ s.inSize ∧ maxCompressedLength s.inLen ≤ s.outSize) ∧
    (answers (Host.Core.run Sys2Proof.core 4 s) fun t : State => decide (t.engine = .idle ∧ u.regs.inLen = t.regs.outLen ∧
      (∀ a, a < u.inLen → u.inp.read a = t.out.read a))) = true ∧
    u.turns = [] ∧ u.engine = .decompress .start ∧ u.inLen ≤ u.inSize ∧ s.inLen ≤ u.outSize ∧ u.regs.maxlenEn = false := by
  decide +kernel
theorem witness_DependsOnItsInputOnly : let s := starting .decompress [1#8, 0#8, 0x61#8]
    let s' := { s with out := s.out.write 0 7#8, table := s.table.set 0 9#16 }
    s.turns = [] ∧ s'.turns = [] ∧ s'.engine = .decompress .start ∧ s'.regs = s.regs ∧ s'.par = s.par ∧
    (∀ a, a < s.inLen → s'.inp.read a = s.inp.read a) ∧
    (answers (Host.Core.run Sys2Proof.core 3 s) fun t => decide (t.engine = .idle ∧ t.regs.err = none ∧ t.regs.outLen = 1#32)) = true := by
  decide +kernel
theorem witness_CompressDependsOnItsInputOnly : let s := starting .compress [0x61#8]
    let s' := { s with out := s.out.write 0 7#8, table := s.table.set 0 9#16 }
    s.turns = [] ∧ s'.turns = [] ∧ s'.engine = .compress .start ∧ s'.regs = s.regs ∧ s'.par = s.par ∧
    (∀ a, a < s.inLen → s'.inp.read a = s.inp.read a) ∧
    (answers (Host.Core.run Sys2Proof.core 4 s) fun t => decide (t.engine = .idle ∧ t.regs.err = none ∧ t.regs.outLen = 3#32)) = true := by
  decide +kernel
theorem witness_InstancesShareNothing : ∃ z, ({ cores := [State.reset, State.reset] } : System).stepAt ⟨1, by decide⟩ = .next z := ⟨_, rfl⟩

end Sys2Proof.Tests
end

section
/-! The output of the encoder: what `Emit` leaves, and how many bytes each emission takes (R13, R100, R170 to R177). -/

namespace Sys2Proof.Machine

/-! ## `Emit` (R13) -/

/-- What `Emit` of a list of bytes leaves when they fit OUT (R13). -/
def appended (bytes : List Byte) (s : State) : State :=
  { s with out := s.out.writeBytes s.enc.op bytes, enc := { s.enc with op := s.enc.op + bytes.length } }

section
variable (bytes : List Byte) (s : State)
@[simp] theorem appended_par : (appended bytes s).par = s.par := rfl
@[simp] theorem appended_regs : (appended bytes s).regs = s.regs := rfl
@[simp] theorem appended_engine : (appended bytes s).engine = s.engine := rfl
@[simp] theorem appended_enc : (appended bytes s).enc = { s.enc with op := s.enc.op + bytes.length } := rfl
@[simp] theorem appended_dec : (appended bytes s).dec = s.dec := rfl
@[simp] theorem appended_table : (appended bytes s).table = s.table := rfl
@[simp] theorem appended_inp : (appended bytes s).inp = s.inp := rfl
@[simp] theorem appended_out : (appended bytes s).out = s.out.writeBytes s.enc.op bytes := rfl

theorem appended_frame : SameButEncoder s (appended bytes s) := ⟨rfl, rfl, rfl, rfl, rfl, rfl, rfl, rfl⟩

theorem appended_outHolds : OutHolds s (appended bytes s) s.enc.op bytes :=
  fun x => Memory.read_writeBytes bytes s.out s.enc.op x
end

theorem emit_eq_appended {bytes : List Byte} {s t : State} :
    emit bytes s = .next t ↔ s.enc.op + bytes.length ≤ s.outSize ∧ t = appended bytes s :=
  emit_next

/-- The bytes EMIT_LITERAL writes for the `n` bytes of IN from `src` on (R170). -/
def literalBytes (src n : Nat) (s : State) : List Byte :=
  literalHeader s.par.litExtWidth n ++ s.inp.readBytes src n

@[simp] theorem length_literalBytes (src n : Nat) (s : State) :
    (literalBytes src n s).length = (literalHeader s.par.litExtWidth n).length + n := by
  simp [literalBytes]

theorem emitLiteral_eq_appended {src n : Nat} {s t : State} :
    emitLiteral src n s = .next t ↔
      src + n ≤ s.inSize ∧ s.enc.op + (literalBytes src n s).length ≤ s.outSize ∧ t = appended (literalBytes src n s) s := by
  rw [emitLiteral_next, emit_eq_appended, literalBytes]

theorem emitCopy_eq_appended {off m : Nat} {s t : State} :
    emitCopy off m s = .next t ↔
      s.enc.op + (copyBytes off m).length ≤ s.outSize ∧ t = appended (copyBytes off m) s :=
  emit_eq_appended

/-! What goes on after an emission goes on from the appended state. -/

theorem emit_andThen {bytes : List Byte} {s t : State} {f : State → Result} :
    andThen (emit bytes s) f = .next t ↔
      s.enc.op + bytes.length ≤ s.outSize ∧ f (appended bytes s) = .next t := by
  simp [andThen_next, emit_eq_appended, and_assoc]

theorem emitLiteral_andThen {src n : Nat} {s t : State} {f : State → Result} :
    andThen (emitLiteral src n s) f = .next t ↔
      src + n ≤ s.inSize ∧ s.enc.op + (literalBytes src n s).length ≤ s.outSize ∧
        f (appended (literalBytes src n s) s) = .next t := by
  simp [andThen_next, emitLiteral_eq_appended, and_assoc]

theorem emitCopy_andThen {off m : Nat} {s t : State} {f : State → Result} :
    andThen (emitCopy off m s) f = .next t ↔
      s.enc.op + (copyBytes off m).length ≤ s.outSize ∧ f (appended (copyBytes off m) s) = .next t :=
  emit_andThen

/-- Settles O17: both emitters are an `Emit` of their bytes at `op`. -/
theorem emittersAppend : Obligations.EmittersAppend := by
  unfold Obligations.EmittersAppend
  refine ⟨fun s src n hsrc hfit => ?_, fun s off m hfit => ?_⟩
  · have hroom : s.enc.op + (literalBytes src n s).length ≤ s.outSize := by
      rw [length_literalBytes, ← Nat.add_assoc]
      exact hfit
    refine ⟨_, emitLiteral_eq_appended.mpr ⟨hsrc, hroom, rfl⟩, ?_, appended_outHolds _ s, rfl, rfl, appended_frame _ s⟩
    simp [Nat.add_assoc]
  · exact ⟨_, emitCopy_eq_appended.mpr ⟨hfit, rfl⟩, rfl, appended_outHolds _ s, rfl, rfl, appended_frame _ s⟩

/-! ## How many bytes are emitted -/

theorem length_varintBytesAux_le (fuel v : Nat) : (varintBytesAux fuel v).length ≤ fuel := by
  induction fuel generalizing v with
  | zero => simp [varintBytesAux]
  | succ fuel ih =>
    rw [varintBytesAux]
    split
    · simp
    · simpa using ih (v / 128)

/-- A header takes at most VARINT_MAX_BYTES (R7, R101). -/
theorem length_varintBytes_le (n : Word) : (varintBytes n).length ≤ 5 :=
  length_varintBytesAux_le Config.varintMaxBytes n.toNat

/-- The tag and length bytes of a literal: one byte, and at most one more for each 60 bytes of the literal (R171 to R173). -/
theorem length_literalHeader_le (w : LitExtWidth) (n : Nat) :
    60 * (literalHeader w n).length ≤ 60 + n := by
  unfold literalHeader
  split
  · simp
  · split
    · simp only [List.length_cons, List.length_nil]
      omega
    · cases w <;> simp only [List.length_cons, List.length_nil] <;> omega

theorem length_copyBytes64_le (off m : Nat) : (copyBytes64 off m).length ≤ 3 := by
  unfold copyBytes64
  split <;> simp

/-- One pass of EMIT_COPY's loop, with R7's numbers (R177). -/
theorem copyChunksAux_succ (fuel m : Nat) :
    copyChunksAux (fuel + 1) m =
      if 68 ≤ m then 64 :: copyChunksAux fuel (m - 64) else if 64 < m then [60, m - 60] else [m] :=
  rfl

theorem length_copyChunksAux_bytes_lt (off fuel m : Nat) (hm : 4 ≤ m) :
    ((copyChunksAux fuel m).flatMap (copyBytes64 off)).length < m := by
  have chunk := length_copyBytes64_le off
  induction fuel generalizing m with
  | zero =>
    have := chunk m
    simp only [copyChunksAux, List.flatMap_cons, List.flatMap_nil, List.append_nil]
    omega
  | succ fuel ih =>
    rw [copyChunksAux_succ]
    split_ifs
    · have := chunk 64
      have := ih (m - 64) (by omega)
      rw [List.flatMap_cons, List.length_append]
      omega
    · have := chunk 60
      have := chunk (m - 60)
      simp only [List.flatMap_cons, List.flatMap_nil, List.append_nil, List.length_append]
      omega
    · have := chunk m
      simp only [List.flatMap_cons, List.flatMap_nil, List.append_nil]
      omega

/-- A copy takes fewer bytes than it stands for (R180). -/
theorem length_copyBytes_lt (off m : Nat) (hm : 4 ≤ m) : (copyBytes off m).length < m :=
  length_copyChunksAux_bytes_lt off m m hm

end Sys2Proof.Machine
end

section
/-! For each step of the engine, once, exactly what it can do: it answers next just where one of the cases holds, with the state given. The statements about the engine's steps cite these and do not unfold the steps. -/

namespace Sys2Proof.Machine

/-! ## PROBE and INSERT inside a step (R126, R127) -/

section
variable (p : Nat) (s : State)
@[simp] theorem insertAt_inSize : (insertAt p s).inSize = s.inSize := rfl
@[simp] theorem probeAt_inSize : (probeAt p s).inSize = s.inSize := rfl
@[simp] theorem probeAt_ip : (probeAt p s).enc.ip = s.enc.ip := rfl
@[simp] theorem hashAt_insertAt (q : Nat) : hashAt (insertAt p s) q = hashAt s q := rfl
end

theorem tableProbe_andThen {p : Nat} {s t : State} {f : State → Result} :
    andThen (tableProbe p s) f = .next t ↔
      p + 4 ≤ s.inSize ∧ hashAt s p < Config.tableEntries ∧ f (probeAt p s) = .next t := by
  simp [andThen_next, tableProbe_next, and_assoc]

theorem tableInsert_andThen {p : Nat} {s t : State} {f : State → Result} :
    andThen (tableInsert p s) f = .next t ↔
      p + 4 ≤ s.inSize ∧ hashAt s p < Config.tableEntries ∧ f (insertAt p s) = .next t := by
  simp [andThen_next, tableInsert_next, and_assoc]

/-- A bound that PROBE has checked need not be checked again. -/
theorem and_and_self_left {a b c : Prop} : (a ∧ b ∧ a ∧ c) ↔ a ∧ b ∧ c := by
  tauto

/-! ## COMPRESS -/

/-- The header is written and the loop over blocks begins (R190). -/
def headerWritten (s : State) : State :=
  let u := appended (varintBytes s.regs.inLen) { s with enc := { s.enc with op := 0 } }
  goCompress .block { u with regs := { u.regs with hdrLen := u.regs.inLen }, enc := { u.enc with inPos := 0 } }

theorem compressStart_next {s t : State} :
    compressStart s = .next t ↔
      (s.inSize < s.inLen ∧ t = raiseError .inLenTooBig s) ∨
      (s.inLen ≤ s.inSize ∧ s.outSize < maxCompressedLength s.inLen ∧ t = raiseError .outTooSmall s) ∨
      (s.inLen ≤ s.inSize ∧ maxCompressedLength s.inLen ≤ s.outSize ∧ (varintBytes s.regs.inLen).length ≤ s.outSize ∧
        t = headerWritten s) := by
  simp only [compressStart, ite_eq_iff, emit_andThen, Nat.zero_add, Host.Outcome.next.injEq, not_lt, eq_comm (a := t),
    and_or_left]
  rfl

theorem compressBlock_next {s t : State} :
    compressBlock s = .next t ↔
      (s.enc.inPos < s.inLen ∧ t = setUpBlock (min (s.inLen - s.enc.inPos) Config.blockSize) s) ∨
      (s.inLen ≤ s.enc.inPos ∧ t = finish { s with regs := { s.regs with outLen := BitVec.ofNat 32 s.enc.op } }) := by
  simp only [compressBlock, ite_eq_iff, Host.Outcome.next.injEq, not_lt, eq_comm (a := t)]

/-- What a pass of the search leaves once `ip` is probed (R144). -/
def searchProbed (u : State) : State :=
  if equal32 u.inp u.enc.ip u.enc.candidate then goCompress .literal u
  else { u with enc := { u.enc with ip := u.enc.ip + u.enc.skip >>> Config.skipShift, skip := u.enc.skip + 1 } }

theorem searchProbed_next {u t : State} :
    (if equal32 u.inp u.enc.ip u.enc.candidate then .next (goCompress .literal u)
     else .next { u with enc := { u.enc with ip := u.enc.ip + u.enc.skip >>> Config.skipShift,
                                             skip := u.enc.skip + 1 } } : Result) =
      .next t ↔ t = searchProbed u := by
  rw [← apply_ite Host.Outcome.next, Host.Outcome.next.injEq, eq_comm, searchProbed]

theorem compressSearch_next {s t : State} :
    compressSearch s = .next t ↔
      (s.enc.ipLimit < s.enc.ip ∧ t = goCompress .trailing s) ∨
      (s.enc.ip ≤ s.enc.ipLimit ∧ s.enc.ip + 4 ≤ s.inSize ∧ hashAt s s.enc.ip < Config.tableEntries ∧
        (probeAt s.enc.ip s).enc.candidate + 4 ≤ s.inSize ∧ t = searchProbed (probeAt s.enc.ip s)) := by
  rw [compressSearch, ite_eq_iff, tableProbe_andThen, withinIn_next, withinIn_next, searchProbed_next]
  simp only [Host.Outcome.next.injEq, not_lt, eq_comm (a := t), probeAt_inSize, probeAt_ip, and_and_self_left]

theorem compressLiteral_next {s t : State} :
    compressLiteral s = .next t ↔
      s.enc.nextEmit + (s.enc.ip - s.enc.nextEmit) ≤ s.inSize ∧
      s.enc.op + (literalBytes s.enc.nextEmit (s.enc.ip - s.enc.nextEmit) s).length ≤ s.outSize ∧
      t = startExtend (appended (literalBytes s.enc.nextEmit (s.enc.ip - s.enc.nextEmit) s) s) := by
  rw [compressLiteral, emitLiteral_andThen, Host.Outcome.next.injEq, eq_comm (a := t)]

/-- What a pass of the extension leaves (R146). -/
def extended (s : State) : State :=
  if s.enc.base + s.enc.matched < s.enc.blockEnd ∧
      s.inp.read (s.enc.base + s.enc.matched) = s.inp.read (s.enc.candidate + s.enc.matched) then
    { s with enc := { s.enc with matched := s.enc.matched + 1 } }
  else goCompress .copy { s with enc := { s.enc with ip := s.enc.base + s.enc.matched } }

theorem compressExtend_next {s t : State} :
    compressExtend s = .next t ↔
      (s.enc.base + s.enc.matched < s.enc.blockEnd →
        s.enc.base + s.enc.matched + 1 ≤ s.inSize ∧ s.enc.candidate + s.enc.matched + 1 ≤ s.inSize) ∧
      t = extended s := by
  rw [compressExtend, extended]
  by_cases hend : s.enc.base + s.enc.matched < s.enc.blockEnd
  · rw [if_pos hend, withinIn_next, withinIn_next, ← apply_ite Host.Outcome.next]
    simp [hend, eq_comm (a := t), and_assoc]
  · simp [hend, eq_comm (a := t)]

theorem compressCopy_next {s t : State} :
    compressCopy s = .next t ↔
      s.enc.op + (copyBytes (s.enc.base - s.enc.candidate) s.enc.matched).length ≤ s.outSize ∧
      ∃ u, u = appended (copyBytes (s.enc.base - s.enc.candidate) s.enc.matched) s ∧
        t = goCompress .chain { u with enc := { u.enc with nextEmit := u.enc.ip } } := by
  rw [compressCopy, emitCopy_andThen, Host.Outcome.next.injEq, exists_eq_left, eq_comm (a := t)]

/-- INSERT of `ip - 1`, then PROBE of `ip` (R148). -/
def chainProbed (s : State) : State := probeAt s.enc.ip (insertAt (s.enc.ip - 1) s)

/-- What the chain step leaves once `ip` is probed (R148, R149). -/
def chained (u : State) : State :=
  if equal32 u.inp u.enc.ip u.enc.candidate then startExtend u else resumeSearch u

theorem chained_next {u t : State} :
    (if equal32 u.inp u.enc.ip u.enc.candidate then .next (startExtend u) else .next (resumeSearch u) : Result) =
      .next t ↔ t = chained u := by
  rw [← apply_ite Host.Outcome.next, Host.Outcome.next.injEq, eq_comm, chained]

theorem compressChain_next {s t : State} :
    compressChain s = .next t ↔
      (s.enc.ipLimit ≤ s.enc.ip ∧ t = goCompress .trailing s) ∨
      (s.enc.ip < s.enc.ipLimit ∧ s.enc.ip - 1 + 4 ≤ s.inSize ∧ hashAt s (s.enc.ip - 1) < Config.tableEntries ∧
        s.enc.ip + 4 ≤ s.inSize ∧ hashAt s s.enc.ip < Config.tableEntries ∧
        (chainProbed s).enc.candidate + 4 ≤ s.inSize ∧ t = chained (chainProbed s)) := by
  rw [compressChain, ite_eq_iff, tableInsert_andThen, tableProbe_andThen, withinIn_next, withinIn_next,
    chained_next]
  simp only [Host.Outcome.next.injEq, not_le, eq_comm (a := t), probeAt_inSize, probeAt_ip, insertAt_inSize, insertAt_enc,
    hashAt_insertAt, and_and_self_left, chainProbed]

theorem compressTrailing_next {s t : State} :
    compressTrailing s = .next t ↔
      (s.enc.nextEmit < s.enc.blockEnd ∧ s.enc.nextEmit + (s.enc.blockEnd - s.enc.nextEmit) ≤ s.inSize ∧
        s.enc.op + (literalBytes s.enc.nextEmit (s.enc.blockEnd - s.enc.nextEmit) s).length ≤ s.outSize ∧
        t = leaveBlock (appended (literalBytes s.enc.nextEmit (s.enc.blockEnd - s.enc.nextEmit) s) s)) ∨
      (s.enc.blockEnd ≤ s.enc.nextEmit ∧ t = leaveBlock s) := by
  simp only [compressTrailing, ite_eq_iff, emitLiteral_andThen, Host.Outcome.next.injEq, not_lt, eq_comm (a := t)]

/-! ## DECOMPRESS -/

theorem endOfStream_next {s t : State} :
    endOfStream s = .next t ↔
      (s.dec.outPos ≠ s.dec.declared ∧ t = raiseError .lenShort s) ∨
      (s.dec.outPos = s.dec.declared ∧
        t = finish { s with regs := { s.regs with outLen := BitVec.ofNat 32 s.dec.declared } }) := by
  simp only [endOfStream, ite_eq_iff, Host.Outcome.next.injEq, not_not, eq_comm (a := t), ne_eq]

theorem decompressStart_next {s t : State} :
    decompressStart s = .next t ↔
      (s.inSize < s.inLen ∧ t = raiseError .inLenTooBig s) ∨
      (s.inLen ≤ s.inSize ∧ ∃ e, varintDecode (headerWindow s) = .error e ∧ t = raiseError e s) ∨
      (s.inLen ≤ s.inSize ∧ ∃ declared pos, varintDecode (headerWindow s) = .ok (declared, pos) ∧
        checkSizes { s with
          regs := { s.regs with hdrLen := declared }
          dec := { s.dec with declared := declared.toNat, pos := pos } } = .next t) := by
  rw [decompressStart, ite_eq_iff]
  rcases varintDecode (headerWindow s) with e | ⟨declared, pos⟩ <;> simp [eq_comm (a := t)]

theorem decompressLoop_next {s t : State} :
    decompressLoop s = .next t ↔
      (s.dec.pos < s.inLen ∧ s.dec.pos + fetchedBytes s ≤ s.inSize ∧ exec (fetchInstr s) (enterOpcode s) = .next t) ∨
      (s.inLen ≤ s.dec.pos ∧ endOfStream s = .next t) := by
  rw [decompressLoop, ite_eq_iff, withinIn_next, not_lt]

/-- The meaning of an opcode is one of the three shared procedures, by its kind (R206 to R216). -/
theorem exec_cases (i : Instr) (s : State) :
    exec i s = literalBody i.len s ∨ exec i s = extendedLiteral i.operandBytes i.len s ∨
      ∃ off, copyOffset i = some off ∧ exec i s = copyOpcode i.operandBytes i.len off s := by
  cases i with
  | lit len => exact .inl rfl
  | litx1 len | litx2 len | litx3 len | litx4 len => exact .inr (.inl rfl)
  | copy1 len off | copy2 len off | copy4 len off => exact .inr (.inr ⟨off, rfl, rfl⟩)

end Sys2Proof.Machine
end

section
/-! Every step keeps the storages canonical (R12, R40, R50, R51): what writes IN, OUT or T keeps them so, and nothing else touches them. -/

namespace Sys2Proof.Machine

/-! ## The geometry of the table (R122, R123) -/

theorem largestExponent_le (b blen : Nat) : largestExponent b blen ≤ b := by
  induction b with
  | zero => simp [largestExponent]
  | succ b ih =>
    rw [largestExponent]
    split
    · exact le_rfl
    · exact Nat.le_succ_of_le ih

theorem tableBitsOf_le (blen : Nat) : tableBitsOf blen ≤ 14 :=
  Nat.max_le.mpr ⟨by decide, largestExponent_le Config.maxTableBits blen⟩

theorem two_pow_tableBitsOf_le (blen : Nat) : 2 ^ tableBitsOf blen ≤ Config.tableEntries :=
  Nat.pow_le_pow_right (by decide) (tableBitsOf_le blen)

section
variable {s t : State}

/-! ## The operations -/

theorem storageInv_appended {bytes : List Byte} (h : StorageInv s)
    (hfit : s.enc.op + bytes.length ≤ s.outSize) : StorageInv (appended bytes s) := by
  obtain ⟨hin, hout, htable⟩ := h
  exact ⟨hin, Memory.wf_writeBytes bytes s.out s.outSize s.enc.op hout hfit, htable⟩

theorem storageInv_insertAt {p : Nat} (h : StorageInv s) (hp : hashAt s p < Config.tableEntries) :
    StorageInv (insertAt p s) := by
  obtain ⟨hin, hout, htable⟩ := h
  exact ⟨hin, hout, Table.wf_set s.table _ _ htable hp⟩

/-- PROBE reads a register and inserts (R126). -/
theorem storageInv_probeAt {p : Nat} (h : StorageInv s) (hp : hashAt s p < Config.tableEntries) :
    StorageInv (probeAt p s) :=
  storageInv_insertAt h hp

theorem storageInv_setUpBlock (blen : Nat) (h : StorageInv s) : StorageInv (setUpBlock blen s) := by
  obtain ⟨hin, hout, htable⟩ := h
  have hclear := Table.wf_clear s.table _ htable (two_pow_tableBitsOf_le blen)
  unfold setUpBlock
  split <;> exact ⟨hin, hout, hclear⟩

theorem storageInv_settleOut (h : StorageInv s) : StorageInv (settleOut s) := by
  unfold settleOut
  split
  · obtain ⟨hin, -, htable⟩ := h
    exact ⟨hin, Memory.wf_unspecified _ _, htable⟩
  · exact h

/-! ## COMPRESS -/

theorem storageInv_searchProbed (h : StorageInv s) : StorageInv (searchProbed s) := by
  unfold searchProbed
  split <;> exact h

theorem storageInv_extended (h : StorageInv s) : StorageInv (extended s) := by
  unfold extended
  split <;> exact h

theorem storageInv_chained (h : StorageInv s) : StorageInv (chained s) := by
  unfold chained
  split <;> exact h

theorem storageInv_stepCompress {place : CompressAt} (h : StorageInv s) (hstep : stepCompress place s = .next t) :
    StorageInv t := by
  cases place with
  | start =>
    rcases compressStart_next.mp hstep with ⟨-, rfl⟩ | ⟨-, -, rfl⟩ | ⟨-, -, hfit, rfl⟩
    · exact h
    · exact h
    · exact storageInv_appended (s := { s with enc := { s.enc with op := 0 } }) h
        (by rw [Nat.zero_add]; exact hfit)
  | block =>
    rcases compressBlock_next.mp hstep with ⟨-, rfl⟩ | ⟨-, rfl⟩
    · exact storageInv_setUpBlock _ h
    · exact h
  | search =>
    rcases compressSearch_next.mp hstep with ⟨-, rfl⟩ | ⟨-, -, hhash, -, rfl⟩
    · exact h
    · exact storageInv_searchProbed (storageInv_probeAt h hhash)
  | literal =>
    obtain ⟨-, hfit, rfl⟩ := compressLiteral_next.mp hstep
    exact storageInv_appended h hfit
  | extend =>
    obtain ⟨-, rfl⟩ := compressExtend_next.mp hstep
    exact storageInv_extended h
  | copy =>
    obtain ⟨hfit, _, rfl, rfl⟩ := compressCopy_next.mp hstep
    exact storageInv_appended h hfit
  | chain =>
    rcases compressChain_next.mp hstep with ⟨-, rfl⟩ | ⟨-, -, hprev, -, hhash, -, rfl⟩
    · exact h
    · exact storageInv_chained (storageInv_probeAt (storageInv_insertAt h hprev) hhash)
  | trailing =>
    rcases compressTrailing_next.mp hstep with ⟨-, -, hfit, rfl⟩ | ⟨-, rfl⟩
    · exact storageInv_appended h hfit
    · exact h

/-! ## DECOMPRESS -/

theorem storageInv_literalBody {len : Nat} (hexec : literalBody len s = .next t) (h : StorageInv s) :
    StorageInv t := by
  rcases literalBody_next hexec with ⟨-, rfl⟩ | ⟨-, -, rfl⟩ | ⟨-, -, -, hroom, rfl⟩
  · exact h
  · exact h
  · obtain ⟨hin, hout, htable⟩ := h
    exact ⟨hin, Memory.wf_moveFrom s.inp len s.out s.outSize _ _ hout hroom, htable⟩

theorem storageInv_copyBody {len off : Nat} (hexec : copyBody len off s = .next t) (h : StorageInv s) :
    StorageInv t := by
  rcases copyBody_next hexec with ⟨-, rfl⟩ | ⟨-, -, rfl⟩ | ⟨-, -, -, rfl⟩ | ⟨-, -, -, hroom, rfl⟩
  · exact h
  · exact h
  · exact h
  · obtain ⟨hin, hout, htable⟩ := h
    exact ⟨hin, Memory.wf_repeatBack off len s.out s.outSize _ hout hroom, htable⟩

theorem storageInv_exec {i : Instr} (hexec : exec i s = .next t) (h : StorageInv s) : StorageInv t := by
  rcases exec_cases i s with hi | hi | ⟨off, -, hi⟩ <;> rw [hi] at hexec
  · exact storageInv_literalBody hexec h
  · rcases extendedLiteral_next hexec with ⟨-, rfl⟩ | ⟨-, hbody⟩
    · exact h
    · exact storageInv_literalBody hbody h
  · rcases copyOpcode_next hexec with ⟨-, rfl⟩ | ⟨-, hbody⟩
    · exact h
    · exact storageInv_copyBody hbody h

theorem storageInv_checkSizes (hcheck : checkSizes s = .next t) (h : StorageInv s) : StorageInv t := by
  rcases checkSizes_next hcheck with ⟨-, -, rfl⟩ | ⟨-, -, rfl⟩ | ⟨-, -, rfl⟩ <;> exact h

theorem storageInv_stepDecompress {place : DecompressAt} (h : StorageInv s)
    (hstep : stepDecompress place s = .next t) : StorageInv t := by
  cases place with
  | start =>
    rcases decompressStart_next.mp hstep with ⟨-, rfl⟩ | ⟨-, _, -, rfl⟩ | ⟨-, _, _, -, hcheck⟩
    · exact h
    · exact h
    · exact storageInv_checkSizes hcheck h
  | loop =>
    rcases decompressLoop_next.mp hstep with ⟨-, -, hexec⟩ | ⟨-, hend⟩
    · exact storageInv_exec hexec h
    · rcases endOfStream_next.mp hend with ⟨-, rfl⟩ | ⟨-, rfl⟩ <;> exact h

/-! ## The host, and one step -/

theorem storageInv_engineStep (h : StorageInv s) (hstep : engineStep s = .next t) : StorageInv t := by
  unfold engineStep at hstep
  split at hstep
  · cases hstep
    exact h
  · exact storageInv_stepCompress h hstep
  · exact storageInv_stepDecompress h hstep

theorem storageInv_writeRegister (offset : Nat) (v : Word) (h : StorageInv s) :
    StorageInv (writeRegister offset v s) := by
  unfold writeRegister
  split
  · unfold writeCtrl
    split_ifs
    · exact h
    · exact storageInv_settleOut (s := setCtrl v s) h
    · exact h
  · unfold writeStatus
    split <;> exact h
  · split <;> exact h
  · split <;> exact h
  · exact h

theorem storageInv_readOutByte (addr : Nat) (h : StorageInv s) : StorageInv (readOutByte addr s) := by
  unfold readOutByte
  split
  · exact h
  · exact storageInv_settleOut h

theorem storageInv_writeOutByte {addr : Nat} (b : Byte) (h : StorageInv s) (haddr : addr + 1 ≤ s.outSize) :
    StorageInv (writeOutByte addr b s) := by
  obtain ⟨hin, hout, htable⟩ := storageInv_settleOut h
  refine ⟨hin, Memory.wf_write _ _ addr b hout ?_, htable⟩
  show addr < (settleOut s).par.outSize.toNat
  rw [settleOut_par]
  exact haddr

theorem storageInv_hostAccess {a : HostAccess} (h : StorageInv s) (hacc : hostAccess a s = .next t) :
    StorageInv t := by
  cases a with
  | readReg addr bytes =>
    obtain ⟨-, -, -, -, hnext⟩ := withinRegisters_next.mp hacc
    cases hnext
    exact h
  | writeReg addr bytes v =>
    obtain ⟨-, -, -, -, hnext⟩ := withinRegisters_next.mp hacc
    cases hnext
    exact storageInv_writeRegister _ v h
  | readIn addr =>
    obtain ⟨-, hnext⟩ := withinIn_next.mp hacc
    cases hnext
    exact h
  | writeIn addr b =>
    obtain ⟨-, hwithin⟩ := whileIdle_next.mp hacc
    obtain ⟨haddr, hnext⟩ := withinIn_next.mp hwithin
    cases hnext
    obtain ⟨hin, hrest⟩ := h
    exact ⟨Memory.wf_write s.inp s.inSize addr b hin haddr, hrest⟩
  | readOut addr =>
    obtain ⟨-, hnext⟩ := withinOut_next.mp hacc
    cases hnext
    exact storageInv_readOutByte addr h
  | writeOut addr b =>
    obtain ⟨-, hwithin⟩ := whileIdle_next.mp hacc
    obtain ⟨haddr, hnext⟩ := withinOut_next.mp hwithin
    cases hnext
    exact storageInv_writeOutByte b h haddr

end

/-- Settles O46: each of the agents that can move keeps the storages canonical. -/
theorem stepKeepsStorageCanonical : Obligations.StepKeepsStorageCanonical := by
  unfold Obligations.StepKeepsStorageCanonical
  intro s t h hstep
  rcases step_cases s with ⟨rest, hs, -⟩ | ⟨a, rest, -, hs⟩ | ⟨rest, hs, -⟩ | ⟨rest, -, hs⟩ <;> rw [hs] at hstep
  · exact storageInv_engineStep (s := { s with turns := rest }) h hstep
  · exact storageInv_hostAccess (s := { s with turns := rest }) h hstep
  · cases hstep
    exact h
  · cases hstep
    exact wf_resetOf s.par s.draws rest

end Sys2Proof.Machine
end

section
/-! Where the invariants hold the engine has a next state (R12, R193, R219): every access of IN, OUT and T lies inside its space. -/

namespace Sys2Proof.Machine

/-! ## The hash index lies in T (R122) -/

/-- HASH keeps the top `tableBits` of 32 bits (R121). -/
theorem hashIndex_lt (key : Word) (tableBits : Nat) (h : tableBits ≤ 32) :
    hashIndex key (32 - tableBits) < 2 ^ tableBits := by
  rw [hashIndex, BitVec.toNat_ushiftRight, Nat.shiftRight_eq_div_pow]
  refine Nat.div_lt_of_lt_mul ?_
  rw [← pow_add, Nat.sub_add_cancel h]
  exact BitVec.isLt _

section
variable {s : State}

theorem hashAt_lt (h : Searched s) (p : Nat) : hashAt s p < 2 ^ s.enc.tableBits := by
  obtain ⟨-, -, hbits, hshift, -⟩ := h
  have hle := tableBitsOf_le (s.enc.blockEnd - s.enc.blockStart)
  rw [hashAt, hshift]
  exact hashIndex_lt _ _ (by omega)

theorem hashAt_lt_tableEntries (h : Searched s) (p : Nat) : hashAt s p < Config.tableEntries := by
  have ⟨_, _, hbits, _⟩ := h
  refine lt_of_lt_of_le (hashAt_lt h p) ?_
  rw [hbits]
  exact two_pow_tableBitsOf_le _

/-! ## The candidates lie before the position probed (R131) -/

theorem candidate_probeAt_lt {p : Nat} (hs : Searched s) (hentries : EntriesBelow s (p - s.enc.blockStart)) :
    (probeAt p s).enc.candidate < s.enc.blockStart + (p - s.enc.blockStart) :=
  Nat.add_lt_add_left (hentries _ (hashAt_lt hs p)) _

/-- INSERT leaves the geometry and clears nothing. -/
theorem searched_insertAt {p : Nat} (h : Searched s) : Searched (insertAt p s) := by
  obtain ⟨hblock, hlimit, hbits, hshift, hzeroed⟩ := h
  refine ⟨hblock, hlimit, hbits, hshift, ?_⟩
  rw [insertAt_table, Table.zeroed_set]
  exact hzeroed

/-- INSERT of an earlier position keeps the entries below the next one. -/
theorem entriesBelow_insertAt {p bound : Nat} (hentries : EntriesBelow s bound) (hp : p - s.enc.blockStart < bound) :
    EntriesBelow (insertAt p s) bound := by
  intro i hi
  rw [insertAt_table, Table.get_set]
  split
  · rw [BitVec.toNat_ofNat]
    exact lt_of_le_of_lt (Nat.mod_le _ _) hp
  · exact hentries i hi

/-! ## There is room in IN and OUT (R192, R193) -/

theorem blockEnd_le_inLen (h : InsideBlock s) : s.enc.blockEnd ≤ s.inLen := by
  obtain ⟨hpos, -, -, hend, -⟩ := h
  omega

/-- The bound of R192, from what is written for the input below `covered` (R193). -/
theorem le_outSize_of_covered {op blockStart covered : Nat} (hc : CapacityChecked s) (hstart : blockStart ≤ covered)
    (hcovered : covered ≤ s.inLen) (hop : 60 * op ≤ 360 + 70 * blockStart + 61 * (covered - blockStart)) :
    op ≤ s.outSize := by
  obtain ⟨-, hmax, -⟩ := hc
  rw [maxCompressedLength] at hmax
  omega

/-- The pending literal up to `upTo` fits. -/
theorem literalBytes_fit {upTo : Nat} (hc : CapacityChecked s) (hb : InsideBlock s) (hw : Written s s.enc.nextEmit 0)
    (hfrom : s.enc.nextEmit ≤ upTo) (hto : upTo ≤ s.enc.blockEnd) :
    s.enc.op + (literalBytes s.enc.nextEmit (upTo - s.enc.nextEmit) s).length ≤ s.outSize := by
  have hend := blockEnd_le_inLen hb
  obtain ⟨-, -, -, -, hstart, -⟩ := hb
  have hheader := length_literalHeader_le s.par.litExtWidth (upTo - s.enc.nextEmit)
  rw [length_literalBytes]
  refine le_outSize_of_covered (blockStart := s.enc.blockStart) (covered := upTo) hc (by omega) (by omega) ?_
  simp only [Written] at hw
  omega

/-- The copy of the match fits. -/
theorem copyBytes_fit (h : AtExtend s) (off : Nat) :
    s.enc.op + (copyBytes off s.enc.matched).length ≤ s.outSize := by
  obtain ⟨hc, hb, -, ⟨hbase, -, -, -, -, hmin, hmatch, -⟩, -, hw⟩ := h
  have hend := blockEnd_le_inLen hb
  have hlen := length_copyBytes_lt off s.enc.matched hmin
  refine le_outSize_of_covered (blockStart := s.enc.blockStart) (covered := s.enc.base + s.enc.matched) hc
    (by omega) (by omega) ?_
  simp only [Written] at hw
  omega

/-! ## COMPRESS goes on -/

theorem compressStart_goesOn : ∃ t, compressStart s = .next t := by
  have hlen := length_varintBytes_le s.regs.inLen
  by_cases hin : s.inSize < s.inLen
  · exact ⟨_, compressStart_next.mpr (.inl ⟨hin, rfl⟩)⟩
  · by_cases hout : s.outSize < maxCompressedLength s.inLen
    · exact ⟨_, compressStart_next.mpr (.inr (.inl ⟨by omega, hout, rfl⟩))⟩
    · have hfit : (varintBytes s.regs.inLen).length ≤ s.outSize := by
        rw [maxCompressedLength] at hout
        omega
      exact ⟨_, compressStart_next.mpr (.inr (.inr ⟨by omega, by omega, hfit, rfl⟩))⟩

theorem compressBlock_goesOn : ∃ t, compressBlock s = .next t := by
  by_cases h : s.enc.inPos < s.inLen
  · exact ⟨_, compressBlock_next.mpr (.inl ⟨h, rfl⟩)⟩
  · exact ⟨_, compressBlock_next.mpr (.inr ⟨by omega, rfl⟩)⟩

theorem compressSearch_goesOn (h : AtSearch s) : ∃ t, compressSearch s = .next t := by
  obtain ⟨hc, hb, hs, hip, -, -, -, hentries, -⟩ := h
  have hend := blockEnd_le_inLen hb
  have hcand := candidate_probeAt_lt hs hentries
  have ⟨_, hlimit, _⟩ := hs
  obtain ⟨hin, -⟩ := hc
  simp only [Config.inputMargin] at hlimit
  by_cases hmore : s.enc.ipLimit < s.enc.ip
  · exact ⟨_, compressSearch_next.mpr (.inl ⟨hmore, rfl⟩)⟩
  · exact ⟨_, compressSearch_next.mpr
      (.inr ⟨by omega, by omega, hashAt_lt_tableEntries hs _, by omega, rfl⟩)⟩

theorem compressLiteral_goesOn (h : AtLiteral s) : ∃ t, compressLiteral s = .next t := by
  obtain ⟨hc, hb, ⟨-, hlimit, -⟩, hemit, -, hip, -, -, -, -, hw⟩ := h
  have hend := blockEnd_le_inLen hb
  have hfit := literalBytes_fit hc hb hw hemit.le (by omega)
  obtain ⟨hin, -⟩ := hc
  exact ⟨_, compressLiteral_next.mpr ⟨by omega, hfit, rfl⟩⟩

theorem compressExtend_goesOn (h : AtExtend s) : ∃ t, compressExtend s = .next t := by
  obtain ⟨⟨hin, -⟩, hb, -, ⟨-, -, -, -, hcand, -⟩, -⟩ := h
  have hend := blockEnd_le_inLen hb
  exact ⟨_, compressExtend_next.mpr ⟨fun hmore => ⟨by omega, by omega⟩, rfl⟩⟩

theorem compressCopy_goesOn (h : AtCopy s) : ∃ t, compressCopy s = .next t :=
  ⟨_, compressCopy_next.mpr ⟨copyBytes_fit h.1 _, _, rfl, rfl⟩⟩

theorem compressChain_goesOn (h : AtChain s) : ∃ t, compressChain s = .next t := by
  obtain ⟨hc, hb, hs, hip, -, hentries, -⟩ := h
  have hend := blockEnd_le_inLen hb
  have ⟨_, hlimit, _⟩ := hs
  obtain ⟨hin, -⟩ := hc
  simp only [Config.inputMargin] at hlimit
  have hentries' := entriesBelow_insertAt (p := s.enc.ip - 1) hentries (by omega)
  have hcand : (chainProbed s).enc.candidate < s.enc.blockStart + (s.enc.ip - s.enc.blockStart) :=
    candidate_probeAt_lt (s := insertAt (s.enc.ip - 1) s) (searched_insertAt hs) hentries'
  by_cases hmore : s.enc.ipLimit ≤ s.enc.ip
  · exact ⟨_, compressChain_next.mpr (.inl ⟨hmore, rfl⟩)⟩
  · exact ⟨_, compressChain_next.mpr (.inr ⟨by omega, by omega, hashAt_lt_tableEntries hs _, by omega,
      hashAt_lt_tableEntries hs _, by omega, rfl⟩)⟩

theorem compressTrailing_goesOn (h : AtTrailing s) : ∃ t, compressTrailing s = .next t := by
  obtain ⟨hc, hb, hw⟩ := h
  have hend := blockEnd_le_inLen hb
  by_cases hmore : s.enc.nextEmit < s.enc.blockEnd
  · have hfit := literalBytes_fit hc hb hw hmore.le le_rfl
    obtain ⟨hin, -⟩ := hc
    exact ⟨_, compressTrailing_next.mpr (.inl ⟨hmore, by omega, hfit, rfl⟩)⟩
  · exact ⟨_, compressTrailing_next.mpr (.inr ⟨by omega, rfl⟩)⟩

theorem stepCompress_goesOn {place : CompressAt} (h : CompressInv s) (he : s.engine = .compress place) :
    ∃ t, stepCompress place s = .next t := by
  obtain ⟨-, hsearch, hliteral, hextend, hcopy, hchain, htrailing⟩ := h
  cases place with
  | start => exact compressStart_goesOn
  | block => exact compressBlock_goesOn
  | search => exact compressSearch_goesOn (hsearch he)
  | literal => exact compressLiteral_goesOn (hliteral he)
  | extend => exact compressExtend_goesOn (hextend he)
  | copy => exact compressCopy_goesOn (hcopy he)
  | chain => exact compressChain_goesOn (hchain he)
  | trailing => exact compressTrailing_goesOn (htrailing he)

/-! ## DECOMPRESS goes on -/

/-- The sizes the opcodes' checks rely on: IN_LEN bytes lie in IN, and L bytes in OUT (R202, R203, R249). -/
abbrev SizesChecked (s : State) : Prop := s.inLen ≤ s.inSize ∧ s.dec.declared ≤ s.outSize

theorem literalBody_goesOn (len : Nat) (h : SizesChecked s) : ∃ t, literalBody len s = .next t := by
  obtain ⟨hin, hout⟩ := h
  unfold literalBody
  split
  · exact ⟨_, rfl⟩
  · split
    · exact ⟨_, rfl⟩
    · exact ⟨_, withinIn_next.mpr ⟨by omega, withinOut_next.mpr ⟨by omega, rfl⟩⟩⟩

theorem copyBody_goesOn (len off : Nat) (h : SizesChecked s) : ∃ t, copyBody len off s = .next t := by
  obtain ⟨-, hout⟩ := h
  unfold copyBody
  split
  · exact ⟨_, rfl⟩
  · split
    · exact ⟨_, rfl⟩
    · split
      · exact ⟨_, rfl⟩
      · exact ⟨_, withinOut_next.mpr ⟨by omega, rfl⟩⟩

theorem exec_goesOn (i : Instr) (h : SizesChecked s) : ∃ t, exec i s = .next t := by
  rcases exec_cases i s with hi | hi | ⟨off, -, hi⟩ <;> rw [hi]
  · exact literalBody_goesOn _ h
  · unfold extendedLiteral
    split
    · exact ⟨_, rfl⟩
    · exact literalBody_goesOn _ h
  · unfold copyOpcode
    split
    · exact ⟨_, rfl⟩
    · exact copyBody_goesOn _ _ h

theorem checkSizes_goesOn (s : State) : ∃ t, checkSizes s = .next t := by
  unfold checkSizes
  split_ifs <;> exact ⟨_, rfl⟩

theorem decompressStart_goesOn : ∃ t, decompressStart s = .next t := by
  unfold decompressStart
  split
  · exact ⟨_, rfl⟩
  · split
    · exact ⟨_, rfl⟩
    · exact checkSizes_goesOn _

theorem endOfStream_goesOn : ∃ t, endOfStream s = .next t := by
  unfold endOfStream
  split <;> exact ⟨_, rfl⟩

/-- A fetch reads below IN_LEN (R23, R204). -/
theorem fetchedBytes_le (h : s.dec.pos < s.inLen) : s.dec.pos + fetchedBytes s ≤ s.inLen := by
  unfold fetchedBytes operandsPresent
  omega

theorem decompressLoop_goesOn (h : SizesChecked s) : ∃ t, decompressLoop s = .next t := by
  by_cases hmore : s.dec.pos < s.inLen
  · obtain ⟨t, ht⟩ := exec_goesOn (s := enterOpcode s) (fetchInstr s) h
    exact ⟨t, decompressLoop_next.mpr (.inl ⟨hmore, (fetchedBytes_le hmore).trans h.1, ht⟩)⟩
  · obtain ⟨t, ht⟩ := endOfStream_goesOn (s := s)
    exact ⟨t, decompressLoop_next.mpr (.inr ⟨by omega, ht⟩)⟩

theorem stepDecompress_goesOn {place : DecompressAt} (h : DecompressInv s) (he : s.engine = .decompress place) :
    ∃ t, stepDecompress place s = .next t := by
  cases place with
  | start => exact decompressStart_goesOn
  | loop =>
    obtain ⟨hin, -, -, hout, -⟩ := h he
    exact decompressLoop_goesOn ⟨hin, hout⟩

end

/-- Settles O51: each place's invariant puts every access of its step inside the spaces. -/
theorem engineNeverStops : Obligations.EngineNeverStops := by
  unfold Obligations.EngineNeverStops
  intro s hcompress hdecompress
  unfold engineStep
  split
  case h_1 => exact ⟨s, rfl⟩
  case h_2 place he => exact stepCompress_goesOn hcompress he
  case h_3 place he => exact stepDecompress_goesOn hdecompress he

end Sys2Proof.Machine
end

section
/-! What a step leaves alone, and how it leaves the host's registers: an opcode (R42, R206, R213), a step of the engine (R28, R50, R244, R250), an access of the host (R253, R262). -/

namespace Sys2Proof.Machine

/-! ## One opcode (R206, R207, R213) -/

/-- The errors an opcode can raise: the INVALID_BITSTREAM details 1 to 6 (R221, R241). -/
def opcodeErrors : List Error :=
  [.truncLitLen, .truncLitData, .truncCopy, .offsetZero, .offsetTooFar, .outOverflow]

/-- What an opcode that answers next leaves of OUT, of the decoder's cursors and of the host's registers, `n` being the bytes it stands for: it completes or it raises. -/
inductive OpcodeResult (n : Nat) (s t : State) : Prop where
  | completes (hregs : t.regs = s.regs) (hengine : t.engine = s.engine) (hlost : t.outLost = s.outLost)
      (hpos : t.dec.outPos = s.dec.outPos + n)
      (hout : ∀ a, a < s.dec.outPos ∨ s.dec.outPos + n ≤ a → t.out.read a = s.out.read a)
  | raises (e : Error) (he : e ∈ opcodeErrors) (u : State) (ht : t = raiseError e u) (hregs : u.regs = s.regs)
      (htag : u.dec.tagPos = s.dec.tagPos) (hout : u.out = s.out)

/-- What every opcode keeps, whether it completes or raises: L and the tag among the rest. -/
abbrev OpcodeKeeps (s t : State) : Prop :=
  SameButDecoder s t ∧ t.dec.declared = s.dec.declared ∧ t.dec.tagPos = s.dec.tagPos ∧ t.dec.c = s.dec.c

section
variable {s t : State}

theorem opcodeKeeps_refl (s : State) : OpcodeKeeps s s := ⟨⟨rfl, rfl, rfl, rfl, rfl, rfl, rfl⟩, rfl, rfl, rfl⟩

theorem literalBody_result {len : Nat} (h : literalBody len s = .next t) :
    OpcodeKeeps s t ∧ OpcodeResult len s t := by
  rcases literalBody_next h with ⟨-, rfl⟩ | ⟨-, -, rfl⟩ | ⟨-, -, -, -, rfl⟩
  · exact ⟨opcodeKeeps_refl s, .raises .truncLitData (by decide) s rfl rfl rfl rfl⟩
  · exact ⟨opcodeKeeps_refl s, .raises .outOverflow (by decide) s rfl rfl rfl rfl⟩
  · exact ⟨opcodeKeeps_refl s, .completes rfl rfl rfl rfl fun a ha => Memory.read_moveFrom_outside _ _ _ _ _ _ ha⟩

theorem copyBody_result {len off : Nat} (h : copyBody len off s = .next t) :
    OpcodeKeeps s t ∧ OpcodeResult len s t := by
  rcases copyBody_next h with ⟨-, rfl⟩ | ⟨-, -, rfl⟩ | ⟨-, -, -, rfl⟩ | ⟨-, -, -, -, rfl⟩
  · exact ⟨opcodeKeeps_refl s, .raises .offsetZero (by decide) s rfl rfl rfl rfl⟩
  · exact ⟨opcodeKeeps_refl s, .raises .offsetTooFar (by decide) s rfl rfl rfl rfl⟩
  · exact ⟨opcodeKeeps_refl s, .raises .outOverflow (by decide) s rfl rfl rfl rfl⟩
  · exact ⟨opcodeKeeps_refl s, .completes rfl rfl rfl rfl fun a ha => Memory.read_repeatBack_outside _ _ _ _ _ ha⟩

/-- The result does not depend on the decoder's other registers, which a step over operand bytes moves. -/
theorem OpcodeResult.of_step_over {n : Nat} {dec : Dec} (h : OpcodeResult n { s with dec := dec } t)
    (hpos : dec.outPos = s.dec.outPos) (htag : dec.tagPos = s.dec.tagPos) : OpcodeResult n s t := by
  cases h with
  | completes hregs hengine hlost hgrow hout => exact .completes hregs hengine hlost (hpos ▸ hgrow) (hpos ▸ hout)
  | raises e he u ht hregs hutag hout => exact .raises e he u ht hregs (hutag.trans htag) hout

theorem exec_result {i : Instr} (h : exec i s = .next t) : OpcodeKeeps s t ∧ OpcodeResult i.len s t := by
  rcases exec_cases i s with hi | hi | ⟨off, -, hi⟩ <;> rw [hi] at h
  · exact literalBody_result h
  · rcases extendedLiteral_next h with ⟨-, rfl⟩ | ⟨-, hbody⟩
    · exact ⟨opcodeKeeps_refl s, .raises .truncLitLen (by decide) s rfl rfl rfl rfl⟩
    · obtain ⟨hkeeps, hres⟩ := literalBody_result hbody
      exact ⟨hkeeps, hres.of_step_over rfl rfl⟩
  · rcases copyOpcode_next h with ⟨-, rfl⟩ | ⟨-, hbody⟩
    · exact ⟨opcodeKeeps_refl s, .raises .truncCopy (by decide) s rfl rfl rfl rfl⟩
    · obtain ⟨hkeeps, hres⟩ := copyBody_result hbody
      exact ⟨hkeeps, hres.of_step_over rfl rfl⟩

/-- An opcode's error names its tag (R242). -/
theorem errPosOf_opcodeErrors {e : Error} (he : e ∈ opcodeErrors) (s : State) :
    errPosOf e s = BitVec.ofNat 32 s.dec.tagPos := by
  simp only [opcodeErrors, List.mem_cons, List.not_mem_nil, or_false] at he
  rcases he with rfl | rfl | rfl | rfl | rfl | rfl <;> rfl

end

/-- Settles O25: the shared procedures of R206, R207 and R213 complete or raise. -/
theorem opcodeFrame : Obligations.OpcodeFrame := by
  unfold Obligations.OpcodeFrame
  intro i s t h
  obtain ⟨⟨hsame, hdeclared, htag, hc⟩, hres⟩ := exec_result h
  refine ⟨hsame, hdeclared, htag, hc, ?_⟩
  cases hres with
  | completes hregs hengine hlost hpos hout => exact .inl ⟨hregs, hengine, hlost, hpos, hout⟩
  | raises e he u ht hregs hutag hout =>
    subst ht
    refine .inr ⟨e, he, ?_, rfl, rfl, fun a => congrArg (Memory.read · a) hout⟩
    rw [← hregs, ← hutag, ← errPosOf_opcodeErrors he]
    rfl

/-! ## One step of the engine -/

/-- The fields no step of the engine writes (R28, R50, log 11). -/
abbrev EngineFrame (s t : State) : Prop :=
  t.par = s.par ∧ t.inp = s.inp ∧ t.draws = s.draws ∧ t.turns = s.turns ∧ t.rdata = s.rdata

/-- How a step inside a command leaves the host's registers, the mark of OUT and the engine: the command goes on, raises an error (R244) or ends (R250). Only HDR_LEN may be written on the way (R26). -/
inductive CommandStep (s t : State) : Prop where
  | goesOn (hrun : t.engine.running = s.engine.running) (hlost : t.outLost = s.outLost) (hdrLen : Word)
      (hregs : t.regs = { s.regs with hdrLen := hdrLen })
  | raises (e : Error) (u : State) (ht : t = raiseError e u) (hdrLen : Word)
      (hregs : u.regs = { s.regs with hdrLen := hdrLen })
  | ends (u : State) (ht : t = finish u) (hlost : u.outLost = s.outLost) (outLen : Word)
      (hregs : u.regs = { s.regs with outLen := outLen })

section
variable {s t : State}

theorem engineFrame_refl (s : State) : EngineFrame s s := ⟨rfl, rfl, rfl, rfl, rfl⟩

/-- A step that keeps the registers, for a place of the same command. -/
theorem CommandStep.of_regs_eq (hrun : t.engine.running = s.engine.running) (hlost : t.outLost = s.outLost)
    (hregs : t.regs = s.regs) : CommandStep s t :=
  .goesOn hrun hlost s.regs.hdrLen hregs

/-- A step that touches no more than the encoder, OUT, T and the place inside COMPRESS. -/
theorem commandStep_of_sameButEncoder (hrun : t.engine.running = s.engine.running) (h : SameButEncoder s t) :
    EngineFrame s t ∧ CommandStep s t := by
  obtain ⟨hpar, hinp, hregs, -, hlost, hdraws, hturns, hrdata⟩ := h
  exact ⟨⟨hpar, hinp, hdraws, hturns, hrdata⟩, .of_regs_eq hrun hlost hregs⟩

theorem sameButEncoder_refl (s : State) : SameButEncoder s s := ⟨rfl, rfl, rfl, rfl, rfl, rfl, rfl, rfl⟩

theorem setUpBlock_frame (blen : Nat) (s : State) :
    (setUpBlock blen s).engine.running = some .compress ∧ SameButEncoder s (setUpBlock blen s) := by
  unfold setUpBlock
  split <;> exact ⟨rfl, sameButEncoder_refl s⟩

theorem searchProbed_frame (h : s.engine.running = some .compress) :
    (searchProbed s).engine.running = some .compress ∧ SameButEncoder s (searchProbed s) := by
  unfold searchProbed
  split
  · exact ⟨rfl, sameButEncoder_refl s⟩
  · exact ⟨h, sameButEncoder_refl s⟩

theorem extended_frame (h : s.engine.running = some .compress) :
    (extended s).engine.running = some .compress ∧ SameButEncoder s (extended s) := by
  unfold extended
  split
  · exact ⟨h, sameButEncoder_refl s⟩
  · exact ⟨rfl, sameButEncoder_refl s⟩

theorem chained_frame (s : State) :
    (chained s).engine.running = some .compress ∧ SameButEncoder s (chained s) := by
  unfold chained
  split <;> exact ⟨rfl, sameButEncoder_refl s⟩

theorem stepCompress_commandStep {place : CompressAt} (he : s.engine.running = some .compress)
    (hstep : stepCompress place s = .next t) : EngineFrame s t ∧ CommandStep s t := by
  have goesOn (hrun : t.engine.running = some .compress) (h : SameButEncoder s t) :
      EngineFrame s t ∧ CommandStep s t := commandStep_of_sameButEncoder (hrun.trans he.symm) h
  cases place with
  | start =>
    rcases compressStart_next.mp hstep with ⟨-, rfl⟩ | ⟨-, -, rfl⟩ | ⟨-, -, -, rfl⟩
    · exact ⟨engineFrame_refl s, .raises .inLenTooBig s rfl s.regs.hdrLen rfl⟩
    · exact ⟨engineFrame_refl s, .raises .outTooSmall s rfl s.regs.hdrLen rfl⟩
    · exact ⟨engineFrame_refl s, .goesOn he.symm rfl s.regs.inLen rfl⟩
  | block =>
    rcases compressBlock_next.mp hstep with ⟨-, rfl⟩ | ⟨-, rfl⟩
    · obtain ⟨hrun, h⟩ := setUpBlock_frame (min (s.inLen - s.enc.inPos) Config.blockSize) s
      exact goesOn hrun h
    · exact ⟨engineFrame_refl s, .ends _ rfl rfl _ rfl⟩
  | search =>
    rcases compressSearch_next.mp hstep with ⟨-, rfl⟩ | ⟨-, -, -, -, rfl⟩
    · exact goesOn rfl (sameButEncoder_refl s)
    · obtain ⟨hrun, h⟩ := searchProbed_frame (s := probeAt s.enc.ip s) he
      exact goesOn hrun h
  | literal =>
    obtain ⟨-, -, rfl⟩ := compressLiteral_next.mp hstep
    exact goesOn rfl (sameButEncoder_refl s)
  | extend =>
    obtain ⟨-, rfl⟩ := compressExtend_next.mp hstep
    obtain ⟨hrun, h⟩ := extended_frame he
    exact goesOn hrun h
  | copy =>
    obtain ⟨-, _, rfl, rfl⟩ := compressCopy_next.mp hstep
    exact goesOn rfl (sameButEncoder_refl s)
  | chain =>
    rcases compressChain_next.mp hstep with ⟨-, rfl⟩ | ⟨-, -, -, -, -, -, rfl⟩
    · exact goesOn rfl (sameButEncoder_refl s)
    · obtain ⟨hrun, h⟩ := chained_frame (chainProbed s)
      exact goesOn hrun h
  | trailing =>
    rcases compressTrailing_next.mp hstep with ⟨-, -, -, rfl⟩ | ⟨-, rfl⟩
    · exact goesOn rfl (sameButEncoder_refl s)
    · exact goesOn rfl (sameButEncoder_refl s)

/-- One opcode of the loop: the fetch moves only the decoder's registers (R204). -/
theorem opcode_commandStep {i : Instr} (hexec : exec i (enterOpcode s) = .next t) :
    EngineFrame s t ∧ CommandStep s t := by
  obtain ⟨⟨⟨hpar, hinp, -, -, hdraws, hturns, hrdata⟩, -⟩, hres⟩ := exec_result hexec
  refine ⟨⟨hpar, hinp, hdraws, hturns, hrdata⟩, ?_⟩
  cases hres with
  | completes hregs hengine hlost => exact .of_regs_eq (congrArg Engine.running hengine) hlost hregs
  | raises e _ u ht hregs => exact .raises e u ht s.regs.hdrLen hregs

theorem stepDecompress_commandStep {place : DecompressAt} (he : s.engine.running = some .decompress)
    (hstep : stepDecompress place s = .next t) : EngineFrame s t ∧ CommandStep s t := by
  cases place with
  | start =>
    rcases decompressStart_next.mp hstep with ⟨-, rfl⟩ | ⟨-, e, -, rfl⟩ | ⟨-, declared, _, -, hcheck⟩
    · exact ⟨engineFrame_refl s, .raises .inLenTooBig s rfl s.regs.hdrLen rfl⟩
    · exact ⟨engineFrame_refl s, .raises e s rfl s.regs.hdrLen rfl⟩
    · rcases checkSizes_next hcheck with ⟨-, -, rfl⟩ | ⟨-, -, rfl⟩ | ⟨-, -, rfl⟩
      · exact ⟨engineFrame_refl s, .raises .overMaxLen _ rfl declared rfl⟩
      · exact ⟨engineFrame_refl s, .raises .overOutSize _ rfl declared rfl⟩
      · exact ⟨engineFrame_refl s, .goesOn he.symm rfl declared rfl⟩
  | loop =>
    rcases decompressLoop_next.mp hstep with ⟨-, -, hexec⟩ | ⟨-, hend⟩
    · exact opcode_commandStep hexec
    · rcases endOfStream_next.mp hend with ⟨-, rfl⟩ | ⟨-, rfl⟩
      · exact ⟨engineFrame_refl s, .raises .lenShort s rfl s.regs.hdrLen rfl⟩
      · exact ⟨engineFrame_refl s, .ends _ rfl rfl _ rfl⟩

/-- What one step of the engine can do to the registers: nothing while IDLE (R261), else a step inside the command. -/
theorem engineStep_cases (hstep : engineStep s = .next t) :
    (s.engine = .idle ∧ t = s) ∨ (s.busy = true ∧ EngineFrame s t ∧ CommandStep s t) := by
  unfold engineStep at hstep
  split at hstep
  case h_1 he =>
    cases hstep
    exact .inl ⟨he, rfl⟩
  case h_2 place he =>
    exact .inr ⟨by simp [State.busy, he], stepCompress_commandStep (by rw [he]; rfl) hstep⟩
  case h_3 place he =>
    exact .inr ⟨by simp [State.busy, he], stepDecompress_commandStep (by rw [he]; rfl) hstep⟩

theorem engineStep_frame (hstep : engineStep s = .next t) : EngineFrame s t := by
  rcases engineStep_cases hstep with ⟨-, rfl⟩ | ⟨-, hframe, -⟩
  · exact engineFrame_refl t
  · exact hframe

end

/-! ## One access of the host (R253, R262, R263) -/

section
variable (s : State)
@[simp] theorem startCommand_par : (startCommand s).par = s.par := by simp [startCommand]
@[simp] theorem startCommand_engine : (startCommand s).engine = s.regs.op.entry := by simp [startCommand]
@[simp] theorem startCommand_regs : (startCommand s).regs =
    { s.regs with done := false, err := none, outLen := 0#32, hdrLen := 0#32, errPos := 0#32 } := by simp [startCommand]
@[simp] theorem startCommand_inp : (startCommand s).inp = s.inp := by simp [startCommand]
@[simp] theorem startCommand_outLost : (startCommand s).outLost = false := settleOut_outLost s
@[simp] theorem running_entry (op : Command) : op.entry.running = some op := by cases op <;> rfl
end

/-- What an access of the host can do: while a command runs it changes nothing the engine reads (R262); while IDLE it leaves what the last command wrote, or starts a command (R253). -/
inductive HostMove (s t : State) : Prop where
  | whileBusy (hbusy : s.busy = true) (done : Bool) (draws : Nat) (rdata : Word)
      (ht : t = { s with regs := { s.regs with done := done }, draws := draws, rdata := rdata })
      (hdone : done = true → s.regs.done = true)
  | whileIdle (hidle : s.engine = .idle) (hengine : t.engine = .idle) (hpar : t.par = s.par)
      (herr : t.regs.err = s.regs.err) (herrPos : t.regs.errPos = s.regs.errPos)
      (houtLen : t.regs.outLen = s.regs.outLen)
      (hlost : t.outLost = true → s.outLost = true)
  | starts (hidle : s.engine = .idle) (v : Word) (ht : t = startCommand (setCtrl v s))

section
variable {s t : State}

theorem busy_iff : s.busy = true ↔ s.engine ≠ .idle := by simp [State.busy]

theorem busy_eq_false_iff : s.busy = false ↔ s.engine = .idle := by simp [State.busy]

theorem engine_eq_idle (h : ¬s.busy = true) : s.engine = .idle := busy_eq_false_iff.mp (by simpa using h)

/-- An access that leaves everything but `rdata`. -/
theorem hostMove_deliver (v : Word) : HostMove s (deliver v s) := by
  by_cases hidle : s.engine = .idle
  · exact .whileIdle hidle hidle rfl rfl rfl rfl id
  · exact .whileBusy (busy_iff.mpr hidle) s.regs.done s.draws v rfl id

/-- An access that a running command makes the register block ignore. -/
theorem hostMove_refl : HostMove s s := hostMove_deliver s.rdata

theorem hostMove_writeCtrl (v : Word) : HostMove s (writeCtrl v s) := by
  unfold writeCtrl
  split_ifs with hbusy hstart
  · exact hostMove_refl
  · exact .starts (engine_eq_idle hbusy) v rfl
  · have hidle := engine_eq_idle hbusy
    exact .whileIdle hidle hidle rfl rfl rfl rfl id

theorem hostMove_writeStatus (v : Word) : HostMove s (writeStatus v s) := by
  unfold writeStatus
  split
  · by_cases hidle : s.engine = .idle
    · exact .whileIdle hidle hidle rfl rfl rfl rfl id
    · exact .whileBusy (busy_iff.mpr hidle) false s.draws s.rdata rfl (by simp)
  · exact hostMove_refl

theorem hostMove_writeRegister (offset : Nat) (v : Word) : HostMove s (writeRegister offset v s) := by
  unfold writeRegister
  split
  · exact hostMove_writeCtrl v
  · exact hostMove_writeStatus v
  · split_ifs with hbusy
    · exact hostMove_refl
    · have hidle := engine_eq_idle hbusy
      exact .whileIdle hidle hidle rfl rfl rfl rfl id
  · split_ifs with hbusy
    · exact hostMove_refl
    · have hidle := engine_eq_idle hbusy
      exact .whileIdle hidle hidle rfl rfl rfl rfl id
  · exact hostMove_refl

theorem hostMove_writeIn (inp : Memory) (hbusy : s.busy = false) : HostMove s { s with inp := inp } := by
  have hidle := busy_eq_false_iff.mp hbusy
  exact .whileIdle hidle hidle rfl rfl rfl rfl id

/-- An access of OUT settles its contents first, and then writes only OUT and `rdata`. -/
theorem hostMove_settleOut (out : Memory) (rdata : Word) (hidle : s.engine = .idle) :
    HostMove s { settleOut s with out := out, rdata := rdata } :=
  .whileIdle hidle (by simp [hidle]) (by simp) (by simp) (by simp) (by simp) (by simp [settleOut_outLost])

theorem hostMove_readOutByte (addr : Nat) : HostMove s (readOutByte addr s) := by
  unfold readOutByte
  split_ifs with hbusy
  · exact .whileBusy hbusy s.regs.done (s.draws + 1) _ rfl id
  · exact hostMove_settleOut _ _ (engine_eq_idle hbusy)

theorem hostMove_writeOutByte (addr : Nat) (b : Byte) (hbusy : s.busy = false) : HostMove s (writeOutByte addr b s) :=
  hostMove_settleOut _ _ (busy_eq_false_iff.mp hbusy)

theorem hostAccess_cases {a : HostAccess} (h : hostAccess a s = .next t) : HostMove s t := by
  cases a with
  | readReg addr bytes =>
    obtain ⟨-, -, -, -, hnext⟩ := withinRegisters_next.mp h
    cases hnext
    exact hostMove_deliver _
  | writeReg addr bytes v =>
    obtain ⟨-, -, -, -, hnext⟩ := withinRegisters_next.mp h
    cases hnext
    exact hostMove_writeRegister _ v
  | readIn addr =>
    obtain ⟨-, hnext⟩ := withinIn_next.mp h
    cases hnext
    exact hostMove_deliver _
  | writeIn addr b =>
    obtain ⟨hidle, hwithin⟩ := whileIdle_next.mp h
    obtain ⟨-, hnext⟩ := withinIn_next.mp hwithin
    cases hnext
    exact hostMove_writeIn _ hidle
  | readOut addr =>
    obtain ⟨-, hnext⟩ := withinOut_next.mp h
    cases hnext
    exact hostMove_readOutByte addr
  | writeOut addr b =>
    obtain ⟨hidle, hwithin⟩ := whileIdle_next.mp h
    obtain ⟨-, hnext⟩ := withinOut_next.mp hwithin
    cases hnext
    exact hostMove_writeOutByte addr b hidle

end

/-! ## One step -/

/-- A predicate that does not speak of the coming turns holds after every step, if the engine, the host and a reset keep it. -/
theorem step_keeps {P : State → Prop} (hturns : ∀ s rest, P s → P { s with turns := rest })
    (hengine : ∀ s t, P s → engineStep s = .next t → P t)
    (hhost : ∀ s t a, P s → hostAccess a s = .next t → P t)
    (hreset : ∀ s, P s → P (resetState s)) (s t : State) (h : P s) (hstep : step s = .next t) : P t := by
  rcases step_cases s with ⟨rest, hs, -⟩ | ⟨a, rest, -, hs⟩ | ⟨rest, hs, -⟩ | ⟨rest, -, hs⟩ <;>
    rw [hs] at hstep
  · exact hengine _ t (hturns s rest h) hstep
  · exact hhost _ t a (hturns s rest h) hstep
  · cases hstep
    exact hturns s rest h
  · cases hstep
    exact hreset _ (hturns s rest h)

end Sys2Proof.Machine
end

section
/-! The invariants every step keeps: the parameters and IN (R28, R50), the registers' agreement with the engine (R22, R244, R250, R262) and the bounds of the decoder's cursors (R219). -/

namespace Sys2Proof.Machine

/-! ## The parameters and IN (R28, R50) -/

theorem hostAccess_par {s t : State} {a : HostAccess} (h : hostAccess a s = .next t) : t.par = s.par := by
  cases hostAccess_cases h with
  | whileBusy _ _ _ _ ht => rw [ht]
  | whileIdle _ _ hpar => exact hpar
  | starts _ v ht => rw [ht, startCommand_par, setCtrl_par]

/-- Settles O47: the engine's frame, and what an access or a reset keeps. -/
theorem parametersAndInputAreKept : Obligations.ParametersAndInputAreKept := by
  unfold Obligations.ParametersAndInputAreKept
  refine ⟨fun s t hstep => ?_, fun s t hstep => ?_⟩
  · refine step_keeps (P := fun u => u.par = s.par) (fun _ _ h => h) (fun u v h hv => ?_) (fun u v a h hv => ?_)
      (fun _ h => h) s t rfl hstep
    · obtain ⟨hpar, -⟩ := engineStep_frame hv
      exact hpar.trans h
    · exact (hostAccess_par hv).trans h
  · obtain ⟨-, hinp, -⟩ := engineStep_frame hstep
    exact hinp

/-! ## The registers agree with the engine (R22, R30, R244, R250) -/

section
variable {s t : State}

/-- An engine that stands IDLE agrees with registers that name an error exactly as R25 and R27 say. -/
theorem statusInv_of_idle (hidle : s.engine = .idle) (herrPos : s.regs.err = none → s.regs.errPos = 0#32)
    (houtLen : s.regs.err ≠ none → s.regs.outLen = 0#32) (hlost : s.outLost = true → s.regs.err ≠ none) :
    StatusInv s := by
  have hbusy := busy_eq_false_iff.mpr hidle
  exact ⟨by simp [hbusy], .inl (by rw [hidle]; rfl), herrPos, houtLen, fun h => ⟨hbusy, hlost h⟩⟩

/-- OUT is not marked while a command runs (log 7). -/
theorem outLost_eq_false (h : StatusInv s) (hbusy : s.busy = true) : s.outLost = false := by
  obtain ⟨-, -, -, -, hlost⟩ := h
  by_contra hl
  simp [(hlost (by simpa using hl)).1] at hbusy

theorem CommandStep.statusInv (hstep : CommandStep s t) (hbusy : s.busy = true) (h : StatusInv s) : StatusInv t := by
  have hnotLost := outLost_eq_false h hbusy
  obtain ⟨hwhile, hrun, herrPos, houtLen, -⟩ := h
  cases hstep with
  | goesOn hrun' hlost hdrLen hregs =>
    rw [StatusInv, hregs, hrun', hlost, hnotLost]
    exact ⟨fun _ => hwhile hbusy, hrun, herrPos, houtLen, by simp⟩
  | raises e u ht hdrLen hregs =>
    subst ht
    exact statusInv_of_idle rfl (by simp) (fun _ => rfl) (by simp)
  | ends u ht hlost outLen hregs =>
    subst ht
    exact statusInv_of_idle rfl (fun _ => rfl) (by simp) (by simp [hlost, hnotLost])

theorem statusInv_engineStep (h : StatusInv s) (hstep : engineStep s = .next t) : StatusInv t := by
  rcases engineStep_cases hstep with ⟨-, rfl⟩ | ⟨hbusy, -, hcommand⟩
  · exact h
  · exact hcommand.statusInv hbusy h

theorem statusInv_resetState (s : State) : StatusInv (resetState s) :=
  statusInv_of_idle rfl (fun _ => rfl) (fun _ => rfl) nofun

theorem statusInv_startCommand (s : State) : StatusInv (startCommand s) := by
  simp [StatusInv]

theorem HostMove.statusInv (hmove : HostMove s t) (h : StatusInv s) : StatusInv t := by
  cases hmove with
  | whileBusy hbusy done draws rdata ht hdone =>
    subst ht
    obtain ⟨hwhile, hrest⟩ := h
    obtain ⟨hnotDone, hclear⟩ := hwhile hbusy
    refine ⟨fun _ => ⟨?_, hclear⟩, hrest⟩
    rw [hnotDone] at hdone
    simpa using hdone
  | whileIdle hidle hengine hpar herr herrPos houtLen hlost =>
    obtain ⟨-, -, herrPos', houtLen', hlost'⟩ := h
    rw [← herr, ← herrPos] at herrPos'
    rw [← herr, ← houtLen] at houtLen'
    exact statusInv_of_idle hengine herrPos' houtLen' fun hl => herr ▸ (hlost' (hlost hl)).2
  | starts hidle v ht =>
    subst ht
    exact statusInv_startCommand _

end

/-- Settles O48: a step of the running command, an access of the host and a reset each keep the agreement. -/
theorem stepKeepsStatusConsistent : Obligations.StepKeepsStatusConsistent := by
  unfold Obligations.StepKeepsStatusConsistent
  exact step_keeps (fun _ _ h => h) (fun _ _ h hstep => statusInv_engineStep h hstep)
    (fun _ _ _ h hacc => (hostAccess_cases hacc).statusInv h)
    (fun s _ => statusInv_resetState s)

end Sys2Proof.Machine
end

section
/-! Every step keeps the bounds of the decoder's cursors (R26, R202, R203, R219). -/

namespace Sys2Proof.Machine

/-! ## The header ends inside the stream (R102) -/

theorem varintDecodeAux_pos_le {fuel : Nat} {bytes : List Byte} {result v : Word} {shift pos pos' : Nat}
    (h : varintDecodeAux fuel bytes result shift pos = .ok (v, pos')) : pos' ≤ pos + bytes.length := by
  induction fuel generalizing bytes result shift pos with
  | zero => simp [varintDecodeAux] at h
  | succ fuel ih =>
    cases bytes with
    | nil => simp [varintDecodeAux] at h
    | cons b rest =>
      rw [varintDecodeAux] at h
      rw [List.length_cons]
      split_ifs at h
      · obtain ⟨-, rfl⟩ : _ ∧ pos + 1 = pos' := by simpa using h
        omega
      · have := ih h
        omega

theorem varintDecode_headerWindow_pos_le {s : State} {v : Word} {pos : Nat}
    (h : varintDecode (headerWindow s) = .ok (v, pos)) : pos ≤ s.inLen := by
  have hpos := varintDecodeAux_pos_le h
  rw [headerWindow, Memory.length_readBytes] at hpos
  omega

/-! ## One opcode, and one step -/

section
variable {s t : State}

/-- The checks of LiteralBody put the cursors inside the stream and inside L (R206). -/
theorem literalBody_bounds {len : Nat} (h : literalBody len s = .next t) :
    t.engine = .idle ∨ (t.dec.pos ≤ s.inLen ∧ t.dec.outPos ≤ s.dec.declared) := by
  rcases literalBody_next h with ⟨-, rfl⟩ | ⟨-, -, rfl⟩ | ⟨hin, hout, -, -, rfl⟩
  · exact .inl rfl
  · exact .inl rfl
  · exact .inr ⟨hin, hout⟩

/-- The checks of CopyBody put `outPos` inside L, and `pos` stands (R213). -/
theorem copyBody_bounds {len off : Nat} (h : copyBody len off s = .next t) :
    t.engine = .idle ∨ (t.dec.pos = s.dec.pos ∧ t.dec.outPos ≤ s.dec.declared) := by
  rcases copyBody_next h with ⟨-, rfl⟩ | ⟨-, -, rfl⟩ | ⟨-, -, -, rfl⟩ | ⟨-, -, hout, -, rfl⟩
  · exact .inl rfl
  · exact .inl rfl
  · exact .inl rfl
  · exact .inr ⟨rfl, hout⟩

theorem exec_bounds {i : Instr} (h : exec i s = .next t) :
    t.engine = .idle ∨ (t.dec.pos ≤ s.inLen ∧ t.dec.outPos ≤ s.dec.declared) := by
  rcases exec_cases i s with hi | hi | ⟨off, -, hi⟩ <;> rw [hi] at h
  · exact literalBody_bounds h
  · rcases extendedLiteral_next h with ⟨-, rfl⟩ | ⟨-, hbody⟩
    · exact .inl rfl
    · exact (literalBody_bounds hbody :)
  · rcases copyOpcode_next h with ⟨-, rfl⟩ | ⟨hin, hbody⟩
    · exact .inl rfl
    · rcases copyBody_bounds hbody with hidle | ⟨hpos, hout⟩
      · exact .inl hidle
      · exact .inr ⟨hpos ▸ hin, hout⟩

/-- An engine that is not in the opcode loop meets the decoder's bounds. -/
theorem decompressInv_of_idle (h : s.engine = .idle) : DecompressInv s := fun he => by simp [h] at he

theorem decompressInv_decompressStart (h : decompressStart s = .next t) : DecompressInv t := by
  rcases decompressStart_next.mp h with ⟨-, rfl⟩ | ⟨-, e, -, rfl⟩ | ⟨hin, declared, pos, hheader, hcheck⟩
  · exact decompressInv_of_idle rfl
  · exact decompressInv_of_idle rfl
  · have hpos := varintDecode_headerWindow_pos_le hheader
    rcases checkSizes_next hcheck with ⟨-, -, rfl⟩ | ⟨-, -, rfl⟩ | ⟨hcap, hout, rfl⟩
    · exact decompressInv_of_idle rfl
    · exact decompressInv_of_idle rfl
    · exact fun _ => ⟨hin, hpos, Nat.zero_le _, hout, rfl, hcap⟩

theorem decompressInv_decompressLoop (he : s.engine = .decompress .loop) (hinv : DecompressInv s)
    (h : decompressLoop s = .next t) : DecompressInv t := by
  rcases decompressLoop_next.mp h with ⟨-, -, hexec⟩ | ⟨-, hend⟩
  · rcases exec_bounds hexec with hidle | ⟨hpos, hout⟩
    · exact decompressInv_of_idle hidle
    · obtain ⟨⟨⟨hpar, -⟩, hdeclared, -⟩, hres⟩ := exec_result hexec
      obtain ⟨hin, -, -, hsize, hhdr, hcap⟩ := hinv he
      cases hres with
      | raises e _ u ht => exact decompressInv_of_idle (ht ▸ rfl)
      | completes hregs =>
        intro _
        rw [State.inLen, State.inSize, State.outSize, hpar, hregs, hdeclared]
        exact ⟨hin, hpos, hout, hsize, hhdr, hcap⟩
  · rcases endOfStream_next.mp hend with ⟨-, rfl⟩ | ⟨-, rfl⟩ <;> exact decompressInv_of_idle rfl

/-- The command a step of the engine leaves running is the one that ran. -/
theorem CommandStep.running (h : CommandStep s t) : t.engine = .idle ∨ t.engine.running = s.engine.running := by
  cases h with
  | goesOn hrun => exact .inr hrun
  | raises e u ht => exact .inl (ht ▸ rfl)
  | ends u ht => exact .inl (ht ▸ rfl)

theorem decompressInv_engineStep (hinv : DecompressInv s) (h : engineStep s = .next t) : DecompressInv t := by
  unfold engineStep at h
  split at h
  case h_1 =>
    cases h
    exact hinv
  case h_2 place he =>
    intro hloop
    obtain ⟨-, hcommand⟩ := stepCompress_commandStep (by rw [he]; rfl) h
    rcases hcommand.running with hidle | hrun
    · exact decompressInv_of_idle hidle hloop
    · simp [hloop, he, Engine.running] at hrun
  case h_3 place he =>
    cases place with
    | start => exact decompressInv_decompressStart h
    | loop => exact decompressInv_decompressLoop he hinv h

theorem entry_ne_decompress_loop (op : Command) : op.entry ≠ .decompress .loop := by
  cases op <;> nofun

theorem HostMove.decompressInv (hmove : HostMove s t) (h : DecompressInv s) : DecompressInv t := by
  cases hmove with
  | whileBusy _ _ _ _ ht =>
    subst ht
    exact h
  | whileIdle _ hengine => exact decompressInv_of_idle hengine
  | starts _ v ht =>
    subst ht
    exact fun he => absurd he (entry_ne_decompress_loop _)

end

/-- Settles O49: the start's checks establish the bounds, every opcode's checks keep them, and no access of the host reaches them. -/
theorem stepKeepsDecoderBounds : Obligations.StepKeepsDecoderBounds := by
  unfold Obligations.StepKeepsDecoderBounds
  exact step_keeps (fun _ _ h => h) (fun _ _ h hstep => decompressInv_engineStep h hstep)
    (fun _ _ _ h hacc => (hostAccess_cases hacc).decompressInv h) (fun _ _ => decompressInv_of_idle rfl)

end Sys2Proof.Machine
end

section
/-! Every step keeps the encoder's invariant (R34, R131, R152, R193): each place of COMPRESS hands on what the next place needs. -/

namespace Sys2Proof.Machine

/-! ## The invariant of a place -/

/-- What holds at a place of COMPRESS; nothing is known at its start. -/
def AtPlace : CompressAt → State → Prop
  | .start, _ => True
  | .block, s => AtBlock s
  | .search, s => AtSearch s
  | .literal, s => AtLiteral s
  | .extend, s => AtExtend s
  | .copy, s => AtCopy s
  | .chain, s => AtChain s
  | .trailing, s => AtTrailing s

section
variable {s t : State}

theorem compressInv_iff : CompressInv s ↔ ∀ place, s.engine = .compress place → AtPlace place s := by
  constructor
  · rintro ⟨hblock, hsearch, hliteral, hextend, hcopy, hchain, htrailing⟩ place he
    cases place with
    | start => trivial
    | block => exact hblock he
    | search => exact hsearch he
    | literal => exact hliteral he
    | extend => exact hextend he
    | copy => exact hcopy he
    | chain => exact hchain he
    | trailing => exact htrailing he
  · exact fun h => ⟨h .block, h .search, h .literal, h .extend, h .copy, h .chain, h .trailing⟩

theorem compressInv_of_atPlace {place : CompressAt} (he : s.engine = .compress place) (h : AtPlace place s) :
    CompressInv s := by
  refine compressInv_iff.mpr fun place' he' => ?_
  obtain rfl : place = place' := by simpa [he] using he'
  exact h

/-- Outside COMPRESS nothing is claimed of the encoder. -/
theorem compressInv_of_not_running (h : s.engine.running ≠ some .compress) : CompressInv s :=
  compressInv_iff.mpr fun place he => absurd (by rw [he]; rfl) h

/-! ## What PROBE, TABLE_CLEAR and EQUAL32 give -/

theorem Table.get_clear (t : Table) (n i : Nat) : (t.clear n).get i = if i < n then 0#16 else t.get i := by
  simp only [Table.get, Table.clear, lookup_cellsFrom]
  by_cases h : i < n
  · simp [h, Nat.not_le.mpr h]
  · simp [h, Nat.not_lt.mp h]

theorem equal32_iff (m : Memory) (p q : Nat) :
    equal32 m p q = true ↔ ∀ i, i < 4 → m.read (p + i) = m.read (q + i) := by
  simp only [equal32, Bool.and_eq_true, decide_eq_true_eq]
  constructor
  · rintro ⟨⟨⟨h0, h1⟩, h2⟩, h3⟩ i hi
    interval_cases i
    · exact h0
    · exact h1
    · exact h2
    · exact h3
  · intro h
    exact ⟨⟨⟨h 0 (by omega), h 1 (by omega)⟩, h 2 (by omega)⟩, h 3 (by omega)⟩

theorem searched_probeAt {p : Nat} (h : Searched s) : Searched (probeAt p s) :=
  (searched_insertAt (s := { s with enc := (probeAt p s).enc }) h :)

theorem entriesBelow_probeAt {p bound : Nat} (hentries : EntriesBelow s bound) (hp : p - s.enc.blockStart < bound) :
    EntriesBelow (probeAt p s) bound :=
  (entriesBelow_insertAt (s := { s with enc := (probeAt p s).enc }) hentries hp :)

theorem EntriesBelow.mono {bound bound' : Nat} (h : EntriesBelow s bound) (hle : bound ≤ bound') :
    EntriesBelow s bound' :=
  fun i hi => lt_of_lt_of_le (h i hi) hle

/-! ## Each place hands on to the next -/

theorem atBlock_headerWritten (hin : s.inLen ≤ s.inSize) (hout : maxCompressedLength s.inLen ≤ s.outSize) :
    AtBlock (headerWritten s) := by
  have hlen := length_varintBytes_le s.regs.inLen
  have hop : (headerWritten s).enc.op = (varintBytes s.regs.inLen).length := Nat.zero_add _
  have hpos : (headerWritten s).enc.inPos = 0 := rfl
  rw [AtBlock, hop, hpos]
  exact ⟨⟨hin, hout, rfl⟩, Nat.zero_le _, by omega, fun _ => ⟨rfl, by omega⟩⟩

/-- TABLE_CLEAR leaves 0 in every entry it names (R125). -/
theorem toNat_get_clear_lt (table : Table) {n i bound : Nat} (hi : i < n) (hbound : 0 < bound) :
    ((table.clear n).get i).toNat < bound := by
  rw [Table.get_clear, if_pos hi]
  exact hbound

theorem compressInv_setUpBlock (h : AtBlock s) (hmore : s.enc.inPos < s.inLen) :
    CompressInv (setUpBlock (min (s.inLen - s.enc.inPos) Config.blockSize) s) := by
  obtain ⟨hc, -, -, hnext⟩ := h
  obtain ⟨hmod, hop⟩ := hnext hmore
  have hw : 60 * s.enc.op ≤ 300 + 70 * s.enc.inPos + 61 * (s.enc.inPos - s.enc.inPos) + 60 * 0 := by omega
  generalize hblen : min (s.inLen - s.enc.inPos) Config.blockSize = blen
  have hend : s.enc.inPos + blen = s.enc.inPos + min (s.inLen - s.enc.inPos) Config.blockSize := by rw [hblen]
  have hbits : tableBitsOf blen = tableBitsOf (s.enc.inPos + blen - s.enc.inPos) := by rw [Nat.add_sub_cancel_left]
  have hafter : 0 < s.enc.inPos + 1 - s.enc.inPos := by omega
  have hle := Nat.le_add_right s.enc.inPos blen
  unfold setUpBlock
  split
  next hsearch =>
    have hlimit : s.enc.inPos + blen - Config.inputMargin + Config.inputMargin = s.enc.inPos + blen :=
      Nat.sub_add_cancel (hsearch.trans (Nat.le_add_left _ _))
    exact compressInv_of_atPlace (place := .search) rfl ⟨hc, ⟨hmore, hmod, rfl, hend, le_rfl, hle⟩,
      ⟨Nat.add_le_add_left hsearch _, hlimit, hbits, rfl, le_max_right _ _⟩,
      Nat.lt_succ_self _, Nat.lt_succ_self _, le_rfl, Nat.le_add_right _ _,
      fun i hi => toNat_get_clear_lt s.table hi hafter, hw⟩
  next =>
    exact compressInv_of_atPlace (place := .trailing) rfl ⟨hc, ⟨hmore, hmod, rfl, hend, le_rfl, hle⟩, hw⟩

/-- What PROBE of `ip` leaves, in the search and in the chain step: a candidate in the block before `ip`, and no entry past `ip`. -/
abbrev Probed (u : State) : Prop :=
  CapacityChecked u ∧ InsideBlock u ∧ Searched u ∧ u.enc.blockStart < u.enc.ip ∧
  u.enc.blockStart ≤ u.enc.candidate ∧ u.enc.candidate < u.enc.ip ∧
  EntriesBelow u (u.enc.ip - u.enc.blockStart + 1) ∧ Written u u.enc.nextEmit 0

theorem probed_probeAt (hc : CapacityChecked s) (hb : InsideBlock s) (hs : Searched s)
    (hstart : s.enc.blockStart < s.enc.ip) (hentries : EntriesBelow s (s.enc.ip - s.enc.blockStart))
    (hw : Written s s.enc.nextEmit 0) : Probed (probeAt s.enc.ip s) := by
  have hcand : (probeAt s.enc.ip s).enc.candidate < s.enc.ip := by
    have := candidate_probeAt_lt hs hentries
    omega
  exact ⟨hc, hb, searched_probeAt hs, hstart, Nat.le_add_right _ _, hcand,
    entriesBelow_probeAt (hentries.mono (Nat.le_succ _)) (Nat.lt_succ_self _), hw⟩

/-- The search may go on at any later position (R144, R149). -/
theorem atSearch_goOn {u : State} {ip skip : Nat} (h : Probed u) (hip : u.enc.ip < ip) (hemit : u.enc.nextEmit < ip)
    (hskip : Config.skipInit ≤ skip) (hskip' : skip ≤ Config.skipInit + (ip - u.enc.blockStart)) :
    AtSearch { u with enc := { u.enc with ip := ip, skip := skip } } := by
  obtain ⟨hc, hb, hs, hstart, -, -, hentries, hw⟩ := h
  have hbelow : EntriesBelow u (ip - u.enc.blockStart) := hentries.mono (by omega)
  exact ⟨hc, hb, hs, hstart.trans hip, hemit, hskip, hskip', hbelow, hw⟩

theorem compressInv_searchProbed {u : State} (he : u.engine = .compress .search) (h : Probed u)
    (hemit : u.enc.nextEmit < u.enc.ip) (hip : u.enc.ip ≤ u.enc.ipLimit) (hskip : Config.skipInit ≤ u.enc.skip)
    (hskip' : u.enc.skip ≤ Config.skipInit + (u.enc.ip - u.enc.blockStart)) : CompressInv (searchProbed u) := by
  unfold searchProbed
  split
  next hequal =>
    obtain ⟨hc, hb, hs, hstart, hcand, hcand', hentries, hw⟩ := h
    exact compressInv_of_atPlace (place := .literal) rfl ⟨hc, hb, hs, hemit, hstart, hip, hcand, hcand',
      (equal32_iff _ _ _).mp hequal, hentries, hw⟩
  next =>
    have hmove : 1 ≤ u.enc.skip >>> Config.skipShift := by
      rw [Nat.shiftRight_eq_div_pow]
      exact Nat.div_pos hskip (by decide)
    have ⟨_, _, _, hstart, _⟩ := h
    exact compressInv_of_atPlace (place := .search) he
      (atSearch_goOn h (by omega) (by omega) (by omega) (by omega))

/-- The four equal bytes at `ip` start an extension, the literal up to `ip` being written (R146). -/
theorem atExtend_startExtend {u : State} (hc : CapacityChecked u) (hb : InsideBlock u) (hs : Searched u)
    (hstart : u.enc.blockStart < u.enc.ip) (hip : u.enc.ip ≤ u.enc.ipLimit) (hemit : u.enc.nextEmit ≤ u.enc.ip)
    (hcand : u.enc.blockStart ≤ u.enc.candidate) (hcand' : u.enc.candidate < u.enc.ip)
    (hequal : ∀ i, i < 4 → u.inp.read (u.enc.ip + i) = u.inp.read (u.enc.candidate + i))
    (hentries : EntriesBelow u (u.enc.ip - u.enc.blockStart + 1)) (hw : Written u u.enc.ip 1) :
    AtExtend (startExtend u) := by
  have ⟨_, hlimit, _⟩ := hs
  have hroom : u.enc.ip + Config.minMatch ≤ u.enc.blockEnd := by
    simp only [Config.inputMargin, Config.minMatch] at hlimit ⊢
    omega
  exact ⟨hc, hb, hs, ⟨hstart, hip, hemit, hcand, hcand', le_rfl, hroom, hequal⟩, hentries, hw⟩

/-- The literal up to `upTo` takes its bytes, one more, and at most one more for each 60 (R171 to R173). -/
theorem written_literalBytes {upTo : Nat} (hb : InsideBlock s) (hw : Written s s.enc.nextEmit 0)
    (hfrom : s.enc.nextEmit ≤ upTo) :
    60 * (s.enc.op + (literalBytes s.enc.nextEmit (upTo - s.enc.nextEmit) s).length) ≤
      300 + 70 * s.enc.blockStart + 61 * (upTo - s.enc.blockStart) + 60 * 1 := by
  obtain ⟨-, -, -, -, hstart, -⟩ := hb
  have hheader := length_literalHeader_le s.par.litExtWidth (upTo - s.enc.nextEmit)
  rw [length_literalBytes]
  simp only [Written] at hw
  omega

theorem compressInv_literal (h : AtLiteral s) :
    CompressInv (startExtend (appended (literalBytes s.enc.nextEmit (s.enc.ip - s.enc.nextEmit) s) s)) := by
  obtain ⟨hc, hb, hs, hemit, hstart, hip, hcand, hcand', hequal, hentries, hw⟩ := h
  have hw' := written_literalBytes hb hw hemit.le
  generalize literalBytes s.enc.nextEmit (s.enc.ip - s.enc.nextEmit) s = bytes at hw' ⊢
  exact compressInv_of_atPlace (place := .extend) rfl
    (atExtend_startExtend (u := appended bytes s) hc hb hs hstart hip hemit.le hcand hcand' hequal hentries hw')

theorem compressInv_extended (he : s.engine = .compress .extend) (h : AtExtend s) : CompressInv (extended s) := by
  unfold extended
  split
  next hmore =>
    obtain ⟨hc, hb, hs, ⟨hstart, hbase, hemit, hcand, hcand', hmin, -, hequal⟩, hentries, hw⟩ := h
    obtain ⟨hend, hbyte⟩ := hmore
    have hequal' : ∀ i, i < s.enc.matched + 1 →
        s.inp.read (s.enc.base + i) = s.inp.read (s.enc.candidate + i) := by
      intro i hi
      rcases Nat.lt_succ_iff_lt_or_eq.mp hi with hi | rfl
      · exact hequal i hi
      · exact hbyte
    exact compressInv_of_atPlace (place := .extend) he
      ⟨hc, hb, hs, ⟨hstart, hbase, hemit, hcand, hcand', hmin.trans (Nat.le_succ _), hend, hequal'⟩, hentries,
        hw⟩
  next => exact compressInv_of_atPlace (place := .copy) rfl ⟨h, rfl⟩

theorem compressInv_copied (h : AtCopy s) (u : State)
    (hu : u = appended (copyBytes (s.enc.base - s.enc.candidate) s.enc.matched) s) :
    CompressInv (goCompress .chain { u with enc := { u.enc with nextEmit := u.enc.ip } }) := by
  obtain ⟨⟨hc, hb, hs, ⟨hstart, -, -, -, -, hmin, hroom, -⟩, hentries, hw⟩, hip⟩ := h
  obtain ⟨hpos, hmod, hblock, hend, -, -⟩ := hb
  simp only [Config.minMatch] at hmin
  have hlen := length_copyBytes_lt (s.enc.base - s.enc.candidate) s.enc.matched hmin
  generalize copyBytes (s.enc.base - s.enc.candidate) s.enc.matched = bytes at hu hlen
  have hw' : 60 * (s.enc.op + bytes.length) ≤
      300 + 70 * s.enc.blockStart + 61 * (s.enc.ip - s.enc.blockStart) + 60 * 0 := by
    simp only [Written] at hw
    omega
  have hbelow : EntriesBelow s (s.enc.ip - s.enc.blockStart) := hentries.mono (by omega)
  have hstart' : s.enc.blockStart < s.enc.ip := by omega
  subst hu
  exact compressInv_of_atPlace (place := .chain) rfl
    ⟨hc, ⟨hpos, hmod, hblock, hend, hstart'.le, hip ▸ hroom⟩, hs, hstart', rfl, hbelow, hw'⟩

theorem compressInv_chained {u : State} (h : Probed u) (hip : u.enc.ip < u.enc.ipLimit)
    (hemit : u.enc.ip = u.enc.nextEmit) : CompressInv (chained u) := by
  unfold chained
  split
  next hequal =>
    obtain ⟨hc, hb, hs, hstart, hcand, hcand', hentries, hw⟩ := h
    have hw' : Written u u.enc.ip 1 := by
      simp only [Written] at hw ⊢
      omega
    exact compressInv_of_atPlace (place := .extend) rfl (atExtend_startExtend hc hb hs hstart hip.le hemit.ge
      hcand hcand' ((equal32_iff _ _ _).mp hequal) hentries hw')
  next =>
    have hgo := atSearch_goOn h (Nat.lt_succ_self u.enc.ip) (by omega) (le_refl Config.skipInit) (Nat.le_add_right _ _)
    exact compressInv_of_atPlace (place := .search) rfl hgo

/-- A block leaves at most 70 bytes for each 60 of a full block, and the last block one byte more (R192). -/
theorem compressInv_leaveBlock {u : State} (hc : CapacityChecked u) (hb : InsideBlock u)
    (hw : 60 * u.enc.op ≤ 360 + 70 * u.enc.blockStart + 61 * (u.enc.blockEnd - u.enc.blockStart)) :
    CompressInv (leaveBlock u) := by
  have hend := blockEnd_le_inLen hb
  obtain ⟨hpos, hmod, hblock, hlen, hfrom, hto⟩ := hb
  simp only [Config.blockSize] at hmod hlen
  have hw' : 60 * u.enc.op ≤ 360 + 70 * u.enc.blockEnd := by omega
  have hfull : u.enc.blockEnd < u.inLen →
      u.enc.blockEnd % Config.blockSize = 0 ∧ 60 * u.enc.op ≤ 300 + 70 * u.enc.blockEnd := by
    intro hmore
    simp only [Config.blockSize]
    omega
  exact compressInv_of_atPlace (place := .block) rfl ⟨hc, hend, hw', hfull⟩

theorem compressInv_trailing (h : AtTrailing s) (hemit : s.enc.nextEmit < s.enc.blockEnd) :
    CompressInv (leaveBlock (appended (literalBytes s.enc.nextEmit (s.enc.blockEnd - s.enc.nextEmit) s) s)) := by
  obtain ⟨hc, hb, hw⟩ := h
  have hw' := written_literalBytes hb hw hemit.le
  generalize literalBytes s.enc.nextEmit (s.enc.blockEnd - s.enc.nextEmit) s = bytes at hw' ⊢
  have hw'' : 60 * (s.enc.op + bytes.length) ≤
      360 + 70 * s.enc.blockStart + 61 * (s.enc.blockEnd - s.enc.blockStart) := by omega
  exact compressInv_leaveBlock (u := appended bytes s) hc hb hw''

/-! ## Every step -/

theorem compressInv_of_idle (h : s.engine = .idle) : CompressInv s :=
  compressInv_of_not_running (by rw [h]; nofun)

theorem compressInv_stepCompress {place : CompressAt} (he : s.engine = .compress place) (h : AtPlace place s)
    (hstep : stepCompress place s = .next t) : CompressInv t := by
  cases place with
  | start =>
    rcases compressStart_next.mp hstep with ⟨-, rfl⟩ | ⟨-, -, rfl⟩ | ⟨hin, hout, -, rfl⟩
    · exact compressInv_of_idle rfl
    · exact compressInv_of_idle rfl
    · exact compressInv_of_atPlace (place := .block) rfl (atBlock_headerWritten hin hout)
  | block =>
    rcases compressBlock_next.mp hstep with ⟨hmore, rfl⟩ | ⟨-, rfl⟩
    · exact compressInv_setUpBlock h hmore
    · exact compressInv_of_idle rfl
  | search =>
    obtain ⟨hc, hb, hs, hstart, hemit, hskip, hskip', hentries, hw⟩ := h
    rcases compressSearch_next.mp hstep with ⟨-, rfl⟩ | ⟨hip, -, -, -, rfl⟩
    · exact compressInv_of_atPlace (place := .trailing) rfl ⟨hc, hb, hw⟩
    · exact compressInv_searchProbed he (probed_probeAt hc hb hs hstart hentries hw) hemit hip hskip hskip'
  | literal =>
    obtain ⟨-, -, rfl⟩ := compressLiteral_next.mp hstep
    exact compressInv_literal h
  | extend =>
    obtain ⟨-, rfl⟩ := compressExtend_next.mp hstep
    exact compressInv_extended he h
  | copy =>
    obtain ⟨-, u, hu, rfl⟩ := compressCopy_next.mp hstep
    exact compressInv_copied h u hu
  | chain =>
    obtain ⟨hc, hb, hs, hstart, hemit, hentries, hw⟩ := h
    rcases compressChain_next.mp hstep with ⟨-, rfl⟩ | ⟨hip, -, -, -, -, -, rfl⟩
    · exact compressInv_of_atPlace (place := .trailing) rfl ⟨hc, hb, hw⟩
    · have hentries' := entriesBelow_insertAt (p := s.enc.ip - 1) hentries (by omega)
      exact compressInv_chained (probed_probeAt (s := insertAt (s.enc.ip - 1) s) hc hb (searched_insertAt hs) hstart
        hentries' hw) hip hemit
  | trailing =>
    rcases compressTrailing_next.mp hstep with ⟨hemit, -, -, rfl⟩ | ⟨-, rfl⟩
    · exact compressInv_trailing h hemit
    · obtain ⟨hc, hb, hw⟩ := h
      have ⟨_, _, _, _, hfrom, hto⟩ := hb
      simp only [Written] at hw
      exact compressInv_leaveBlock hc hb (by omega)

theorem compressInv_engineStep (h : CompressInv s) (hstep : engineStep s = .next t) : CompressInv t := by
  unfold engineStep at hstep
  split at hstep
  case h_1 =>
    cases hstep
    exact h
  case h_2 place he => exact compressInv_stepCompress he (compressInv_iff.mp h place he) hstep
  case h_3 place he =>
    obtain ⟨-, hcommand⟩ := stepDecompress_commandStep (by rw [he]; rfl) hstep
    rcases hcommand.running with hidle | hrun
    · exact compressInv_of_idle hidle
    · exact compressInv_of_not_running (by rw [hrun, he]; nofun)

theorem HostMove.compressInv (hmove : HostMove s t) (h : CompressInv s) : CompressInv t := by
  cases hmove with
  | whileBusy _ _ _ _ ht =>
    subst ht
    exact h
  | whileIdle _ hengine => exact compressInv_of_idle hengine
  | starts _ v ht =>
    subst ht
    refine compressInv_iff.mpr fun place he => ?_
    rw [startCommand_engine] at he
    cases hop : (setCtrl v s).regs.op <;> rw [hop] at he <;> cases he
    trivial

end

/-- Settles O50: each place of COMPRESS hands its invariant on, and no access of the host reaches it. -/
theorem stepKeepsEncoderInvariant : Obligations.StepKeepsEncoderInvariant := by
  unfold Obligations.StepKeepsEncoderInvariant
  exact step_keeps (fun _ _ h => h) (fun _ _ h hstep => compressInv_engineStep h hstep)
    (fun _ _ _ h hacc => (hostAccess_cases hacc).compressInv h) (fun _ _ => compressInv_of_idle rfl)

end Sys2Proof.Machine
end

section
/-! Two runs of a command from the same registers, parameters and stream go alike, whatever OUT, T, the working registers and the rest of IN hold (R41, R66, R195, R220, R272): a step of one is answered by a step of the other, and at each place of the engine the two agree on everything that is still to be read. -/

namespace Sys2Proof.Machine

/-! ## What two runs agree on -/

/-- The parts a command starts from: registers, parameters and the bytes of IN below IN_LEN. The engine moves in both. -/
structure SameInput (s s' : State) : Prop where
  turns : s.turns = []
  turns' : s'.turns = []
  regs : s'.regs = s.regs
  par : s'.par = s.par
  engine : s'.engine = s.engine
  inp : ∀ a, a < s.inLen → s'.inp.read a = s.inp.read a

/-- The first `n` bytes of OUT agree. -/
def OutAlike (n : Nat) (s s' : State) : Prop := ∀ a, a < n → s'.out.read a = s.out.read a

/-- In the opcode loop: the cursors, L and the output so far. -/
structure LoopAlike (s s' : State) : Prop where
  pos : s'.dec.pos = s.dec.pos
  outPos : s'.dec.outPos = s.dec.outPos
  declared : s'.dec.declared = s.dec.declared
  out : OutAlike s.dec.outPos s s'

/-- In a block that is not searched, or no longer: its cursors and the output so far. -/
structure BlockAlike (s s' : State) : Prop where
  op : s'.enc.op = s.enc.op
  inPos : s'.enc.inPos = s.enc.inPos
  blockStart : s'.enc.blockStart = s.enc.blockStart
  blockEnd : s'.enc.blockEnd = s.enc.blockEnd
  nextEmit : s'.enc.nextEmit = s.enc.nextEmit
  out : OutAlike s.enc.op s s'

/-- In a block that is searched: all the encoder's registers but the three given ones, the used entries of T and the output so far. -/
structure SearchAlike (candidate base matched : Nat) (s s' : State) : Prop where
  enc : s'.enc = { s.enc with candidate := candidate, base := base, matched := matched }
  table : ∀ i, i < 2 ^ s.enc.tableBits → s'.table.get i = s.table.get i
  out : OutAlike s.enc.op s s'

/-- What two runs agree on at a place of the engine, beside what they started from. -/
def AlikeAt (s s' : State) : Engine → Prop
  | .idle => s.regs.err = none → OutAlike s.regs.outLen.toNat s s'
  | .decompress .start => True
  | .decompress .loop => LoopAlike s s'
  | .compress .start => True
  | .compress .block => s'.enc.op = s.enc.op ∧ s'.enc.inPos = s.enc.inPos ∧ OutAlike s.enc.op s s'
  | .compress .search => ∃ candidate base matched, SearchAlike candidate base matched s s'
  | .compress .literal => ∃ base matched, SearchAlike s.enc.candidate base matched s s'
  | .compress .extend => SearchAlike s.enc.candidate s.enc.base s.enc.matched s s'
  | .compress .copy => SearchAlike s.enc.candidate s.enc.base s.enc.matched s s'
  | .compress .chain => ∃ candidate base matched, SearchAlike candidate base matched s s'
  | .compress .trailing => BlockAlike s s'

/-- Two states of two runs that go alike. -/
structure Alike (s s' : State) : Prop where
  input : SameInput s s'
  place : AlikeAt s s' s.engine

/-- Where the first answer is a next state, the second is one that goes alike. -/
def RepliesAlike (r r' : Result) : Prop := ∀ t, r = .next t → ∃ t', r' = .next t' ∧ Alike t t'

section
variable {s s' t t' : State} {r r' q q' : Result}

theorem RepliesAlike.next (h : Alike t t') : RepliesAlike (.next t) (.next t') := by
  intro u hu
  cases hu
  exact ⟨t', rfl, h⟩

theorem RepliesAlike.ite {p p' : Prop} [Decidable p] [Decidable p'] (hp : p' ↔ p) (h : p → RepliesAlike r r')
    (h' : ¬p → RepliesAlike q q') : RepliesAlike (if p then r else q) (if p' then r' else q') := by
  by_cases hc : p
  · rw [if_pos hc, if_pos (hp.mpr hc)]
    exact h hc
  · rw [if_neg hc, if_neg (mt hp.mp hc)]
    exact h' hc

theorem RepliesAlike.withinIn {a a' n : Nat} (hpar : s'.par = s.par) (ha : a' = a) (h : RepliesAlike r r') :
    RepliesAlike (withinIn s a n r) (withinIn s' a' n r') := by
  intro t ht
  obtain ⟨hfit, hr⟩ := withinIn_next.mp ht
  obtain ⟨t', hr', halike⟩ := h t hr
  exact ⟨t', withinIn_next.mpr ⟨by rw [ha, State.inSize, hpar]; exact hfit, hr'⟩, halike⟩

theorem RepliesAlike.withinOut {a a' n : Nat} (hpar : s'.par = s.par) (ha : a' = a) (h : RepliesAlike r r') :
    RepliesAlike (withinOut s a n r) (withinOut s' a' n r') := by
  intro t ht
  obtain ⟨hfit, hr⟩ := withinOut_next.mp ht
  obtain ⟨t', hr', halike⟩ := h t hr
  exact ⟨t', withinOut_next.mpr ⟨by rw [ha, State.outSize, hpar]; exact hfit, hr'⟩, halike⟩

/-! ## The same input -/

namespace SameInput

theorem inLen (h : SameInput s s') : s'.inLen = s.inLen := by rw [State.inLen, h.regs, State.inLen]

theorem inSize (h : SameInput s s') : s'.inSize = s.inSize := by rw [State.inSize, h.par, State.inSize]

theorem outSize (h : SameInput s s') : s'.outSize = s.outSize := by rw [State.outSize, h.par, State.outSize]

theorem readBytes (h : SameInput s s') {a n : Nat} (hfit : a + n ≤ s.inLen) :
    s'.inp.readBytes a n = s.inp.readBytes a n :=
  Memory.readBytes_congr _ _ _ _ fun i hi => h.inp (a + i) (by omega)

theorem errPosOf_lenShort (h : SameInput s s') : errPosOf .lenShort s' = errPosOf .lenShort s :=
  congrArg Regs.inLen h.regs

/-- Steps that touch no more than the encoder, OUT, T and the place. -/
theorem sameButEncoder (h : SameInput s s') (hs : SameButEncoder s t) (hs' : SameButEncoder s' t')
    (hengine : t'.engine = t.engine) : SameInput t t' := by
  obtain ⟨hpar, hinp, hregs, -, -, -, hturns, -⟩ := hs
  obtain ⟨hpar', hinp', hregs', -, -, -, hturns', -⟩ := hs'
  refine ⟨hturns.trans h.turns, hturns'.trans h.turns', ?_, ?_, hengine, ?_⟩
  · rw [hregs, hregs', h.regs]
  · rw [hpar, hpar', h.par]
  · rw [State.inLen, hregs, hinp, hinp']
    exact h.inp

/-- The same error is raised at the same place. -/
theorem raise (h : SameInput s s') {e : Error} (hpos : errPosOf e s' = errPosOf e s) :
    Alike (raiseError e s) (raiseError e s') where
  input := ⟨h.turns, h.turns', by simp [raiseError, h.regs, hpos], h.par, rfl, h.inp⟩
  place := by simp [AlikeAt]

/-- Both commands end with OUT_LEN = `n`, their outputs agreeing so far. -/
theorem finish (h : SameInput s s') {n n' : Nat} (hn : n' = n) (hout : OutAlike n s s') :
    Alike (finish { s with regs := { s.regs with outLen := BitVec.ofNat 32 n } })
      (finish { s' with regs := { s'.regs with outLen := BitVec.ofNat 32 n' } }) where
  input := ⟨h.turns, h.turns', by simp [Machine.finish, h.regs, hn], h.par, rfl, h.inp⟩
  place := fun _ a ha => hout a (lt_of_lt_of_le ha (by simp [Nat.mod_le]))

end SameInput

/-! ## DECOMPRESS -/

/-- While an opcode runs: as in the loop, and its tag. -/
structure OpcodeAlike (s s' : State) : Prop where
  input : SameInput s s'
  engine : s.engine = .decompress .loop
  loop : LoopAlike s s'
  tagPos : s'.dec.tagPos = s.dec.tagPos

/-- The state in which an opcode completes, given its output. -/
theorem OpcodeAlike.completes (h : OpcodeAlike s s') {out out' : Memory} {dec dec' : Dec} (hpos : dec'.pos = dec.pos)
    (houtPos : dec'.outPos = dec.outPos) (hdeclared : dec'.declared = dec.declared)
    (hout : ∀ a, a < dec.outPos → out'.read a = out.read a) :
    Alike { s with out := out, dec := dec } { s' with out := out', dec := dec' } where
  input := ⟨h.input.turns, h.input.turns', h.input.regs, h.input.par, h.input.engine, h.input.inp⟩
  place := by
    show AlikeAt _ _ s.engine
    rw [h.engine]
    exact ⟨hpos, houtPos, hdeclared, hout⟩

/-- Every error of an opcode names its tag. -/
theorem OpcodeAlike.raise (h : OpcodeAlike s s') {e : Error} (he : e ∈ opcodeErrors) :
    RepliesAlike (.next (raiseError e s)) (.next (raiseError e s')) :=
  .next (h.input.raise (by rw [errPosOf_opcodeErrors he, errPosOf_opcodeErrors he, h.tagPos]))

/-- A step over operand bytes. -/
theorem OpcodeAlike.stepOver (h : OpcodeAlike s s') {k k' n : Nat} :
    OpcodeAlike { s with dec := { s.dec with k := k, pos := s.dec.pos + n } }
      { s' with dec := { s'.dec with k := k', pos := s'.dec.pos + n } } where
  input := ⟨h.input.turns, h.input.turns', h.input.regs, h.input.par, h.input.engine, h.input.inp⟩
  engine := h.engine
  loop := ⟨congrArg (· + n) h.loop.pos, h.loop.outPos, h.loop.declared, h.loop.out⟩
  tagPos := h.tagPos

/-- The bytes of a literal come from the stream (R206). -/
theorem read_moveFrom_congr {inp inp' out out' : Memory} {src dst n : Nat}
    (hin : ∀ i, i < n → inp'.read (src + i) = inp.read (src + i))
    (hout : ∀ a, a < dst → out'.read a = out.read a) :
    ∀ a, a < dst + n → (inp'.moveFrom src dst n out').read a = (inp.moveFrom src dst n out).read a := by
  induction n generalizing src dst out out' with
  | zero => exact hout
  | succ n ih =>
    intro a ha
    refine ih (fun i hi => ?_) (fun b hb => ?_) a (by omega)
    · have := hin (i + 1) (by omega)
      rwa [show src + (i + 1) = src + 1 + i by omega] at this
    · rw [Memory.read_write, Memory.read_write]
      split
      · exact hin 0 (by omega)
      · exact hout b (by omega)

/-- The bytes of a copy come from the output so far (R213). -/
theorem read_repeatBack_congr {out out' : Memory} {off dst n : Nat} (hoff : 1 ≤ off) (hdst : off ≤ dst)
    (hout : ∀ a, a < dst → out'.read a = out.read a) :
    ∀ a, a < dst + n → (Memory.repeatBack off dst n out').read a = (Memory.repeatBack off dst n out).read a := by
  induction n generalizing dst out out' with
  | zero => exact hout
  | succ n ih =>
    intro a ha
    refine ih (by omega) (fun b hb => ?_) a (by omega)
    rw [Memory.read_write, Memory.read_write]
    split
    · exact hout _ (by omega)
    · exact hout b (by omega)

theorem literalBody_alike (len : Nat) (h : OpcodeAlike s s') :
    RepliesAlike (literalBody len s) (literalBody len s') := by
  have ⟨hpos, houtPos, hdeclared, hout⟩ := h.loop
  unfold literalBody
  refine .ite (by rw [h.input.inLen, hpos]) (fun _ => h.raise (by decide)) fun hin => ?_
  refine .ite (by rw [hdeclared, houtPos]) (fun _ => h.raise (by decide)) fun _ => ?_
  refine .withinIn h.input.par hpos (.withinOut h.input.par houtPos (.next (h.completes ?_ ?_ hdeclared ?_)))
  · exact congrArg (· + len) hpos
  · exact congrArg (· + len) houtPos
  · rw [hpos, houtPos]
    exact read_moveFrom_congr (fun i hi => h.input.inp _ (by omega)) hout

theorem copyBody_alike (len off : Nat) (h : OpcodeAlike s s') :
    RepliesAlike (copyBody len off s) (copyBody len off s') := by
  have ⟨hpos, houtPos, hdeclared, hout⟩ := h.loop
  unfold copyBody
  refine .ite Iff.rfl (fun _ => h.raise (by decide)) fun hzero => ?_
  refine .ite (by rw [houtPos]) (fun _ => h.raise (by decide)) fun hfar => ?_
  refine .ite (by rw [hdeclared, houtPos]) (fun _ => h.raise (by decide)) fun _ => ?_
  refine .withinOut h.input.par houtPos (.next (h.completes hpos (congrArg (· + len) houtPos) hdeclared ?_))
  rw [houtPos]
  exact read_repeatBack_congr (by omega) (by omega) hout

theorem exec_alike (i : Instr) (h : OpcodeAlike s s') : RepliesAlike (exec i s) (exec i s') := by
  have literal (n : Nat) := literalBody_alike n h
  have extended (k n : Nat) : RepliesAlike (extendedLiteral k n s) (extendedLiteral k n s') :=
    .ite (by rw [h.input.inLen, h.loop.pos, h.input.par]) (fun _ => h.raise (by decide))
      fun _ => literalBody_alike n h.stepOver
  have copy (k n off : Nat) : RepliesAlike (copyOpcode k n off s) (copyOpcode k n off s') :=
    .ite (by rw [h.input.inLen, h.loop.pos]) (fun _ => h.raise (by decide))
      fun _ => copyBody_alike n off h.stepOver
  cases i with
  | lit len => exact literal len
  | litx1 len => exact extended 1 len
  | litx2 len => exact extended 2 len
  | litx3 len => exact extended 3 len
  | litx4 len => exact extended 4 len
  | copy1 len off => exact copy 1 len off
  | copy2 len off => exact copy 2 len off
  | copy4 len off => exact copy 4 len off

/-- The fetch reads the tag and the operand bytes below IN_LEN (R204, R205). -/
theorem fetch_alike (h : SameInput s s') (hloop : LoopAlike s s') (hmore : s.dec.pos < s.inLen) :
    fetchInstr s' = fetchInstr s ∧ fetchedBytes s' = fetchedBytes s := by
  have htag : s'.inp.read s'.dec.pos = s.inp.read s.dec.pos := by rw [hloop.pos, h.inp _ hmore]
  have hpresent (k : Nat) : operandsPresent s' k = operandsPresent s k := by
    rw [operandsPresent, operandsPresent, h.inLen, hloop.pos]
  have hoperands (k : Nat) :
      s'.inp.readLE (s'.dec.pos + 1) (operandsPresent s k) = s.inp.readLE (s.dec.pos + 1) (operandsPresent s k) := by
    rw [Memory.readLE, Memory.readLE, hloop.pos, h.readBytes (by rw [operandsPresent]; omega)]
  refine ⟨?_, ?_⟩
  · simp only [fetchInstr, htag, hpresent, hoperands]
  · simp only [fetchedBytes, htag, hpresent]

theorem decompressLoop_alike (h : SameInput s s') (he : s.engine = .decompress .loop) (hloop : LoopAlike s s') :
    RepliesAlike (decompressLoop s) (decompressLoop s') := by
  unfold decompressLoop endOfStream
  refine .ite (by rw [h.inLen, hloop.pos]) (fun hmore => ?_) fun _ => ?_
  · obtain ⟨hinstr, hbytes⟩ := fetch_alike h hloop hmore
    have hentered : OpcodeAlike (enterOpcode s) (enterOpcode s') :=
      { input := ⟨h.turns, h.turns', h.regs, h.par, h.engine, h.inp⟩
        engine := he
        loop := ⟨congrArg (· + 1) hloop.pos, hloop.outPos, hloop.declared, hloop.out⟩
        tagPos := hloop.pos }
    rw [hinstr, hbytes]
    exact .withinIn h.par hloop.pos (exec_alike _ hentered)
  · refine .ite (by rw [hloop.outPos, hloop.declared])
      (fun _ => .next (h.raise h.errPosOf_lenShort)) fun hlen => .next (h.finish hloop.declared ?_)
    rw [← not_not.mp hlen]
    exact hloop.out

/-- The header decoder fails with an INVALID_HEADER error only (R103, R104, R106). -/
theorem varintDecodeAux_error {fuel : Nat} {bytes : List Byte} {result : Word} {shift pos : Nat} {e : Error}
    (h : varintDecodeAux fuel bytes result shift pos = .error e) :
    e = .tooLong ∨ e = .truncated ∨ e = .overflow := by
  induction fuel generalizing bytes result shift pos with
  | zero => exact .inl (by simpa [varintDecodeAux, eq_comm] using h)
  | succ fuel ih =>
    cases bytes with
    | nil => exact .inr (.inl (by simpa [varintDecodeAux, eq_comm] using h))
    | cons b rest =>
      rw [varintDecodeAux] at h
      split_ifs at h with hover
      · exact .inr (.inr (by simpa [eq_comm] using h))
      · exact ih h

/-- A header error names no offset of the stream (R242). -/
theorem errPosOf_varintDecode {stream : List Byte} {e : Error} (h : varintDecode stream = .error e) (s : State) :
    errPosOf e s = 0#32 := by
  rcases varintDecodeAux_error h with rfl | rfl | rfl <;> rfl

theorem checkSizes_alike (h : SameInput s s') (hdeclared : s'.dec.declared = s.dec.declared)
    (hpos : s'.dec.pos = s.dec.pos) : RepliesAlike (checkSizes s) (checkSizes s') := by
  unfold checkSizes
  refine .ite (by rw [h.regs, hdeclared]) (fun _ => .next (h.raise rfl)) fun _ => ?_
  refine .ite (by rw [h.outSize, hdeclared]) (fun _ => .next (h.raise rfl)) fun _ => .next ?_
  exact
    { input := ⟨h.turns, h.turns', h.regs, h.par, rfl, h.inp⟩
      place := ⟨hpos, rfl, hdeclared, fun a ha => absurd ha (Nat.not_lt_zero a)⟩ }

theorem decompressStart_alike (h : SameInput s s') : RepliesAlike (decompressStart s) (decompressStart s') := by
  have hwindow : headerWindow s' = headerWindow s := by
    rw [headerWindow, headerWindow, h.inLen, h.readBytes (by omega)]
  unfold decompressStart
  refine .ite (by rw [h.inSize, h.inLen]) (fun _ => .next (h.raise rfl)) fun _ => ?_
  rw [hwindow]
  split
  next e he => exact .next (h.raise (by rw [errPosOf_varintDecode he, errPosOf_varintDecode he]))
  next => exact checkSizes_alike ⟨h.turns, h.turns', by simp [h.regs], h.par, h.engine, h.inp⟩ rfl rfl

/-! ## COMPRESS: the operations -/

/-- Both emit the same bytes at the same place (R13). -/
theorem OutAlike.appended {bytes : List Byte} (h : OutAlike s.enc.op s s') (hop : s'.enc.op = s.enc.op) :
    OutAlike (appended bytes s).enc.op (appended bytes s) (appended bytes s') := by
  intro a ha
  rw [appended_outHolds, appended_outHolds, hop]
  split
  · rfl
  · exact h a (by simp only [appended_enc] at ha; omega)

theorem SameInput.literalBytes (h : SameInput s s') {src n : Nat} (hfit : src + n ≤ s.inLen) :
    literalBytes src n s' = literalBytes src n s := by
  rw [Machine.literalBytes, h.par, h.readBytes hfit, Machine.literalBytes]

theorem SameInput.equal32 (h : SameInput s s') {p q : Nat} (hp : p + 4 ≤ s.inLen) (hq : q + 4 ≤ s.inLen) :
    equal32 s'.inp p q = equal32 s.inp p q := by
  rw [Bool.eq_iff_iff, equal32_iff, equal32_iff]
  exact forall₂_congr fun i hi => by rw [h.inp _ (by omega), h.inp _ (by omega)]

/-- At a place inside COMPRESS, only the place and what it agrees on is to be shown. -/
theorem SameInput.alike (h : SameInput s s') (hs : SameButEncoder s t) (hs' : SameButEncoder s' t')
    (hengine : t'.engine = t.engine) (hplace : AlikeAt t t' t.engine) : Alike t t' :=
  ⟨h.sameButEncoder hs hs' hengine, hplace⟩

namespace SearchAlike

variable {c b m : Nat}

/-- The cursors of the block are among the registers. -/
theorem block (h : SearchAlike c b m s s') : BlockAlike s s' where
  op := by rw [h.enc]
  inPos := by rw [h.enc]
  blockStart := by rw [h.enc]
  blockEnd := by rw [h.enc]
  nextEmit := by rw [h.enc]
  out := h.out

theorem ip (h : SearchAlike c b m s s') : s'.enc.ip = s.enc.ip := by rw [h.enc]

theorem ipLimit (h : SearchAlike c b m s s') : s'.enc.ipLimit = s.enc.ipLimit := by rw [h.enc]

theorem appended {bytes : List Byte} (h : SearchAlike c b m s s') :
    SearchAlike c b m (appended bytes s) (appended bytes s') where
  enc := by rw [appended_enc, h.enc, appended_enc]
  table := h.table
  out := h.out.appended h.block.op

/-- The four bytes hashed are bytes of the input (R120, R121). -/
theorem hashAt (h : SearchAlike c b m s s') (hin : SameInput s s') {p : Nat} (hp : p + 4 ≤ s.inLen) :
    hashAt s' p = hashAt s p := by
  rw [Machine.hashAt, load32, Memory.readLE, hin.readBytes hp, h.enc, Machine.hashAt, load32, Memory.readLE]

theorem insertAt (h : SearchAlike c b m s s') (hin : SameInput s s') {p : Nat} (hp : p + 4 ≤ s.inLen) :
    SearchAlike c b m (insertAt p s) (insertAt p s') where
  enc := h.enc
  table := by
    intro i hi
    rw [insertAt_table, insertAt_table, h.hashAt hin hp, h.block.blockStart, Table.get_set, Table.get_set, h.table i hi]
  out := h.out

/-- PROBE reads a used entry: the candidates agree from here on (R126, R131). -/
theorem probeAt (h : SearchAlike c b m s s') (hin : SameInput s s') (hs : Searched s) {p : Nat}
    (hp : p + 4 ≤ s.inLen) :
    SearchAlike (probeAt p s).enc.candidate b m (probeAt p s) (probeAt p s') where
  enc := by rw [probeAt_enc, probeAt_enc, h.hashAt hin hp, h.table _ (hashAt_lt hs p), h.enc]
  table := (h.insertAt hin hp).table
  out := h.out

/-- A match found: `base` and `matched` are set in both (R146). -/
theorem startExtend (h : SearchAlike s.enc.candidate b m s s') :
    SearchAlike s.enc.candidate s.enc.ip Config.minMatch (startExtend s) (startExtend s') where
  enc := by simp only [Machine.startExtend, goCompress_enc, h.enc]
  table := h.table
  out := h.out

end SearchAlike

/-- The block's registers, its cleared table and its place depend on `inPos` and the block's length alone (R141, R143, R125). -/
theorem setUpBlock_alike (h : SameInput s s') (blen : Nat) (hop : s'.enc.op = s.enc.op)
    (hpos : s'.enc.inPos = s.enc.inPos) (hout : OutAlike s.enc.op s s') :
    Alike (setUpBlock blen s) (setUpBlock blen s') := by
  have hclear (i : Nat) (hi : i < 2 ^ tableBitsOf blen) :
      (s'.table.clear (2 ^ tableBitsOf blen)).get i = (s.table.clear (2 ^ tableBitsOf blen)).get i := by
    rw [Table.get_clear, Table.get_clear, if_pos hi, if_pos hi]
  unfold setUpBlock
  split
  · refine h.alike (sameButEncoder_refl s) (sameButEncoder_refl s') rfl
      ⟨s'.enc.candidate, s'.enc.base, s'.enc.matched, ?_, hclear, hout⟩
    simp only [goCompress_enc, hop, hpos]
  · exact h.alike (sameButEncoder_refl s) (sameButEncoder_refl s') rfl
      ⟨hop, hpos, hpos, congrArg (· + blen) hpos, hpos, hout⟩

theorem searchProbed_alike {b m : Nat} (h : SameInput s s') (he : s.engine = .compress .search)
    (ha : SearchAlike s.enc.candidate b m s s') (hip : s.enc.ip + 4 ≤ s.inLen)
    (hcand : s.enc.candidate + 4 ≤ s.inLen) : Alike (searchProbed s) (searchProbed s') := by
  have hequal : equal32 s'.inp s'.enc.ip s'.enc.candidate = equal32 s.inp s.enc.ip s.enc.candidate := by
    rw [ha.enc, h.equal32 hip hcand]
  unfold searchProbed
  rw [hequal]
  split
  · exact h.alike (sameButEncoder_refl s) (sameButEncoder_refl s') rfl ⟨b, m, ha.enc, ha.table, ha.out⟩
  · refine h.alike (sameButEncoder_refl s) (sameButEncoder_refl s') h.engine ?_
    show AlikeAt _ _ s.engine
    rw [he]
    exact ⟨s.enc.candidate, b, m, by rw [ha.enc], ha.table, ha.out⟩

theorem chained_alike {b m : Nat} (h : SameInput s s') (ha : SearchAlike s.enc.candidate b m s s')
    (hip : s.enc.ip + 4 ≤ s.inLen) (hcand : s.enc.candidate + 4 ≤ s.inLen) : Alike (chained s) (chained s') := by
  have hequal : equal32 s'.inp s'.enc.ip s'.enc.candidate = equal32 s.inp s.enc.ip s.enc.candidate := by
    rw [ha.enc, h.equal32 hip hcand]
  unfold chained
  rw [hequal]
  split
  · exact h.alike (sameButEncoder_refl s) (sameButEncoder_refl s') rfl ha.startExtend
  · refine h.alike (sameButEncoder_refl s) (sameButEncoder_refl s') rfl
      ⟨s.enc.candidate, b, m, ?_, ha.table, ha.out⟩
    simp only [resumeSearch, goCompress_enc, ha.enc]

/-! ## COMPRESS: the places -/

theorem compressStart_alike (h : SameInput s s') : RepliesAlike (compressStart s) (compressStart s') := by
  intro t hstep
  rcases compressStart_next.mp hstep with ⟨hin, rfl⟩ | ⟨hin, hout, rfl⟩ | ⟨hin, hout, hfit, rfl⟩
  · exact ⟨_, compressStart_next.mpr (.inl ⟨by rwa [h.inSize, h.inLen], rfl⟩), h.raise rfl⟩
  · exact ⟨_, compressStart_next.mpr
      (.inr (.inl ⟨by rwa [h.inSize, h.inLen], by rwa [h.outSize, h.inLen], rfl⟩)), h.raise rfl⟩
  · refine ⟨_, compressStart_next.mpr (.inr (.inr ⟨by rwa [h.inSize, h.inLen], by rwa [h.outSize, h.inLen],
      by rwa [h.regs, h.outSize], rfl⟩)), ⟨h.turns, h.turns', ?_, h.par, rfl, h.inp⟩, ?_⟩
    · simp [headerWritten, h.regs]
    · have hout : OutAlike 0 s s' := fun a ha => absurd ha (Nat.not_lt_zero a)
      have hwritten := OutAlike.appended (s := { s with enc := { s.enc with op := 0 } })
        (s' := { s' with enc := { s'.enc with op := 0 } }) (bytes := varintBytes s.regs.inLen) hout rfl
      unfold headerWritten
      rw [h.regs]
      exact ⟨rfl, rfl, hwritten⟩

/-- The block is exhausted in both (R144, R148). -/
theorem SearchAlike.trailing {c b m : Nat} (ha : SearchAlike c b m s s') (h : SameInput s s') :
    Alike (goCompress .trailing s) (goCompress .trailing s') :=
  have ⟨hop, hpos, hstart, hend, hemit, hout⟩ := ha.block
  h.alike (sameButEncoder_refl s) (sameButEncoder_refl s') rfl ⟨hop, hpos, hstart, hend, hemit, hout⟩

theorem compressBlock_alike (h : SameInput s s') (hop : s'.enc.op = s.enc.op) (hpos : s'.enc.inPos = s.enc.inPos)
    (hout : OutAlike s.enc.op s s') : RepliesAlike (compressBlock s) (compressBlock s') := by
  unfold compressBlock
  refine .ite (by rw [h.inLen, hpos]) (fun _ => .next ?_) fun _ => .next (h.finish hop hout)
  rw [h.inLen, hpos]
  exact setUpBlock_alike h _ hop hpos hout

/-- The positions hashed in a block, and those compared with them, are positions of its input (R143). -/
theorem searched_le_inLen (hb : InsideBlock s) (hs : Searched s) {p : Nat} (hp : p ≤ s.enc.ipLimit) :
    p + 4 ≤ s.inLen := by
  have hend := blockEnd_le_inLen hb
  obtain ⟨-, hlimit, -⟩ := hs
  simp only [Config.inputMargin] at hlimit
  omega

theorem compressSearch_alike {c b m : Nat} (h : SameInput s s') (he : s.engine = .compress .search) (hinv : AtSearch s)
    (ha : SearchAlike c b m s s') : RepliesAlike (compressSearch s) (compressSearch s') := by
  obtain ⟨hc, hb, hs, hstart, -, -, -, hentries, hw⟩ := hinv
  intro t hstep
  rcases compressSearch_next.mp hstep with ⟨hlimit, rfl⟩ | ⟨hip, hfit, hhash, hcand, rfl⟩
  · exact ⟨_, compressSearch_next.mpr (.inl ⟨by rwa [ha.ip, ha.ipLimit], rfl⟩), ha.trailing h⟩
  · have hin := searched_le_inLen hb hs hip
    have hcandIn : (probeAt s.enc.ip s).enc.candidate + 4 ≤ s.inLen := by
      have := candidate_probeAt_lt hs hentries
      omega
    have hprobe := ha.probeAt h hs hin
    have hin' : SameInput (probeAt s.enc.ip s) (probeAt s.enc.ip s') :=
      h.sameButEncoder (sameButEncoder_refl s) (sameButEncoder_refl s') h.engine
    refine ⟨searchProbed (probeAt s.enc.ip s'), compressSearch_next.mpr (.inr ?_),
      searchProbed_alike hin' he hprobe hin hcandIn⟩
    rw [ha.ip, ha.ipLimit, h.inSize, ha.hashAt h hin, hprobe.enc]
    exact ⟨hip, hfit, hhash, hcand, rfl⟩

theorem compressLiteral_alike {b m : Nat} (h : SameInput s s') (hinv : AtLiteral s)
    (ha : SearchAlike s.enc.candidate b m s s') : RepliesAlike (compressLiteral s) (compressLiteral s') := by
  obtain ⟨-, hb, hs, hemit, -, hip, -⟩ := hinv
  intro t hstep
  obtain ⟨hsrc, hfit, rfl⟩ := compressLiteral_next.mp hstep
  have hin := searched_le_inLen hb hs hip
  have hbytes := h.literalBytes (src := s.enc.nextEmit) (n := s.enc.ip - s.enc.nextEmit) (by omega)
  refine ⟨_, compressLiteral_next.mpr ⟨?_, ?_, rfl⟩, ?_⟩
  · rwa [ha.block.nextEmit, ha.ip, h.inSize]
  · rwa [ha.block.nextEmit, ha.ip, hbytes, ha.block.op, h.outSize]
  · rw [ha.block.nextEmit, ha.ip, hbytes]
    exact h.alike (sameButEncoder_refl s) (sameButEncoder_refl s') rfl
      (SearchAlike.startExtend (s := appended _ s) ha.appended)

theorem compressExtend_alike (h : SameInput s s') (he : s.engine = .compress .extend) (hinv : AtExtend s)
    (ha : SearchAlike s.enc.candidate s.enc.base s.enc.matched s s') :
    RepliesAlike (compressExtend s) (compressExtend s') := by
  obtain ⟨-, hb, -, ⟨-, -, -, -, hcand, -⟩, -⟩ := hinv
  have hend := blockEnd_le_inLen hb
  have henc : s'.enc = s.enc := ha.enc
  intro t hstep
  obtain ⟨hfit, rfl⟩ := compressExtend_next.mp hstep
  refine ⟨extended s', compressExtend_next.mpr ⟨by rwa [henc, h.inSize], rfl⟩, ?_⟩
  have hmore : (s.enc.base + s.enc.matched < s.enc.blockEnd ∧
        s'.inp.read (s.enc.base + s.enc.matched) = s'.inp.read (s.enc.candidate + s.enc.matched)) ↔
      s.enc.base + s.enc.matched < s.enc.blockEnd ∧
        s.inp.read (s.enc.base + s.enc.matched) = s.inp.read (s.enc.candidate + s.enc.matched) :=
    and_congr_right fun hlt => by rw [h.inp _ (by omega), h.inp _ (by omega)]
  unfold extended
  rw [henc, if_congr hmore rfl rfl]
  split
  · refine h.alike (sameButEncoder_refl s) (sameButEncoder_refl s') h.engine ?_
    show AlikeAt _ _ s.engine
    rw [he]
    exact ⟨rfl, ha.table, ha.out⟩
  · exact h.alike (sameButEncoder_refl s) (sameButEncoder_refl s') rfl ⟨rfl, ha.table, ha.out⟩

theorem compressCopy_alike (h : SameInput s s') (ha : SearchAlike s.enc.candidate s.enc.base s.enc.matched s s') :
    RepliesAlike (compressCopy s) (compressCopy s') := by
  have henc : s'.enc = s.enc := ha.enc
  intro t hstep
  obtain ⟨hfit, u, rfl, rfl⟩ := compressCopy_next.mp hstep
  refine ⟨_, compressCopy_next.mpr ⟨by rwa [henc, h.outSize], _, rfl, rfl⟩, ?_⟩
  rw [henc]
  have happ := ha.appended (bytes := copyBytes (s.enc.base - s.enc.candidate) s.enc.matched)
  refine h.alike (sameButEncoder_refl s) (sameButEncoder_refl s') rfl
    ⟨s.enc.candidate, s.enc.base, s.enc.matched, ?_, happ.table, happ.out⟩
  simp only [goCompress_enc, happ.enc]

theorem compressChain_alike {c b m : Nat} (h : SameInput s s') (hinv : AtChain s) (ha : SearchAlike c b m s s') :
    RepliesAlike (compressChain s) (compressChain s') := by
  obtain ⟨hc, hb, hs, hstart, hemit, hentries, hw⟩ := hinv
  intro t hstep
  rcases compressChain_next.mp hstep with ⟨hlimit, rfl⟩ | ⟨hip, hfit, hhash, hfit', hhash', hcand, rfl⟩
  · exact ⟨_, compressChain_next.mpr (.inl ⟨by rwa [ha.ip, ha.ipLimit], rfl⟩), ha.trailing h⟩
  · have hin := searched_le_inLen hb hs hip.le
    have hin' : s.enc.ip - 1 + 4 ≤ s.inLen := by omega
    have hentries' := entriesBelow_insertAt (p := s.enc.ip - 1) hentries (by omega)
    have hcandIn : (chainProbed s).enc.candidate + 4 ≤ s.inLen := by
      have hbefore : (chainProbed s).enc.candidate < s.enc.blockStart + (s.enc.ip - s.enc.blockStart) :=
        candidate_probeAt_lt (s := insertAt (s.enc.ip - 1) s) (searched_insertAt hs) hentries'
      omega
    have hinput : SameInput (insertAt (s.enc.ip - 1) s) (insertAt (s.enc.ip - 1) s') :=
      h.sameButEncoder (sameButEncoder_refl s) (sameButEncoder_refl s') h.engine
    have hinput' : SameInput (chainProbed s) (chainProbed s') :=
      h.sameButEncoder (sameButEncoder_refl s) (sameButEncoder_refl s') h.engine
    have hprobe : SearchAlike (chainProbed s).enc.candidate b m (chainProbed s) (chainProbed s') := by
      unfold chainProbed
      rw [ha.ip]
      exact (ha.insertAt h hin').probeAt hinput (searched_insertAt hs) hin
    refine ⟨chained (chainProbed s'), compressChain_next.mpr (.inr ?_),
      chained_alike hinput' hprobe hin hcandIn⟩
    rw [ha.ip, ha.ipLimit, h.inSize, ha.hashAt h hin, ha.hashAt h hin', hprobe.enc]
    exact ⟨hip, hfit, hhash, hfit', hhash', hcand, rfl⟩

theorem compressTrailing_alike (h : SameInput s s') (hinv : AtTrailing s) (ha : BlockAlike s s') :
    RepliesAlike (compressTrailing s) (compressTrailing s') := by
  obtain ⟨-, hb, -⟩ := hinv
  have hend := blockEnd_le_inLen hb
  intro t hstep
  rcases compressTrailing_next.mp hstep with ⟨hemit, hsrc, hfit, rfl⟩ | ⟨hemit, rfl⟩
  · have hbytes := h.literalBytes (src := s.enc.nextEmit) (n := s.enc.blockEnd - s.enc.nextEmit) (by omega)
    refine ⟨_, compressTrailing_next.mpr (.inl ⟨?_, ?_, ?_, rfl⟩), ?_⟩
    · rwa [ha.nextEmit, ha.blockEnd]
    · rwa [ha.nextEmit, ha.blockEnd, h.inSize]
    · rwa [ha.nextEmit, ha.blockEnd, hbytes, ha.op, h.outSize]
    · rw [ha.nextEmit, ha.blockEnd, hbytes]
      exact h.alike (sameButEncoder_refl s) (sameButEncoder_refl s') rfl
        ⟨by simp [leaveBlock, ha.op], ha.blockEnd, ha.out.appended ha.op⟩
  · exact ⟨_, compressTrailing_next.mpr (.inr ⟨by rwa [ha.nextEmit, ha.blockEnd], rfl⟩),
      h.alike (sameButEncoder_refl s) (sameButEncoder_refl s') rfl ⟨ha.op, ha.blockEnd, ha.out⟩⟩

/-! ## Runs -/

theorem engineStep_alike (h : Alike s s') (hinv : CompressInv s) : RepliesAlike (engineStep s) (engineStep s') := by
  obtain ⟨hin, hplace⟩ := h
  have hat := compressInv_iff.mp hinv
  unfold engineStep
  rw [hin.engine]
  cases he : s.engine with
  | idle => exact .next ⟨hin, hplace⟩
  | decompress place =>
    rw [he] at hplace
    cases place with
    | start => exact decompressStart_alike hin
    | loop => exact decompressLoop_alike hin he hplace
  | compress place =>
    rw [he] at hplace
    have hat := hat place he
    cases place with
    | start => exact compressStart_alike hin
    | block =>
      obtain ⟨hop, hpos, hout⟩ := hplace
      exact compressBlock_alike hin hop hpos hout
    | search =>
      obtain ⟨_, _, _, ha⟩ := hplace
      exact compressSearch_alike hin he hat ha
    | literal =>
      obtain ⟨_, _, ha⟩ := hplace
      exact compressLiteral_alike hin hat ha
    | extend => exact compressExtend_alike hin he hat hplace
    | copy => exact compressCopy_alike hin hplace
    | chain =>
      obtain ⟨_, _, _, ha⟩ := hplace
      exact compressChain_alike hin hat ha
    | trailing => exact compressTrailing_alike hin hat hplace

theorem step_of_turns_nil (h : s.turns = []) : step s = engineStep s := by
  rw [step, h]

theorem core_run_succ {M : Host.Core} {k : Nat} {s t : M.State} :
    M.run (k + 1) s = .next t ↔ ∃ u, M.step s = .next u ∧ M.run k u = .next t := by
  rw [Host.Core.run]
  cases M.step s <;> simp

/-- With no turn listed a step of the machine is the engine's (log 11). -/
theorem run_succ {k : Nat} (h : s.turns = []) : Host.Core.run Sys2Proof.core (k + 1) s = .next t ↔
    ∃ u, engineStep s = .next u ∧ Host.Core.run Sys2Proof.core k u = .next t := by
  rw [← step_of_turns_nil h]
  exact core_run_succ (M := Sys2Proof.core)

theorem run_alike (k : Nat) (h : Alike s s') (hinv : CompressInv s) :
    RepliesAlike (Host.Core.run Sys2Proof.core k s) (Host.Core.run Sys2Proof.core k s') := by
  induction k generalizing s s' with
  | zero => exact .next h
  | succ k ih =>
    intro t hrun
    obtain ⟨u, hstep, hrest⟩ := (run_succ h.input.turns).mp hrun
    obtain ⟨u', hstep', hu⟩ := engineStep_alike h hinv u hstep
    obtain ⟨t', hrest', ht⟩ := ih hu (compressInv_engineStep hinv hstep) t hrest
    exact ⟨t', (run_succ h.input.turns').mpr ⟨u', hstep', hrest'⟩, ht⟩

/-- Two commands started alike: their registers and engines agree after any number of steps, and after a success their outputs. -/
theorem runs_of_same_input {k : Nat} (hin : SameInput s s') (hstart : AlikeAt s s' s.engine) (hinv : CompressInv s)
    (hrun : Host.Core.run Sys2Proof.core k s = .next t) :
    ∃ t', Host.Core.run Sys2Proof.core k s' = .next t' ∧ t'.regs = t.regs ∧ t'.engine = t.engine ∧
      (t.engine = .idle → t.regs.err = none → ∀ a, a < t.regs.outLen.toNat → t'.out.read a = t.out.read a) := by
  obtain ⟨t', hrun', hin', hplace⟩ := run_alike k ⟨hin, hstart⟩ hinv t hrun
  refine ⟨t', hrun', hin'.regs, hin'.engine, fun he => ?_⟩
  rw [he] at hplace
  exact hplace

end

/-- Settles O58: at the start of DECOMPRESS two runs need agree on nothing but the input. -/
theorem decompressDependsOnItsInputOnly : Obligations.DecompressDependsOnItsInputOnly := by
  unfold Obligations.DecompressDependsOnItsInputOnly
  intro s s' k t hturns hturns' he he' hregs hpar hinp hrun
  refine runs_of_same_input ⟨hturns, hturns', hregs, hpar, he'.trans he.symm, hinp⟩ ?_ ?_ hrun
  · rw [he]
    trivial
  · exact compressInv_of_not_running (by rw [he]; nofun)

/-- Settles O59: at the start of COMPRESS two runs need agree on nothing but the input. -/
theorem compressDependsOnItsInputOnly : Obligations.CompressDependsOnItsInputOnly := by
  unfold Obligations.CompressDependsOnItsInputOnly
  intro s s' k t hturns hturns' he he' hregs hpar hinp hrun
  refine runs_of_same_input ⟨hturns, hturns', hregs, hpar, he'.trans he.symm, hinp⟩ ?_ ?_ hrun
  · rw [he]
    trivial
  · exact compressInv_of_atPlace he trivial

end Sys2Proof.Machine
end

section
/-! The host's side: the register block read and written (R21 to R29), START (R253), what the port refuses (R275), the words of STATUS after an error (R240, R241), and reset (R270 to R272). -/

namespace Sys2Proof.Machine

/-! ## The host's turn -/

section
variable {s u : State}

theorem step_of_hostTurn {a : HostAccess} (h : hostTurn s = some (a, u)) : step s = hostAccess a u := by
  unfold hostTurn at h
  split at h
  next rest hturns =>
    cases h
    rw [step, hturns]
  next => cases h

theorem regBase_mod_of_wf {p : Params} (h : p.wf = true) : p.regBase % 4 = 0 := by
  simp only [Params.wf, Bool.and_eq_true, decide_eq_true_eq] at h
  exact h.2

/-- An aligned 32-bit access at an offset of the block is let through (R29, R58). -/
theorem withinRegisters_offset {offset : Nat} (r : Result) (hwf : s.par.wf = true) (hlt : offset < 64)
    (halign : offset % 4 = 0) : withinRegisters s (s.par.regBase + offset) 4 r = r := by
  have hbase := regBase_mod_of_wf hwf
  rw [withinRegisters, registerBlockBytes, if_neg (by omega), if_pos (by omega)]

theorem hostAccess_readReg {offset : Nat} (hwf : s.par.wf = true) (hlt : offset < 64) (halign : offset % 4 = 0) :
    hostAccess (.readReg (s.par.regBase + offset) 4) s = .next (deliver (registerValue s offset) s) := by
  rw [hostAccess, withinRegisters_offset _ hwf hlt halign, Nat.add_sub_cancel_left]

theorem hostAccess_writeReg {offset : Nat} (v : Word) (hwf : s.par.wf = true) (hlt : offset < 64)
    (halign : offset % 4 = 0) :
    hostAccess (.writeReg (s.par.regBase + offset) 4 v) s = .next (writeRegister offset v s) := by
  rw [hostAccess, withinRegisters_offset _ hwf hlt halign, Nat.add_sub_cancel_left]

/-! ## Writes of the register block (R21 to R24, R253, R262) -/

theorem writeCtrl_of_busy (v : Word) (h : s.busy = true) : writeCtrl v s = s := by
  rw [writeCtrl, if_pos h]

theorem writeCtrl_start {v : Word} (h : s.busy = false) (hv : v.getLsbD 0 = true) :
    writeCtrl v s = startCommand (setCtrl v s) := by
  rw [writeCtrl, if_neg (by simp [h]), if_pos (by rwa [writesStart])]

theorem writeCtrl_fields {v : Word} (h : s.busy = false) (hv : v.getLsbD 0 = false) : writeCtrl v s = setCtrl v s := by
  rw [writeCtrl, if_neg (by simp [h]), if_neg (by rw [writesStart, hv]; decide)]

theorem writeStatus_eq (v : Word) (s : State) :
    writeStatus v s = { s with regs := { s.regs with done := s.regs.done && !v.getLsbD 1 } } := by
  unfold writeStatus
  cases v.getLsbD 1 <;> simp

theorem writeRegister_inLen (v : Word) (h : s.busy = false) :
    writeRegister 0x08 v s = { s with regs := { s.regs with inLen := v } } :=
  if_neg (by simp [h])

theorem writeRegister_maxLen (v : Word) (h : s.busy = false) :
    writeRegister 0x0C v s = { s with regs := { s.regs with maxLen := v } } :=
  if_neg (by simp [h])

/-- Read-only and reserved offsets ignore a write (R25 to R29). -/
theorem writeRegister_ignored {offset : Nat} (v : Word) (s : State) (h0 : offset ≠ 0x00) (h4 : offset ≠ 0x04)
    (h8 : offset ≠ 0x08) (hC : offset ≠ 0x0C) : writeRegister offset v s = s := by
  unfold writeRegister
  split
  · exact absurd rfl h0
  · exact absurd rfl h4
  · exact absurd rfl h8
  · exact absurd rfl hC
  · rfl

theorem startCommand_out (h : s.outLost = false) : (startCommand s).out = s.out := by
  simp [startCommand, settleOut, h]

end

/-- Settles O36: START takes CTRL's fields and clears the result of the command before; while BUSY the write is ignored. -/
theorem startBeginsACommand : Obligations.StartBeginsACommand := by
  unfold Obligations.StartBeginsACommand
  intro s u v hturn hwf hv
  have hstep : step s = .next (writeCtrl v u) :=
    (step_of_hostTurn hturn).trans (hostAccess_writeReg (offset := 0) v hwf (by decide) rfl)
  refine ⟨fun hidle => ?_, fun hbusy => by rw [hstep, writeCtrl_of_busy v hbusy]⟩
  rw [hstep, writeCtrl_start hidle hv]
  have hentry : (writtenOp v).entry = if v.getLsbD 1 then .decompress .start else .compress .start := by
    unfold writtenOp
    split <;> rfl
  have hregs := startCommand_regs (setCtrl v u)
  refine ⟨_, rfl, ?_, ?_, (startCommand_engine _).trans hentry, hregs, startCommand_inp _, startCommand_par _,
    startCommand_outLost _, fun hlost => startCommand_out hlost⟩
  · rw [busy_iff, startCommand_engine]
    cases (setCtrl v u).regs.op <;> nofun
  · rw [State.irq, hregs, Bool.false_and]

/-- Settles O37: offset by offset. -/
theorem registerWritesWhileIdle : Obligations.RegisterWritesWhileIdle := by
  unfold Obligations.RegisterWritesWhileIdle
  intro s u offset v hturn hwf hidle hlt halign hnoStart
  rw [step_of_hostTurn hturn, hostAccess_writeReg v hwf hlt halign]
  refine congrArg Host.Outcome.next ?_
  by_cases h0 : offset = 0x00
  · rw [if_pos h0, h0]
    exact writeCtrl_fields hidle (hnoStart h0)
  rw [if_neg h0]
  by_cases h4 : offset = 0x04
  · rw [if_pos h4, h4]
    exact writeStatus_eq v u
  rw [if_neg h4]
  by_cases h8 : offset = 0x08
  · rw [if_pos h8, h8]
    exact writeRegister_inLen v hidle
  rw [if_neg h8]
  by_cases hC : offset = 0x0C
  · rw [if_pos hC, hC]
    exact writeRegister_maxLen v hidle
  rw [if_neg hC]
  exact writeRegister_ignored v u h0 h4 h8 hC

/-! ## The words of CTRL and STATUS (R21, R22, R240, R241) -/

theorem flagBit_le (b : Bool) : flagBit b ≤ 1 := by cases b <;> decide

theorem Error.kindCode_le (e : Error) : e.kindCode ≤ 4 := by cases e <;> decide

theorem Error.detailCode_le (e : Error) : e.detailCode ≤ 7 := by cases e <;> decide

theorem toNat_ctrlWord (s : State) :
    (ctrlWord s).toNat = s.regs.op.code * 2 + flagBit s.regs.maxlenEn * 4 + flagBit s.regs.ie * 8 := by
  have hop : s.regs.op.code ≤ 1 := by cases s.regs.op <;> decide
  have hmaxlen := flagBit_le s.regs.maxlenEn
  have hie := flagBit_le s.regs.ie
  rw [ctrlWord, BitVec.toNat_ofNat, Nat.mod_eq_of_lt (by omega)]

/-- STATUS.ERR as a number, 0 without an error (R22). -/
def errKind (err : Option Error) : Nat := (err.map Error.kindCode).getD 0

/-- STATUS.ERR_DETAIL as a number, 0 without an error (R22). -/
def errDetail (err : Option Error) : Nat := (err.map Error.detailCode).getD 0

theorem errBits_eq (err : Option Error) : errBits err = errKind err * 16 + errDetail err * 256 := by
  cases err <;> rfl

theorem errKind_le (err : Option Error) : errKind err ≤ 4 := by
  cases err with
  | none => exact Nat.zero_le _
  | some e => exact e.kindCode_le

theorem errDetail_le (err : Option Error) : errDetail err ≤ 7 := by
  cases err with
  | none => exact Nat.zero_le _
  | some e => exact e.detailCode_le

theorem toNat_statusWord (s : State) : (statusWord s).toNat =
    flagBit s.busy + flagBit s.regs.done * 2 + (errKind s.regs.err * 16 + errDetail s.regs.err * 256) := by
  have hbusy := flagBit_le s.busy
  have hdone := flagBit_le s.regs.done
  have hkind := errKind_le s.regs.err
  have hdetail := errDetail_le s.regs.err
  rw [statusWord, errBits_eq, BitVec.toNat_ofNat, Nat.mod_eq_of_lt (by omega)]

theorem decide_flagBit (b : Bool) : decide (flagBit b = 1) = b := by cases b <;> rfl

theorem getLsbD_eq_decide (v : Word) (i : Nat) : v.getLsbD i = decide (v.toNat / 2 ^ i % 2 = 1) := by
  rw [← BitVec.testBit_toNat, Nat.testBit_eq_decide_div_mod_eq]

theorem toNat_extractLsb'_eq (v : Word) (start len : Nat) :
    (v.extractLsb' start len).toNat = v.toNat / 2 ^ start % 2 ^ len := by
  rw [BitVec.extractLsb'_toNat, Nat.shiftRight_eq_div_pow]

section
variable (s : State)

theorem statusWord_busy : (statusWord s).getLsbD 0 = s.busy := by
  have hbusy := flagBit_le s.busy
  rw [getLsbD_eq_decide, toNat_statusWord]
  refine (decide_eq_decide.mpr ?_).trans (decide_flagBit s.busy)
  omega

theorem statusWord_done : (statusWord s).getLsbD 1 = s.regs.done := by
  have hbusy := flagBit_le s.busy
  have hdone := flagBit_le s.regs.done
  rw [getLsbD_eq_decide, toNat_statusWord]
  refine (decide_eq_decide.mpr ?_).trans (decide_flagBit s.regs.done)
  omega

theorem statusWord_reserved : (statusWord s).extractLsb' 2 2 = 0#2 := by
  have hbusy := flagBit_le s.busy
  have hdone := flagBit_le s.regs.done
  apply BitVec.eq_of_toNat_eq
  rw [toNat_extractLsb'_eq, toNat_statusWord, BitVec.toNat_ofNat]
  omega

theorem statusWord_err : ((statusWord s).extractLsb' 4 4).toNat = errKind s.regs.err := by
  have hbusy := flagBit_le s.busy
  have hdone := flagBit_le s.regs.done
  have hkind := errKind_le s.regs.err
  rw [toNat_extractLsb'_eq, toNat_statusWord]
  omega

theorem statusWord_errDetail : ((statusWord s).extractLsb' 8 8).toNat = errDetail s.regs.err := by
  have hbusy := flagBit_le s.busy
  have hdone := flagBit_le s.regs.done
  have hkind := errKind_le s.regs.err
  have hdetail := errDetail_le s.regs.err
  rw [toNat_extractLsb'_eq, toNat_statusWord]
  omega

theorem statusWord_upper : (statusWord s).extractLsb' 16 16 = 0#16 := by
  have hbusy := flagBit_le s.busy
  have hdone := flagBit_le s.regs.done
  have hkind := errKind_le s.regs.err
  have hdetail := errDetail_le s.regs.err
  apply BitVec.eq_of_toNat_eq
  rw [toNat_extractLsb'_eq, toNat_statusWord, BitVec.toNat_ofNat]
  omega

theorem registerValue_reserved {offset : Nat} (h : 0x24 ≤ offset) : registerValue s offset = 0#32 := by
  unfold registerValue
  split
  case h_10 => rfl
  all_goals exact absurd h (by decide)

end

/-- Settles O39: the port hands over the register's value, and CTRL and STATUS are sums of their fields in place. -/
theorem registerReads : Obligations.RegisterReads := by
  unfold Obligations.RegisterReads
  refine ⟨fun s u offset hturn hwf hlt halign => ?_, fun s => ⟨?_, statusWord_busy s, statusWord_done s,
    statusWord_reserved s, statusWord_err s, statusWord_errDetail s, statusWord_upper s, rfl, rfl, rfl, rfl, rfl, rfl,
    rfl, fun offset h => registerValue_reserved s h⟩⟩
  · rw [step_of_hostTurn hturn, hostAccess_readReg hwf hlt halign]
    rfl
  · have hop : s.regs.op.code * 2 = if s.regs.op = .decompress then 2 else 0 := by cases s.regs.op <;> rfl
    have hflag (b : Bool) (n : Nat) : flagBit b * n = if b then n else 0 := by cases b <;> simp [flagBit]
    rw [show registerValue s 0x00 = ctrlWord s from rfl, toNat_ctrlWord, hop, hflag, hflag]

/-- STATUS after an error: DONE and the two codes (R240, R241). -/
def errorStatus (e : Error) : Word := BitVec.ofNat 32 (2 + (e.kindCode * 16 + e.detailCode * 256))

theorem statusWord_raiseError (e : Error) (s : State) : statusWord (raiseError e s) = errorStatus e := by
  simp [statusWord, errorStatus, State.busy, flagBit, errBits]

/-- Settles O27: the word after each error is the one of the table. -/
theorem statusReadsErrorCodes : Obligations.StatusReadsErrorCodes := by
  unfold Obligations.StatusReadsErrorCodes
  intro e v s hmem
  rw [statusWord_raiseError]
  simp only [List.mem_cons, Prod.mk.injEq, List.not_mem_nil, or_false] at hmem
  rcases hmem with h | h | h | h | h | h | h | h | h | h | h | h | h | h <;>
    · obtain ⟨rfl, rfl⟩ := h
      rfl

/-! ## What the port refuses (R29, R275) -/

theorem withinRegisters_refused {s : State} {addr bytes : Nat} (r : Result) (hle : s.par.regBase ≤ addr)
    (hlt : addr < s.par.regBase + 64) (hform : ¬(bytes = 4 ∧ addr % 4 = 0)) :
    withinRegisters s addr bytes r = .refused .registerAccessForm := by
  rw [withinRegisters, registerBlockBytes, if_neg (by omega), if_neg hform]

theorem whileIdle_refused {s : State} (r : Result) (h : s.busy = true) :
    whileIdle s r = .refused .hostWriteWhileBusy :=
  if_pos h

/-- Settles O40: the port lets neither access through. -/
theorem undefinedHostAccessesRefused : Obligations.UndefinedHostAccessesRefused := by
  unfold Obligations.UndefinedHostAccessesRefused
  refine fun s u => ⟨fun addr bytes v hle hlt hform => ⟨fun h => ?_, fun h => ?_⟩,
    fun addr b hbusy => ⟨fun h => ?_, fun h => ?_⟩⟩ <;> rw [step_of_hostTurn h]
  · exact withinRegisters_refused _ hle hlt hform
  · exact withinRegisters_refused _ hle hlt hform
  · exact whileIdle_refused _ hbusy
  · exact whileIdle_refused _ hbusy

/-! ## Reset (R270 to R272) -/

theorem step_of_reset {s : State} {rest : List Turn} (h : s.turns = .reset :: rest) :
    step s = .next (resetState { s with turns := rest }) := by
  rw [step, h]

/-- Settles O44: what `State.resetOf` holds, with new draws for the storages. -/
theorem resetAbandonsTheCommand : Obligations.ResetAbandonsTheCommand := by
  unfold Obligations.ResetAbandonsTheCommand
  exact fun s rest h => ⟨_, step_of_reset h, rfl, rfl, rfl, rfl, fun _ => rfl, fun _ => rfl, fun _ => rfl⟩

end Sys2Proof.Machine
end

section
/-! The spaces as the host sees them (R61, R263), and the opcode loop's fetch as the decoder's reading of the bytes from `pos` to IN_LEN (R204, R205). -/

namespace Sys2Proof.Machine

/-! ## Bounds of the spaces (R12) -/

theorem withinIn_of_le {s : State} {a n : Nat} (r : Result) (h : a + n ≤ s.inSize) : withinIn s a n r = r := if_pos h

theorem withinOut_of_le {s : State} {a n : Nat} (r : Result) (h : a + n ≤ s.outSize) : withinOut s a n r = r := if_pos h

theorem whileIdle_of_idle {s : State} (r : Result) (h : s.busy = false) : whileIdle s r = r := if_neg (by simp [h])

/-! ## The opcode loop's step (R204, R205) -/

theorem Memory.take_readBytes (m : Memory) {k n : Nat} (a : Nat) (h : k ≤ n) :
    (m.readBytes a n).take k = m.readBytes a k := by
  obtain ⟨rest, rfl⟩ := Nat.exists_eq_add_of_le h
  rw [Memory.readBytes_append, List.take_left' (m.length_readBytes k a)]

/-- The bytes of IN from `pos` to IN_LEN. -/
def remainingBytes (s : State) : List Byte := s.inp.readBytes s.dec.pos (s.inLen - s.dec.pos)

section
variable {s u : State}

theorem step_of_engineTurn (h : engineTurn s = some u) : step s = engineStep u := by
  unfold engineTurn at h
  split at h
  next hturns =>
    cases h
    rw [step, hturns]
  next rest hturns =>
    cases h
    rw [step, hturns]
  next => cases h
  next rest hturns =>
    split at h
    · cases h
    next hwaits =>
      cases h
      rw [step, hturns]
      exact if_neg hwaits
  next rest hturns =>
    split at h
    · cases h
    next hwaits =>
      cases h
      rw [step, hturns]
      exact if_neg hwaits
  next => cases h

theorem remainingBytes_eq_nil (h : s.inLen ≤ s.dec.pos) : remainingBytes s = [] := by
  rw [remainingBytes, Nat.sub_eq_zero_of_le h, Memory.readBytes]

theorem remainingBytes_eq_cons (h : s.dec.pos < s.inLen) : remainingBytes s =
    s.inp.read s.dec.pos :: s.inp.readBytes (s.dec.pos + 1) (s.inLen - (s.dec.pos + 1)) := by
  rw [remainingBytes, show s.inLen - s.dec.pos = s.inLen - (s.dec.pos + 1) + 1 by omega, Memory.readBytes]

/-- An instruction decoded from the bytes before IN_LEN has its tag there, and is the one the loop fetches. -/
theorem fetchInstr_of_decode {i : Instr} {rest : List Byte} (h : decode (remainingBytes s) = .ok (i, rest)) :
    s.dec.pos < s.inLen ∧ fetchInstr s = i := by
  by_cases hmore : s.dec.pos < s.inLen
  · refine ⟨hmore, ?_⟩
    rw [remainingBytes_eq_cons hmore, decode, Memory.length_readBytes] at h
    split at h
    next => cases h
    next hpresent =>
      have hk := Nat.le_of_not_lt hpresent
      rw [Memory.take_readBytes _ _ hk] at h
      cases h
      rw [fetchInstr, operandsPresent, Nat.min_eq_left hk, Memory.readLE]
  · rw [remainingBytes_eq_nil (Nat.le_of_not_lt hmore), decode] at h
    cases h

end

/-- Settles O18: the fetch finds the decoded instruction, and its bytes lie in IN. -/
theorem stepRunsDecodedOpcode : Obligations.StepRunsDecodedOpcode := by
  unfold Obligations.StepRunsDecodedOpcode
  intro s u i rest hturn hloop hin hdecode
  obtain ⟨hmore, rfl⟩ := fetchInstr_of_decode hdecode
  calc step s = engineStep u := step_of_engineTurn hturn
    _ = decompressLoop u := by rw [engineStep, hloop]; rfl
    _ = exec (fetchInstr u) (enterOpcode u) := by
        rw [decompressLoop, if_pos hmore, withinIn_of_le _ ((fetchedBytes_le hmore).trans hin)]

/-! ## The host's accesses of the spaces (R61, R244, R263) -/

section
variable {s : State} {addr : Nat}

/-- OUT as an access while idle finds it: after an error every byte is a free value (log 7). -/
theorem read_settleOut (s : State) (a : Nat) :
    (settleOut s).out.read a = if s.outLost then Config.freeByte s.draws a else s.out.read a := by
  unfold settleOut
  split <;> rfl

theorem hostAccess_readIn (h : addr < s.inSize) :
    hostAccess (.readIn addr) s = .next (deliver ((s.inp.read addr).setWidth 32) s) :=
  withinIn_of_le _ h

theorem hostAccess_writeIn (b : Byte) (hidle : s.busy = false) (h : addr < s.inSize) :
    hostAccess (.writeIn addr b) s = .next { s with inp := s.inp.write addr b } :=
  (whileIdle_of_idle _ hidle).trans (withinIn_of_le _ h)

theorem hostAccess_readOut (h : addr < s.outSize) : hostAccess (.readOut addr) s = .next (readOutByte addr s) :=
  withinOut_of_le _ h

theorem hostAccess_writeOut (b : Byte) (hidle : s.busy = false) (h : addr < s.outSize) :
    hostAccess (.writeOut addr b) s = .next (writeOutByte addr b s) :=
  (whileIdle_of_idle _ hidle).trans (withinOut_of_le _ h)

theorem settleOut_of_not_lost (h : s.outLost = false) : settleOut s = s := if_neg (by simp [h])

theorem readOutByte_of_idle (hidle : s.busy = false) (hlost : s.outLost = false) :
    readOutByte addr s = deliver ((s.out.read addr).setWidth 32) s := by
  rw [readOutByte, if_neg (by simp [hidle]), settleOut_of_not_lost hlost]

end

/-- Settles O41: each access passes its bounds; a write of OUT settles its bytes first. -/
theorem hostReadsAndWritesSpaces : Obligations.HostReadsAndWritesSpaces := by
  unfold Obligations.HostReadsAndWritesSpaces
  refine ⟨fun s u addr b hturn hidle haddr => ?_, fun s u addr hturn haddr => ?_,
    fun s u addr b hturn hidle haddr => ?_, fun s u addr hturn hidle hlost haddr => ?_⟩ <;>
    rw [step_of_hostTurn hturn]
  · rw [hostAccess_writeIn b hidle haddr]
    exact ⟨_, rfl, u.inp.read_write addr b, rfl, rfl, rfl⟩
  · exact hostAccess_readIn haddr
  · rw [hostAccess_writeOut b hidle haddr]
    refine ⟨_, rfl, settleOut_outLost u, fun a => ?_, settleOut_inp u, settleOut_regs u, settleOut_engine u⟩
    rw [← read_settleOut]
    exact (settleOut u).out.read_write addr b a
  · rw [hostAccess_readOut haddr, readOutByte_of_idle hidle hlost, deliver]

end Sys2Proof.Machine
end

section
/-! The opcode map (R72 to R80): how the decoder reads a tag and its operand bytes, and that it undoes the encoder and the encoder it. -/

namespace Sys2Proof

/-! ## Little-endian numbers (R12, R54) -/

@[simp] theorem length_leBytes (n v : Nat) : (leBytes n v).length = n := by
  induction n generalizing v with
  | zero => rfl
  | succ n ih => simp [leBytes, ih]

theorem leNat_leBytes {n v : Nat} (h : v < 256 ^ n) : leNat (leBytes n v) = v := by
  induction n generalizing v with
  | zero => simpa [leBytes, leNat, eq_comm] using h
  | succ n ih =>
    have htail : v / 256 < 256 ^ n := Nat.div_lt_of_lt_mul (by rwa [← Nat.pow_succ'])
    rw [leBytes, leNat, ih htail, BitVec.toNat_ofNat]
    exact Nat.mod_add_div v 256

theorem leBytes_leNat {n : Nat} {bytes : List Byte} (h : bytes.length = n) : leBytes n (leNat bytes) = bytes := by
  subst h
  induction bytes with
  | nil => rfl
  | cons b bytes ih =>
    have hb : b.toNat < 256 := b.isLt
    rw [List.length_cons, leBytes, leNat, show (b.toNat + 256 * leNat bytes) / 256 = leNat bytes by omega, ih]
    congr 1
    apply BitVec.eq_of_toNat_eq
    rw [BitVec.toNat_ofNat]
    omega

theorem leNat_lt {n : Nat} {bytes : List Byte} (h : bytes.length = n) : leNat bytes < 256 ^ n := by
  subst h
  induction bytes with
  | nil => simp [leNat]
  | cons b bytes ih =>
    have hb : b.toNat < 256 := b.isLt
    rw [leNat, List.length_cons, Nat.pow_succ]
    omega

/-! ## Tags (R72, R80, R205) -/

theorem tagField_eq_div (c : Byte) : tagField c = c.toNat / 4 := by
  have hc : c.toNat < 256 := c.isLt
  rw [tagField, BitVec.extractLsb'_toNat, Nat.shiftRight_eq_div_pow]
  omega

theorem toNat_kindBits (c : Byte) : (c.extractLsb' 0 2).toNat = c.toNat % 4 := by
  rw [BitVec.extractLsb'_toNat, Nat.shiftRight_zero]

section
variable {f k : Nat} (hf : f < 64)
include hf

theorem toNat_tagByte (hk : k < 4) : (tagByte f k).toNat = f * 4 + k := by
  rw [tagByte, BitVec.toNat_ofNat]
  omega

theorem tagField_tagByte (hk : k < 4) : tagField (tagByte f k) = f := by
  rw [tagField_eq_div, toNat_tagByte hf hk]
  omega

theorem kindBits_tagByte (hk : k < 4) : (tagByte f k).extractLsb' 0 2 = BitVec.ofNat 2 k := by
  apply BitVec.eq_of_toNat_eq
  rw [toNat_kindBits, toNat_tagByte hf hk, BitVec.toNat_ofNat]
  omega

end

theorem exists_eq_tagByte (c : Byte) : ∃ f k, f < 64 ∧ k < 4 ∧ c = tagByte f k := by
  have hc : c.toNat < 256 := c.isLt
  refine ⟨c.toNat / 4, c.toNat % 4, by omega, by omega, BitVec.eq_of_toNat_eq ?_⟩
  rw [toNat_tagByte (by omega) (by omega)]
  omega

section
variable {c : Byte}

theorem tagKind_of_lit (hkind : c.extractLsb' 0 2 = 0#2) (hfield : tagField c ≤ 59) : tagKind c = .lit := by
  simp [tagKind, hkind, hfield]

theorem tagKind_of_copy1 (hkind : c.extractLsb' 0 2 = 1#2) : tagKind c = .copy1 := by
  simp [tagKind, hkind]

theorem tagKind_of_copy2 (hkind : c.extractLsb' 0 2 = 2#2) : tagKind c = .copy2 := by
  simp [tagKind, hkind]

theorem tagKind_of_copy4 (hkind : c.extractLsb' 0 2 = 3#2) : tagKind c = .copy4 := by
  simp [tagKind, hkind]

/-- No tag asks for more operand bytes than LITX4 and COPY4 do (R78). -/
theorem operandBytes_tagKind_le (c : Byte) : (tagKind c).operandBytes ≤ 4 := by
  have hc : c.toNat < 256 := c.isLt
  have hfield := tagField_eq_div c
  unfold tagKind
  split_ifs <;> simp only [TagKind.operandBytes] <;> omega

end

section
variable {f : Nat}

theorem tagKind_litTag (hf : f ≤ 59) : tagKind (tagByte f 0) = .lit :=
  tagKind_of_lit (kindBits_tagByte (by omega) (by decide)) ((tagField_tagByte (by omega) (by decide)).trans_le hf)

variable (hf : f < 64)
include hf

theorem tagKind_copy1Tag : tagKind (tagByte f 1) = .copy1 := tagKind_of_copy1 (kindBits_tagByte hf (by decide))

theorem tagKind_copy2Tag : tagKind (tagByte f 2) = .copy2 := tagKind_of_copy2 (kindBits_tagByte hf (by decide))

theorem tagKind_copy4Tag : tagKind (tagByte f 3) = .copy4 := tagKind_of_copy4 (kindBits_tagByte hf (by decide))

end

section
variable {f : Nat}

theorem operandBytes_litTag (hf : f ≤ 59) : (tagKind (tagByte f 0)).operandBytes = 0 :=
  congrArg TagKind.operandBytes (tagKind_litTag hf)

theorem operandBytes_litx1Tag : (tagKind (tagByte 60 0)).operandBytes = 1 := rfl
theorem operandBytes_litx2Tag : (tagKind (tagByte 61 0)).operandBytes = 2 := rfl
theorem operandBytes_litx3Tag : (tagKind (tagByte 62 0)).operandBytes = 3 := rfl
theorem operandBytes_litx4Tag : (tagKind (tagByte 63 0)).operandBytes = 4 := rfl

theorem operandBytes_copy1Tag (hf : f < 64) : (tagKind (tagByte f 1)).operandBytes = 1 :=
  congrArg TagKind.operandBytes (tagKind_copy1Tag hf)

theorem operandBytes_copy2Tag (hf : f < 64) : (tagKind (tagByte f 2)).operandBytes = 2 :=
  congrArg TagKind.operandBytes (tagKind_copy2Tag hf)

theorem operandBytes_copy4Tag (hf : f < 64) : (tagKind (tagByte f 3)).operandBytes = 4 :=
  congrArg TagKind.operandBytes (tagKind_copy4Tag hf)

end

/-- The map of R80: what holds of the tags of each kind holds of all 256. -/
theorem tag_cases {motive : Byte → Prop} (lit : ∀ f ≤ 59, motive (tagByte f 0))
    (litx1 : motive (tagByte 60 0)) (litx2 : motive (tagByte 61 0))
    (litx3 : motive (tagByte 62 0)) (litx4 : motive (tagByte 63 0))
    (copy1 : ∀ f < 64, motive (tagByte f 1)) (copy2 : ∀ f < 64, motive (tagByte f 2))
    (copy4 : ∀ f < 64, motive (tagByte f 3)) (c : Byte) : motive c := by
  obtain ⟨f, k, hf, hk, rfl⟩ := exists_eq_tagByte c
  obtain rfl | rfl | rfl | rfl : k = 0 ∨ k = 1 ∨ k = 2 ∨ k = 3 := by omega
  · obtain hlit | rfl | rfl | rfl | rfl : f ≤ 59 ∨ f = 60 ∨ f = 61 ∨ f = 62 ∨ f = 63 := by omega
    · exact lit f hlit
    · exact litx1
    · exact litx2
    · exact litx3
    · exact litx4
  · exact copy1 f hf
  · exact copy2 f hf
  · exact copy4 f hf

/-! ## Operand assembly (R78) -/

section
variable {f : Nat} (v : Nat)

theorem assemble_litTag (hf : f ≤ 59) : assemble (tagByte f 0) v = .lit (f + 1) := by
  rw [assemble, tagKind_litTag hf, tagField_tagByte (by omega) (by decide)]

theorem assemble_litx1Tag : assemble (tagByte 60 0) v = .litx1 (v + 1) := rfl
theorem assemble_litx2Tag : assemble (tagByte 61 0) v = .litx2 (v + 1) := rfl
theorem assemble_litx3Tag : assemble (tagByte 62 0) v = .litx3 (v + 1) := rfl
theorem assemble_litx4Tag : assemble (tagByte 63 0) v = .litx4 (v + 1) := rfl

variable (hf : f < 64)
include hf

/-- COPY1's field holds the length in its low three bits and the offset's high bits above them (R75). -/
theorem assemble_copy1Tag : assemble (tagByte f 1) v = .copy1 (f % 8 + 4) (f / 8 * 256 + v) := by
  have hlen : ((tagByte f 1).extractLsb' 2 3).toNat = f % 8 := by
    rw [BitVec.extractLsb'_toNat, toNat_tagByte hf (by decide), Nat.shiftRight_eq_div_pow]
    omega
  have hoff : ((tagByte f 1).extractLsb' 5 3).toNat = f / 8 := by
    rw [BitVec.extractLsb'_toNat, toNat_tagByte hf (by decide), Nat.shiftRight_eq_div_pow]
    omega
  rw [assemble, tagKind_copy1Tag hf]
  simp only [hlen, hoff]

theorem assemble_copy2Tag : assemble (tagByte f 2) v = .copy2 (f + 1) v := by
  rw [assemble, tagKind_copy2Tag hf, tagField_tagByte hf (by decide)]

theorem assemble_copy4Tag : assemble (tagByte f 3) v = .copy4 (f + 1) v := by
  rw [assemble, tagKind_copy4Tag hf, tagField_tagByte hf (by decide)]

end

/-! ## Decoding (R78 to R80) -/

/-- With its operand bytes present a tag decodes. -/
theorem decode_cons_of_le {c : Byte} {bytes : List Byte} (h : (tagKind c).operandBytes ≤ bytes.length) :
    decode (c :: bytes) = .ok (assemble c (leNat (bytes.take (tagKind c).operandBytes)),
      bytes.drop (tagKind c).operandBytes) :=
  if_neg (Nat.not_lt.mpr h)

/-- The decoder reads one tag and the operand bytes of its kind. -/
theorem decode_eq_ok_iff {bytes rest : List Byte} {i : Instr} : decode bytes = .ok (i, rest) ↔
    ∃ c operands, bytes = c :: operands ++ rest ∧ operands.length = (tagKind c).operandBytes ∧
      assemble c (leNat operands) = i := by
  constructor
  · intro h
    cases bytes with
    | nil => cases h
    | cons c bytes =>
      by_cases hpresent : (tagKind c).operandBytes ≤ bytes.length
      · rw [decode_cons_of_le hpresent] at h
        cases h
        exact ⟨c, _, by simp, List.length_take_of_le hpresent, rfl⟩
      · rw [decode, if_pos (Nat.lt_of_not_le hpresent)] at h
        cases h
  · rintro ⟨c, operands, rfl, hlen, rfl⟩
    rw [List.cons_append, decode_cons_of_le (by simp [hlen]), List.take_left' hlen, List.drop_left' hlen]

/-- A tag and its operand bytes decode to the assembled instruction, whatever follows (R78). -/
theorem decode_tag_leBytes {c : Byte} {n v : Nat} (rest : List Byte) (hn : (tagKind c).operandBytes = n)
    (hv : v < 256 ^ n) : decode (c :: leBytes n v ++ rest) = .ok (assemble c v, rest) :=
  decode_eq_ok_iff.mpr ⟨c, _, rfl, (length_leBytes n v).trans hn.symm, by rw [leNat_leBytes hv]⟩

/-! ## Well-formed operands (R73 to R77, R86) -/

section
variable {len off : Nat}

theorem wellFormed_lit : (Instr.lit len).WellFormed = true ↔ 1 ≤ len ∧ len ≤ 60 := by
  simp [Instr.WellFormed]

theorem wellFormed_litx1 : (Instr.litx1 len).WellFormed = true ↔ 1 ≤ len ∧ len ≤ 256 := by
  simp [Instr.WellFormed]

theorem wellFormed_litx2 : (Instr.litx2 len).WellFormed = true ↔ 1 ≤ len ∧ len ≤ 65536 := by
  simp [Instr.WellFormed]

theorem wellFormed_litx3 : (Instr.litx3 len).WellFormed = true ↔ 1 ≤ len ∧ len ≤ 16777216 := by
  simp [Instr.WellFormed]

theorem wellFormed_litx4 : (Instr.litx4 len).WellFormed = true ↔ 1 ≤ len ∧ len ≤ 4294967296 := by
  simp [Instr.WellFormed]

theorem wellFormed_copy1 : (Instr.copy1 len off).WellFormed = true ↔ 4 ≤ len ∧ len ≤ 11 ∧ off < 2048 := by
  simp [Instr.WellFormed, and_assoc]

theorem wellFormed_copy2 : (Instr.copy2 len off).WellFormed = true ↔ 1 ≤ len ∧ len ≤ 64 ∧ off < 65536 := by
  simp [Instr.WellFormed, and_assoc]

theorem wellFormed_copy4 : (Instr.copy4 len off).WellFormed = true ↔ 1 ≤ len ∧ len ≤ 64 ∧ off < 4294967296 := by
  simp [Instr.WellFormed, and_assoc]

end

/-! ## The encoder against the decoder -/

/-- A literal's only byte as a tag without operand bytes (R73). -/
theorem encode_lit (len : Nat) : encode (.lit len) = tagByte (len - 1) 0 :: leBytes 0 0 := rfl

/-- COPY1's bytes as a tag's field and kind and one operand byte (R75). -/
theorem encode_copy1 (len off : Nat) :
    encode (.copy1 len off) = tagByte (len - 4 + off / 256 * 8) 1 :: leBytes 1 (off % 256) := by
  have hlow : BitVec.ofNat 8 (off % 256) = BitVec.ofNat 8 off := BitVec.eq_of_toNat_eq (by simp)
  rw [encode, tagByte, leBytes, leBytes, hlow,
    show (len - 4 + off / 256 * 8) * 4 + 1 = 1 + (len - 4) * 4 + off / 256 * 32 by omega]

/-- Settles O1: constructor by constructor, the tag's kind and the number of the operand bytes give the operands back. -/
theorem decodeInvertsEncode : Obligations.DecodeInvertsEncode := by
  unfold Obligations.DecodeInvertsEncode
  intro i rest hwf
  cases i with
  | lit len =>
    obtain ⟨hpos, hle⟩ := wellFormed_lit.mp hwf
    have hf : len - 1 ≤ 59 := by omega
    rw [encode_lit, decode_tag_leBytes rest (operandBytes_litTag hf) (by omega), assemble_litTag _ hf,
      Nat.sub_add_cancel hpos]
  | litx1 len =>
    obtain ⟨hpos, hle⟩ := wellFormed_litx1.mp hwf
    rw [encode, decode_tag_leBytes rest operandBytes_litx1Tag (by omega), assemble_litx1Tag,
      Nat.sub_add_cancel hpos]
  | litx2 len =>
    obtain ⟨hpos, hle⟩ := wellFormed_litx2.mp hwf
    rw [encode, decode_tag_leBytes rest operandBytes_litx2Tag (by omega), assemble_litx2Tag,
      Nat.sub_add_cancel hpos]
  | litx3 len =>
    obtain ⟨hpos, hle⟩ := wellFormed_litx3.mp hwf
    rw [encode, decode_tag_leBytes rest operandBytes_litx3Tag (by omega), assemble_litx3Tag,
      Nat.sub_add_cancel hpos]
  | litx4 len =>
    obtain ⟨hpos, hle⟩ := wellFormed_litx4.mp hwf
    rw [encode, decode_tag_leBytes rest operandBytes_litx4Tag (by omega), assemble_litx4Tag,
      Nat.sub_add_cancel hpos]
  | copy1 len off =>
    obtain ⟨hmin, hmax, hoff⟩ := wellFormed_copy1.mp hwf
    have hf : len - 4 + off / 256 * 8 < 64 := by omega
    rw [encode_copy1, decode_tag_leBytes rest (operandBytes_copy1Tag hf) (by omega), assemble_copy1Tag _ hf,
      show (len - 4 + off / 256 * 8) % 8 + 4 = len by omega,
      show (len - 4 + off / 256 * 8) / 8 * 256 + off % 256 = off by omega]
  | copy2 len off =>
    obtain ⟨hpos, hle, hoff⟩ := wellFormed_copy2.mp hwf
    have hf : len - 1 < 64 := by omega
    rw [encode, decode_tag_leBytes rest (operandBytes_copy2Tag hf) (by omega), assemble_copy2Tag _ hf,
      Nat.sub_add_cancel hpos]
  | copy4 len off =>
    obtain ⟨hpos, hle, hoff⟩ := wellFormed_copy4.mp hwf
    have hf : len - 1 < 64 := by omega
    rw [encode, decode_tag_leBytes rest (operandBytes_copy4Tag hf) (by omega), assemble_copy4Tag _ hf,
      Nat.sub_add_cancel hpos]

/-- Operand assembly keeps every operand in its range (R73 to R77). -/
theorem wellFormed_assemble {c : Byte} {v : Nat} (hv : v < 256 ^ (tagKind c).operandBytes) :
    (assemble c v).WellFormed = true := by
  induction c using tag_cases with
  | lit f hf =>
    rw [assemble_litTag v hf]
    exact wellFormed_lit.mpr (by omega)
  | litx1 => exact wellFormed_litx1.mpr ⟨Nat.le_add_left 1 v, hv⟩
  | litx2 => exact wellFormed_litx2.mpr ⟨Nat.le_add_left 1 v, hv⟩
  | litx3 => exact wellFormed_litx3.mpr ⟨Nat.le_add_left 1 v, hv⟩
  | litx4 => exact wellFormed_litx4.mpr ⟨Nat.le_add_left 1 v, hv⟩
  | copy1 f hf =>
    rw [operandBytes_copy1Tag hf] at hv
    rw [assemble_copy1Tag v hf]
    exact wellFormed_copy1.mpr (by omega)
  | copy2 f hf =>
    rw [operandBytes_copy2Tag hf] at hv
    rw [assemble_copy2Tag v hf]
    exact wellFormed_copy2.mpr (by omega)
  | copy4 f hf =>
    rw [operandBytes_copy4Tag hf] at hv
    rw [assemble_copy4Tag v hf]
    exact wellFormed_copy4.mpr (by omega)

/-- Encoding an assembled instruction gives its tag and operand bytes back. -/
theorem encode_assemble {c : Byte} {operands : List Byte} (hlen : operands.length = (tagKind c).operandBytes) :
    encode (assemble c (leNat operands)) = c :: operands := by
  induction c using tag_cases with
  | lit f hf =>
    rw [operandBytes_litTag hf, List.length_eq_zero_iff] at hlen
    rw [assemble_litTag _ hf, hlen]
    rfl
  | litx1 => exact congrArg _ (leBytes_leNat hlen)
  | litx2 => exact congrArg _ (leBytes_leNat hlen)
  | litx3 => exact congrArg _ (leBytes_leNat hlen)
  | litx4 => exact congrArg _ (leBytes_leNat hlen)
  | copy1 f hf =>
    rw [operandBytes_copy1Tag hf] at hlen
    have hv : leNat operands < 256 := leNat_lt hlen
    rw [assemble_copy1Tag _ hf, encode_copy1,
      show f % 8 + 4 - 4 + (f / 8 * 256 + leNat operands) / 256 * 8 = f by omega,
      show (f / 8 * 256 + leNat operands) % 256 = leNat operands by omega, leBytes_leNat hlen]
  | copy2 f hf =>
    rw [operandBytes_copy2Tag hf] at hlen
    rw [assemble_copy2Tag _ hf, encode, leBytes_leNat hlen, Nat.add_sub_cancel]
  | copy4 f hf =>
    rw [operandBytes_copy4Tag hf] at hlen
    rw [assemble_copy4Tag _ hf, encode, leBytes_leNat hlen, Nat.add_sub_cancel]

/-- Settles O2: the bytes read are one tag and its operand bytes, and these are what the encoder writes. -/
theorem encodeInvertsDecode : Obligations.EncodeInvertsDecode := by
  unfold Obligations.EncodeInvertsDecode
  intro bytes i rest h
  obtain ⟨c, operands, rfl, hlen, rfl⟩ := decode_eq_ok_iff.mp h
  exact ⟨wellFormed_assemble (leNat_lt hlen), by rw [encode_assemble hlen]⟩

/-- Settles O3: four bytes hold the operands of every tag, and each clause names the tags of one kind. -/
theorem everyTagIsAnOpcode : Obligations.EveryTagIsAnOpcode := by
  unfold Obligations.EveryTagIsAnOpcode
  intro c rest hrest
  refine ⟨_, _, decode_cons_of_le ((operandBytes_tagKind_le c).trans hrest), fun hkind hle => ?_, ?_, ?_, ?_, ?_,
    fun hkind => ?_, fun hkind => ?_, fun hkind => ?_⟩
  · have hfield : tagField c ≤ 59 := by
      rw [tagField_eq_div]
      omega
    simp [assemble, tagKind_of_lit hkind hfield]
  · rintro rfl
    exact ⟨_, rfl⟩
  · rintro rfl
    exact ⟨_, rfl⟩
  · rintro rfl
    exact ⟨_, rfl⟩
  · rintro rfl
    exact ⟨_, rfl⟩
  · simp [assemble, tagKind_of_copy1 hkind]
  · simp [assemble, tagKind_of_copy2 hkind]
  · simp [assemble, tagKind_of_copy4 hkind]

/-- Settles O4: the decoder evaluates on each word. -/
theorem writtenOutWordsDecode : Obligations.WrittenOutWordsDecode := by
  unfold Obligations.WrittenOutWordsDecode
  decide

end Sys2Proof
end

section
/-! The varint codec (R71, R100, R102): one byte read by VARINT_DECODE as arithmetic on the value so far, and the reading of what VARINT_ENCODE writes. -/

namespace Sys2Proof.Machine

/-- Bit 7 of a byte, which says whether more follow (R71). -/
theorem getLsbD_seven_eq_false_iff (b : Byte) : b.getLsbD 7 = false ↔ b.toNat < 128 := by
  rw [show b.getLsbD 7 = b.msb from (BitVec.msb_eq_getLsbD_last b).symm, BitVec.msb_eq_decide]
  simp

/-- A value shifted up inside 32 bits: R102's test that the shift loses nothing. -/
theorem toNat_shiftLeft_of_fits {x : Word} {shift : Nat} (h : x.toNat * 2 ^ shift < 2 ^ 32) :
    (x <<< shift).toNat = x.toNat * 2 ^ shift := by
  rw [BitVec.toNat_shiftLeft, Nat.shiftLeft_eq, Nat.mod_eq_of_lt h]

theorem shiftRight_shiftLeft_of_fits {x : Word} {shift : Nat} (h : x.toNat * 2 ^ shift < 2 ^ 32) :
    (x <<< shift) >>> shift = x := by
  apply BitVec.eq_of_toNat_eq
  rw [BitVec.toNat_ushiftRight, toNat_shiftLeft_of_fits h, ← Nat.shiftLeft_eq, Nat.shiftLeft_shiftRight]

/-- One byte read while the value stays below 2^32 (R102): its seven bits are added above the value so far. -/
theorem varintDecodeAux_cons {fuel r shift pos : Nat} {b : Byte} {rest : List Byte} (hr : r < 2 ^ shift)
    (hfit : r + b.toNat % 128 * 2 ^ shift < 2 ^ 32) :
    varintDecodeAux (fuel + 1) (b :: rest) (BitVec.ofNat 32 r) shift pos =
      if b.toNat < 128 then .ok (BitVec.ofNat 32 (r + b.toNat % 128 * 2 ^ shift), pos + 1)
      else varintDecodeAux fuel rest (BitVec.ofNat 32 (r + b.toNat % 128 * 2 ^ shift)) (shift + 7) (pos + 1) := by
  have hval : ((b.extractLsb' 0 7).setWidth 32).toNat = b.toNat % 128 := by
    rw [BitVec.toNat_setWidth, BitVec.extractLsb'_toNat, Nat.shiftRight_zero]
    omega
  have hfits : ((b.extractLsb' 0 7).setWidth 32).toNat * 2 ^ shift < 2 ^ 32 := by
    rw [hval]
    omega
  have hresult : BitVec.ofNat 32 r ||| (b.extractLsb' 0 7).setWidth 32 <<< shift =
      BitVec.ofNat 32 (r + b.toNat % 128 * 2 ^ shift) := by
    apply BitVec.eq_of_toNat_eq
    rw [BitVec.toNat_or, toNat_shiftLeft_of_fits hfits, hval, BitVec.toNat_ofNat, BitVec.toNat_ofNat,
      Nat.mod_eq_of_lt hfit, Nat.mod_eq_of_lt (by omega), Nat.or_comm, ← Nat.shiftLeft_eq,
      ← Nat.shiftLeft_add_eq_or_of_lt hr, Nat.add_comm]
  rw [varintDecodeAux, if_neg (not_not.mpr (shiftRight_shiftLeft_of_fits hfits)), hresult]
  simp only [getLsbD_seven_eq_false_iff]

theorem varintBytesAux_of_lt {v : Nat} (fuel : Nat) (h : v < 128) : varintBytesAux (fuel + 1) v = [BitVec.ofNat 8 v] :=
  if_pos (Nat.div_eq_of_lt h)

theorem varintBytesAux_of_le {v : Nat} (fuel : Nat) (h : 128 ≤ v) :
    varintBytesAux (fuel + 1) v = BitVec.ofNat 8 (v % 128 + 128) :: varintBytesAux fuel (v / 128) :=
  if_neg (by omega)

theorem varintDecodeAux_lastByte {v r shift pos : Nat} (fuel : Nat) (rest : List Byte) (hv : v < 128)
    (hr : r < 2 ^ shift) (hfit : r + v * 2 ^ shift < 2 ^ 32) :
    varintDecodeAux (fuel + 1) (varintBytesAux (fuel + 1) v ++ rest) (BitVec.ofNat 32 r) shift pos =
      .ok (BitVec.ofNat 32 (r + v * 2 ^ shift), pos + (varintBytesAux (fuel + 1) v).length) := by
  have hbyte : (BitVec.ofNat 8 v).toNat = v := by
    rw [BitVec.toNat_ofNat]
    omega
  have hlow : (BitVec.ofNat 8 v).toNat % 128 = v := by omega
  rw [varintBytesAux_of_lt fuel hv, List.singleton_append, varintDecodeAux_cons hr (by rwa [hlow]), if_pos (by omega),
    hlow, List.length_singleton]

/-- The end of a varint, read onto the value of the bytes before it: a last byte, or one that leaves `v / 128` for those after it. -/
theorem varintDecodeAux_varintBytesAux {n v r shift pos : Nat} (rest : List Byte) (hv : v < 128 ^ (n + 1))
    (hr : r < 2 ^ shift) (hfit : r + v * 2 ^ shift < 2 ^ 32) :
    varintDecodeAux (n + 1) (varintBytesAux (n + 1) v ++ rest) (BitVec.ofNat 32 r) shift pos =
      .ok (BitVec.ofNat 32 (r + v * 2 ^ shift), pos + (varintBytesAux (n + 1) v).length) := by
  induction n generalizing v r shift pos with
  | zero => exact varintDecodeAux_lastByte 0 rest (by omega) hr hfit
  | succ n ih =>
    by_cases hlast : v < 128
    · exact varintDecodeAux_lastByte (n + 1) rest hlast hr hfit
    · have hbyte : (BitVec.ofNat 8 (v % 128 + 128)).toNat = v % 128 + 128 := by
        rw [BitVec.toNat_ofNat]
        omega
      have hlow : (BitVec.ofNat 8 (v % 128 + 128)).toNat % 128 = v % 128 := by omega
      have hpow : 2 ^ (shift + 7) = 128 * 2 ^ shift := by rw [Nat.pow_add, Nat.mul_comm]
      have hsplit : v * 2 ^ shift = v % 128 * 2 ^ shift + v / 128 * 2 ^ (shift + 7) := by
        rw [hpow, ← Nat.mul_assoc, ← Nat.add_mul, Nat.mod_add_div']
      have hv' : v / 128 < 128 ^ (n + 1) := Nat.div_lt_of_lt_mul (by rwa [← Nat.pow_succ'])
      have hr' : r + v % 128 * 2 ^ shift < 2 ^ (shift + 7) := by
        have : v % 128 * 2 ^ shift ≤ 127 * 2 ^ shift := Nat.mul_le_mul_right _ (by omega)
        omega
      rw [varintBytesAux_of_le _ (Nat.le_of_not_lt hlast), List.cons_append,
        varintDecodeAux_cons hr (by rw [hlow]; omega), if_neg (by omega), hlow, ih hv' hr' (by omega),
        List.length_cons, hsplit, Nat.add_assoc, Nat.add_assoc, Nat.add_comm 1]

/-- Settles O7: five bytes of seven bits hold every 32-bit value. -/
theorem varintDecodeInvertsEncode : Obligations.VarintDecodeInvertsEncode := by
  unfold Obligations.VarintDecodeInvertsEncode
  intro n rest
  have hn : n.toNat < 2 ^ 32 := n.isLt
  have h := varintDecodeAux_varintBytesAux (n := 4) (r := 0) (shift := 0) (pos := 0) rest
    (show n.toNat < 128 ^ 5 by omega) (by decide) (by omega)
  simpa [varintDecode, varintBytes, Config.varintMaxBytes] using h

end Sys2Proof.Machine
end

section
/-! The pseudo-instructions of the assembler (R87): what the opcode encoder (R170 to R177) writes, as encoded opcodes. -/

namespace Sys2Proof.Machine

/-! ## A literal's tag and length bytes (R170 to R173) -/

section
variable (w : LitExtWidth) {n : Nat}

theorem literalHeader_eq_encode_lit (h : n ≤ 60) : literalHeader w n = encode (.lit n) := by
  unfold literalHeader
  rw [if_pos h, Nat.shiftLeft_eq]
  rfl

theorem literalHeader_eq_encode_litx1 (hmin : 60 < n) (hmax : n ≤ 255) : literalHeader w n = encode (.litx1 n) := by
  unfold literalHeader
  rw [if_neg (by omega), if_pos (by omega)]
  rfl

theorem literalHeader_two_eq_encode_litx2 (hmin : 255 < n) : literalHeader .two n = encode (.litx2 n) := by
  unfold literalHeader
  rw [if_neg (by omega), if_neg (by omega), Nat.shiftRight_eq_div_pow]
  rfl

theorem literalHeader_four_eq_encode_litx4 (hmin : 255 < n) (hmax : n ≤ 65536) :
    literalHeader .four n = encode (.litx4 n) := by
  have hthird : (n - 1) / 256 / 256 = 0 := by omega
  unfold literalHeader
  rw [if_neg (by omega), if_neg (by omega), Nat.shiftRight_eq_div_pow, encode, leBytes, leBytes, leBytes, hthird]
  rfl

end

/-! ## The opcode of a chunk of a copy (R174 to R178) -/

/-- A chunk below 12 bytes with an offset below 2048 is COPY1 (R174, R175). -/
theorem copyBytes64_eq_encode_copy1 {off m : Nat} (hm : m < 12) (hoff : off < 2048) :
    copyBytes64 off m = encode (.copy1 m off) := by
  have htag : 1 ||| (m - 4) <<< 2 ||| (off >>> 8) <<< 5 = 1 + (m - 4) * 4 + off / 256 * 32 := by
    rw [Nat.or_comm 1, ← Nat.shiftLeft_add_eq_or_of_lt (by decide), Nat.shiftLeft_eq (m - 4), Nat.or_comm,
      ← Nat.shiftLeft_add_eq_or_of_lt (by omega), Nat.shiftLeft_eq, Nat.shiftRight_eq_div_pow]
    omega
  rw [copyBytes64, if_pos ⟨hm, hoff⟩, htag, encode]

/-- Every other chunk is COPY2 (R174, R176). -/
theorem copyBytes64_eq_encode_copy2 {off m : Nat} (h : ¬(m < 12 ∧ off < 2048)) :
    copyBytes64 off m = encode (.copy2 m off) := by
  have htag : 2 ||| (m - 1) <<< 2 = (m - 1) * 4 + 2 := by
    rw [Nat.or_comm, ← Nat.shiftLeft_add_eq_or_of_lt (by decide), Nat.shiftLeft_eq]
  rw [copyBytes64, if_neg h, htag, Nat.shiftRight_eq_div_pow]
  rfl

theorem bounds_of_mem_copyChunksAux {fuel m n : Nat} (hmin : 4 ≤ m) (hfuel : m ≤ fuel + 64)
    (h : n ∈ copyChunksAux fuel m) : 4 ≤ n ∧ n ≤ 64 := by
  induction fuel generalizing m with
  | zero =>
    obtain rfl : n = m := by simpa [copyChunksAux] using h
    omega
  | succ fuel ih =>
    rw [copyChunksAux_succ] at h
    split_ifs at h
    · obtain rfl | htail := List.mem_cons.mp h
      · decide
      · exact ih (by omega) (by omega) htail
    · simp only [List.mem_cons, List.not_mem_nil, or_false] at h
      omega
    · obtain rfl := List.mem_singleton.mp h
      omega

/-- Every chunk has a length from 4 to 64 (R178). -/
theorem bounds_of_mem_copyChunks {m n : Nat} (hmin : 4 ≤ m) (h : n ∈ copyChunks m) : 4 ≤ n ∧ n ≤ 64 :=
  bounds_of_mem_copyChunksAux hmin (Nat.le_add_right m 64) h

/-! ## Assembly (R84 to R87) -/

theorem opcodeWithData_of_wellFormed {i : Instr} (data : List Byte) (h : i.WellFormed = true) :
    opcodeWithData i data = some (encode i ++ data) := if_pos h

/-- Lines that all assemble give their bytes back to back. -/
theorem asmBytes_map {α : Type} {w : LitExtWidth} {line : α → AsmLine} {bytes : α → List Byte} {xs : List α}
    (h : ∀ x ∈ xs, (line x).bytes w = some (bytes x)) : asmBytes w (xs.map line) = some (xs.flatMap bytes) := by
  induction xs with
  | nil => rfl
  | cons x xs ih =>
    rw [List.forall_mem_cons] at h
    rw [List.map_cons, asmBytes, h.1, ih h.2, List.flatMap_cons]

/-- The line EMIT_COPY_LT64 stands for (R174 to R176). -/
def copyLine (off m : Nat) : AsmLine := if m < 12 ∧ off < 2048 then .copy1 m off else .copy2 m off

theorem bytes_copyLine (w : LitExtWidth) {off m : Nat} (hmin : 4 ≤ m) (hmax : m ≤ 64) (hoff : off ≤ 65535) :
    (copyLine off m).bytes w = some (copyBytes64 off m) := by
  unfold copyLine
  split_ifs with h
  · rw [AsmLine.bytes, opcodeWithData_of_wellFormed _ (wellFormed_copy1.mpr (by omega)), List.append_nil,
      copyBytes64_eq_encode_copy1 h.1 h.2]
  · rw [AsmLine.bytes, opcodeWithData_of_wellFormed _ (wellFormed_copy2.mpr (by omega)), List.append_nil,
      copyBytes64_eq_encode_copy2 h]

theorem bytes_literal (w : LitExtWidth) {data : List Byte} (hmin : 1 ≤ data.length) (hmax : data.length ≤ 65536) :
    (AsmLine.literal data).bytes w = some (literalHeader w data.length ++ data) := if_pos ⟨hmin, hmax⟩

theorem bytes_copy (w : LitExtWidth) {len off : Nat} (hlen : 4 ≤ len) (hmin : 1 ≤ off) (hmax : off ≤ 65535) :
    (AsmLine.copy len off).bytes w = some (copyBytes off len) := if_pos ⟨hlen, hmin, hmax⟩

/-- Settles O5: the header EMIT_LITERAL writes is the chosen opcode's encoding, and each chunk of a copy is one line. -/
theorem pseudoInstructionsExpand : Obligations.PseudoInstructionsExpand := by
  unfold Obligations.PseudoInstructionsExpand
  refine ⟨fun w data hmin hmax => ?_, fun w len off hlen hmin hmax => ?_⟩
  · rw [bytes_literal w hmin hmax]
    split_ifs with hlit hlitx1 hwidth
    · rw [AsmLine.bytes, opcodeWithData_of_wellFormed _ (wellFormed_lit.mpr ⟨hmin, hlit⟩),
        literalHeader_eq_encode_lit w hlit]
    · rw [AsmLine.bytes, opcodeWithData_of_wellFormed _ (wellFormed_litx1.mpr (by omega)),
        literalHeader_eq_encode_litx1 w (by omega) hlitx1]
    · rw [AsmLine.bytes, opcodeWithData_of_wellFormed _ (wellFormed_litx2.mpr ⟨hmin, hmax⟩), hwidth,
        literalHeader_two_eq_encode_litx2 (by omega)]
    · obtain rfl : w = .four := by
        cases w with
        | two => exact absurd rfl hwidth
        | four => rfl
      rw [AsmLine.bytes, opcodeWithData_of_wellFormed _ (wellFormed_litx4.mpr (by omega)),
        literalHeader_four_eq_encode_litx4 (by omega) hmax]
  · rw [bytes_copy w hlen hmin hmax]
    symm
    exact asmBytes_map (line := copyLine off) fun m hm =>
      have ⟨hlow, hhigh⟩ := bounds_of_mem_copyChunks hlen hm
      bytes_copyLine w hlow hhigh hmax

end Sys2Proof.Machine
end

section
/-! How the header codec ends (R101, R103, R104, R106): the number of bytes VARINT_ENCODE writes, and the streams VARINT_DECODE finds no header in. -/

namespace Sys2Proof.Machine

/-! ## The size of a varint (R101) -/

/-- VARINT_ENCODE writes one byte per digit of the value in base 128 (R100). -/
theorem length_varintBytesAux {n v : Nat} (h : v < 128 ^ (n + 1)) :
    (varintBytesAux (n + 1) v).length = Nat.log 128 v + 1 := by
  induction n generalizing v with
  | zero =>
    have hlast : v < 128 := h
    rw [varintBytesAux_of_lt 0 hlast, Nat.log_of_lt hlast, List.length_singleton]
  | succ n ih =>
    by_cases hlast : v < 128
    · rw [varintBytesAux_of_lt _ hlast, Nat.log_of_lt hlast, List.length_singleton]
    · have hle : 128 ≤ v := Nat.le_of_not_lt hlast
      rw [varintBytesAux_of_le _ hle, List.length_cons, ih (Nat.div_lt_of_lt_mul (by rwa [← Nat.pow_succ'])),
        Nat.log_of_one_lt_of_le (by decide) hle]

theorem length_varintBytes (n : Word) : (varintBytes n).length = Nat.log 128 n.toNat + 1 :=
  length_varintBytesAux (n := 4) (by have := n.isLt; omega)

/-- Settles O6: the bounds are the powers of 128, and a 32-bit value has at most five digits in base 128. -/
theorem varintSize : Obligations.VarintSize := by
  unfold Obligations.VarintSize
  intro n
  have hn : n.toNat < 2 ^ 32 := n.isLt
  rw [length_varintBytes]
  split_ifs with h7 h14 h21 h28
  · rw [Nat.log_of_lt (show n.toNat < 128 from h7)]
  · rw [Nat.log_eq_of_pow_le_of_lt_pow (m := 1) (by omega) (by omega)]
  · rw [Nat.log_eq_of_pow_le_of_lt_pow (m := 2) (by omega) (by omega)]
  · rw [Nat.log_eq_of_pow_le_of_lt_pow (m := 3) (by omega) (by omega)]
  · rw [Nat.log_eq_of_pow_le_of_lt_pow (m := 4) (by omega) (by omega)]

/-! ## One byte of the header, and the error it can lead to (R102) -/

/-- R102's test for a value that outgrows 32 bits: the shift loses a bit exactly when the product does not fit. -/
theorem shiftRight_shiftLeft_eq_self_iff {x : Word} {shift : Nat} :
    (x <<< shift) >>> shift = x ↔ x.toNat * 2 ^ shift < 2 ^ 32 := by
  refine ⟨fun h => ?_, shiftRight_shiftLeft_of_fits⟩
  calc x.toNat * 2 ^ shift = (x <<< shift).toNat / 2 ^ shift * 2 ^ shift := by
        rw [← Nat.shiftRight_eq_div_pow, ← BitVec.toNat_ushiftRight, h]
    _ ≤ (x <<< shift).toNat := Nat.div_mul_le_self _ _
    _ < 2 ^ 32 := (x <<< shift).isLt

theorem varintDecodeAux_zero {bytes : List Byte} {result : Word} {shift pos : Nat} :
    varintDecodeAux 0 bytes result shift pos = .error .tooLong := rfl

/-- One pass of the loop of R102, as to how it can end in an error: the byte's seven bits do not fit, or they do and a later pass ends so. -/
theorem varintDecodeAux_cons_eq_error_iff {fuel shift pos : Nat} {b : Byte} {rest : List Byte} {result : Word} {e : Error} :
    varintDecodeAux (fuel + 1) (b :: rest) result shift pos = .error e ↔
      if (b.extractLsb' 0 7).toNat * 2 ^ shift < 2 ^ 32 then
        b.getLsbD 7 = true ∧
          varintDecodeAux fuel rest (result ||| (b.extractLsb' 0 7).setWidth 32 <<< shift) (shift + 7) (pos + 1) = .error e
      else e = .overflow := by
  have hval : ((b.extractLsb' 0 7).setWidth 32).toNat = (b.extractLsb' 0 7).toNat :=
    BitVec.toNat_setWidth_of_le (by decide)
  simp only [varintDecodeAux, ne_eq, shiftRight_shiftLeft_eq_self_iff, hval, ite_not]
  split_ifs with hfits hlast
  · simp only [hlast, Bool.false_eq_true, false_and]
  · simp only [Bool.not_eq_false] at hlast
    rw [and_iff_right hlast]
  · rw [Except.error.injEq, eq_comm]

/-! ## The streams without a header (R103, R104, R106) -/

/-- The bytes on which VARINT_DECODE ends in the given error when it may read `n + 1` of them: the causes of R103, R104 and R106 at `n = 4`. -/
def HeaderFails (n : Nat) (stream : List Byte) : Error → Prop
  | .overflow =>
    n + 1 ≤ stream.length ∧ (∀ i, i < n → (stream.getD i 0#8).getLsbD 7 = true) ∧
      16 ≤ ((stream.getD n 0#8).extractLsb' 0 7).toNat
  | .truncated => stream.length < n + 1 ∧ ∀ b ∈ stream, b.getLsbD 7 = true
  | .tooLong =>
    n + 1 ≤ stream.length ∧ (∀ i, i < n + 1 → (stream.getD i 0#8).getLsbD 7 = true) ∧
      ((stream.getD n 0#8).extractLsb' 0 7).toNat < 16
  | _ => False

section
variable {n : Nat} {b : Byte} {rest : List Byte} {e : Error}

theorem continuationBits_cons :
    (∀ i, i < n + 1 → ((b :: rest).getD i 0#8).getLsbD 7 = true) ↔
      b.getLsbD 7 = true ∧ ∀ i, i < n → (rest.getD i 0#8).getLsbD 7 = true :=
  Nat.forall_lt_succ_left

theorem headerFails_nil : HeaderFails n [] e ↔ e = .truncated := by
  cases e <;> simp [HeaderFails]

/-- The fifth byte decides between OVERFLOW and TOO_LONG. -/
theorem headerFails_zero_cons :
    HeaderFails 0 (b :: rest) e ↔
      if (b.extractLsb' 0 7).toNat < 16 then b.getLsbD 7 = true ∧ e = .tooLong else e = .overflow := by
  cases e <;> simp [HeaderFails, and_comm]

/-- A byte before the fifth leads to an error only through those after it. -/
theorem headerFails_succ_cons :
    HeaderFails (n + 1) (b :: rest) e ↔ b.getLsbD 7 = true ∧ HeaderFails n rest e := by
  cases e with
  | overflow | tooLong =>
    simp only [HeaderFails, continuationBits_cons, List.length_cons, List.getD_cons_succ, Nat.add_le_add_iff_right]
    tauto
  | truncated =>
    simp only [HeaderFails, List.forall_mem_cons, List.length_cons, Nat.add_lt_add_iff_right]
    tauto
  | _ => simp [HeaderFails]

end

/-- VARINT_DECODE from any of the first five bytes on: the last byte it can read is the fifth, at shift 28. -/
theorem varintDecodeAux_eq_error_iff {n shift pos : Nat} {stream : List Byte} {result : Word} {e : Error}
    (hshift : shift + 7 * n = 28) :
    varintDecodeAux (n + 1) stream result shift pos = .error e ↔ HeaderFails n stream e := by
  induction stream generalizing n result shift pos with
  | nil => rw [varintDecodeAux, headerFails_nil, Except.error.injEq, eq_comm]
  | cons b rest ih =>
    rw [varintDecodeAux_cons_eq_error_iff]
    cases n with
    | zero =>
      obtain rfl : shift = 28 := hshift
      have hfits : (b.extractLsb' 0 7).toNat * 2 ^ 28 < 2 ^ 32 ↔ (b.extractLsb' 0 7).toNat < 16 := by omega
      simp only [headerFails_zero_cons, hfits, varintDecodeAux_zero, Except.error.injEq, eq_comm (a := Error.tooLong)]
    | succ n =>
      have hfits : (b.extractLsb' 0 7).toNat * 2 ^ shift < 2 ^ 32 :=
        calc (b.extractLsb' 0 7).toNat * 2 ^ shift < 2 ^ 7 * 2 ^ shift :=
              Nat.mul_lt_mul_of_pos_right (b.extractLsb' 0 7).isLt (Nat.two_pow_pos shift)
          _ = 2 ^ (7 + shift) := (Nat.pow_add 2 7 shift).symm
          _ ≤ 2 ^ 32 := Nat.pow_le_pow_right (by decide) (by omega)
      rw [if_pos hfits, ih (by omega), headerFails_succ_cons]

theorem varintDecode_eq_error_iff {stream : List Byte} {e : Error} :
    varintDecode stream = .error e ↔ HeaderFails 4 stream e :=
  varintDecodeAux_eq_error_iff (n := 4) rfl

/-- Settles O8: the first four bytes always fit, and the fifth fits exactly when its bits 6:4 are 0. -/
theorem varintFailures : Obligations.VarintFailures := by
  unfold Obligations.VarintFailures
  exact fun _ => ⟨varintDecode_eq_error_iff, varintDecode_eq_error_iff, varintDecode_eq_error_iff⟩

end Sys2Proof.Machine
end

section
/-! The hash table and its use (R120 to R128, R141 to R144): the hash as arithmetic, PROBE and INSERT, EQUAL32 as a comparison of words, the set-up of a block, one pass of the search, and a step of one core in a system (R259). -/

namespace Sys2Proof.Machine

/-! ## HASH and TABLE_BITS (R121, R123) -/

/-- HASH on exact numbers (R121). -/
theorem hashIndex_eq_div (key : Word) (shift : Nat) :
    hashIndex key shift = key.toNat * 0x1E35A7BD % 2 ^ 32 / 2 ^ shift := by
  rw [hashIndex, BitVec.toNat_ushiftRight, Nat.shiftRight_eq_div_pow, BitVec.toNat_mul]
  rfl

/-- Settles O9: the index is a quotient by the rest of the 32 bits (R121). -/
theorem hashIndexInRange : Obligations.HashIndexInRange := by
  unfold Obligations.HashIndexInRange
  exact fun key tableBits _ hmax => ⟨hashIndex_lt key tableBits (by omega), hashIndex_eq_div key _⟩

theorem largestExponent_eq_min_log (b : Nat) {blen : Nat} (hblen : blen ≠ 0) :
    largestExponent b blen = min b (Nat.log 2 blen) := by
  induction b with
  | zero => rw [largestExponent, Nat.zero_min]
  | succ b ih =>
    have hfits : b + 1 ≤ Nat.log 2 blen ↔ 2 ^ (b + 1) ≤ blen := Nat.le_log_iff_pow_le (by decide) hblen
    rw [largestExponent, ih]
    split <;> omega

theorem tableBitsOf_eq {blen : Nat} (hblen : blen ≠ 0) : tableBitsOf blen = max 1 (min 14 (Nat.log 2 blen)) :=
  congrArg (max 1) (largestExponent_eq_min_log 14 hblen)

/-- Settles O10: the exponents that fit are those up to the binary logarithm of the length. -/
theorem tableBitsLargestFit : Obligations.TableBitsLargestFit := by
  unfold Obligations.TableBitsLargestFit
  intro blen hblen
  have hfits (b : Nat) : 2 ^ b ≤ blen ↔ b ≤ Nat.log 2 blen := (Nat.le_log_iff_pow_le (by decide) (by omega)).symm
  simp only [hfits, tableBitsOf_eq (Nat.ne_of_gt hblen)]
  refine ⟨?_, ?_, ?_, fun b hmax hb => ?_⟩ <;> omega

/-! ## PROBE and INSERT (R126, R127) -/

/-- Settles O11: both store the position in the slot, and PROBE keeps what the slot held. -/
theorem probeReadsThenStores : Obligations.ProbeReadsThenStores := by
  unfold Obligations.ProbeReadsThenStores
  intro s p hin hhash
  exact ⟨⟨_, tableProbe_next.mpr ⟨hin, hhash, rfl⟩, rfl, fun j => Table.get_set _ _ j _, rfl, rfl, sameButEncoder_refl s⟩,
    ⟨_, tableInsert_next.mpr ⟨hin, hhash, rfl⟩, rfl, fun j => Table.get_set _ _ j _, rfl, rfl, sameButEncoder_refl s⟩⟩

/-! ## EQUAL32 (R120, R128) -/

theorem leNat_inj {xs ys : List Byte} (hlen : xs.length = ys.length) : leNat xs = leNat ys ↔ xs = ys := by
  refine ⟨fun h => ?_, congrArg leNat⟩
  rw [← leBytes_leNat hlen, h, leBytes_leNat rfl]

theorem toNat_load32 (m : Memory) (p : Nat) : (load32 m p).toNat = leNat (m.readBytes p 4) := by
  rw [load32, Memory.readLE, BitVec.toNat_ofNat]
  exact Nat.mod_eq_of_lt (leNat_lt (m.length_readBytes 4 p))

theorem equal32_iff_load32_eq {m : Memory} {p q : Nat} : equal32 m p q = true ↔ load32 m p = load32 m q := by
  rw [← BitVec.toNat_inj, toNat_load32, toNat_load32, leNat_inj (by simp)]
  simp [equal32, Memory.readBytes, and_assoc, Nat.add_assoc]

/-- Settles O12: a little-endian number of four bytes determines them. -/
theorem equal32ComparesWords : Obligations.Equal32ComparesWords := by
  unfold Obligations.Equal32ComparesWords
  exact fun m p q => ⟨equal32_iff m p q, equal32_iff_load32_eq⟩

/-! ## The set-up of a block (R124, R125, R141 to R143) -/

theorem engineStep_of_compress {s : State} {place : CompressAt} (h : s.engine = .compress place) :
    engineStep s = stepCompress place s := by
  rw [engineStep, h]

section
variable (blen : Nat) (s : State)

@[simp] theorem setUpBlock_table : (setUpBlock blen s).table = s.table.clear (2 ^ tableBitsOf blen) := by
  unfold setUpBlock
  split <;> rfl

@[simp] theorem setUpBlock_out : (setUpBlock blen s).out = s.out := by
  unfold setUpBlock
  split <;> rfl

/-- The block's cursors and geometry, and the cursors of the streams, which stand. -/
theorem setUpBlock_cursors :
    (setUpBlock blen s).enc.blockStart = s.enc.inPos ∧ (setUpBlock blen s).enc.blockEnd = s.enc.inPos + blen ∧
    (setUpBlock blen s).enc.nextEmit = s.enc.inPos ∧ (setUpBlock blen s).enc.tableBits = tableBitsOf blen ∧
    (setUpBlock blen s).enc.shift = 32 - tableBitsOf blen ∧ (setUpBlock blen s).enc.op = s.enc.op ∧
    (setUpBlock blen s).enc.inPos = s.enc.inPos := by
  unfold setUpBlock
  split <;> exact ⟨rfl, rfl, rfl, rfl, rfl, rfl, rfl⟩
end

section
variable {blen : Nat} {s : State}

/-- A block of INPUT_MARGIN bytes or more is searched (R143). -/
theorem setUpBlock_searched (h : 15 ≤ blen) :
    (setUpBlock blen s).engine = .compress .search ∧ (setUpBlock blen s).enc.ipLimit = s.enc.inPos + blen - 15 ∧
    (setUpBlock blen s).enc.ip = s.enc.inPos + 1 ∧ (setUpBlock blen s).enc.skip = 32 := by
  rw [setUpBlock, if_pos (show Config.inputMargin ≤ blen from h)]
  exact ⟨rfl, rfl, rfl, rfl⟩

/-- A shorter block is not (R142). -/
theorem setUpBlock_notSearched (h : blen < 15) : (setUpBlock blen s).engine = .compress .trailing := by
  rw [setUpBlock, if_neg (show ¬Config.inputMargin ≤ blen from Nat.not_le.mpr h)]
  rfl
end

/-- Settles O31: with input left the head of the loop over blocks is the set-up of the next block (R191). -/
theorem blockSetUp : Obligations.BlockSetUp := by
  unfold Obligations.BlockSetUp
  rintro s blen hblock hmore rfl
  have hstep : engineStep s = .next (setUpBlock (min (s.inLen - s.enc.inPos) 65536) s) :=
    (engineStep_of_compress hblock).trans (compressBlock_next.mpr (.inl ⟨hmore, rfl⟩))
  generalize min (s.inLen - s.enc.inPos) 65536 = blen at hstep ⊢
  obtain ⟨hstart, hend, hemit, hbits, hshift, hop, hpos⟩ := setUpBlock_cursors blen s
  obtain ⟨-, hframe⟩ := setUpBlock_frame blen s
  refine ⟨_, hstep, hstart, hend, hemit, hbits, hshift, hop, hpos, fun i hi => ?_, fun i hi => ?_,
    setUpBlock_searched, setUpBlock_notSearched, setUpBlock_out blen s, hframe⟩
  · rw [setUpBlock_table, Table.get_clear, if_pos hi]
  · rw [setUpBlock_table, Table.get_clear, if_neg (Nat.not_lt.mpr hi)]

/-! ## One pass of the search (R144) -/

section
variable {u : State}

@[simp] theorem searchProbed_table : (searchProbed u).table = u.table := by
  unfold searchProbed
  split <;> rfl

@[simp] theorem searchProbed_out : (searchProbed u).out = u.out := by
  unfold searchProbed
  split <;> rfl

@[simp] theorem searchProbed_candidate : (searchProbed u).enc.candidate = u.enc.candidate := by
  unfold searchProbed
  split <;> rfl

theorem searchProbed_of_match (h : load32 u.inp u.enc.ip = load32 u.inp u.enc.candidate) :
    searchProbed u = goCompress .literal u :=
  if_pos (equal32_iff_load32_eq.mpr h)

theorem searchProbed_of_miss (h : load32 u.inp u.enc.ip ≠ load32 u.inp u.enc.candidate) :
    searchProbed u = { u with enc := { u.enc with ip := u.enc.ip + u.enc.skip / 32, skip := u.enc.skip + 1 } } := by
  rw [searchProbed, if_neg (mt equal32_iff_load32_eq.mp h), Nat.shiftRight_eq_div_pow]
  rfl
end

/-- Settles O32: the invariant keeps the pass inside IN and T, and the words decide how it goes on. -/
theorem searchPass : Obligations.SearchPass := by
  unfold Obligations.SearchPass
  intro s hsearch hinv
  obtain ⟨t, hstep⟩ := compressSearch_goesOn hinv
  refine ⟨t, (engineStep_of_compress hsearch).trans hstep, ?_⟩
  rcases compressSearch_next.mp hstep with ⟨hlimit, rfl⟩ | ⟨hip, -, -, -, rfl⟩
  · exact ⟨rfl, sameButEncoder_refl s, fun _ => ⟨rfl, rfl, rfl⟩, fun hip => absurd hlimit (Nat.not_lt.mpr hip)⟩
  · obtain ⟨-, hframe⟩ := searchProbed_frame (s := probeAt s.enc.ip s) (by rw [probeAt_engine, hsearch]; rfl)
    refine ⟨searchProbed_out, hframe, fun hlimit => absurd hlimit (Nat.not_lt.mpr hip), fun _ =>
      ⟨searchProbed_candidate, searchProbed_table, fun hmatch => ?_, fun hmiss => ?_⟩⟩
    · rw [searchProbed_candidate] at hmatch ⊢
      rw [searchProbed_of_match hmatch]
      exact ⟨rfl, rfl⟩
    · rw [searchProbed_candidate] at hmiss ⊢
      rw [searchProbed_of_miss hmiss]
      exact ⟨hsearch, rfl⟩

/-! ## Systems of cores (R132, R259) -/

theorem System.stepAt_next {y z : System} {i : Fin y.cores.length} :
    y.stepAt i = .next z ↔ ∃ t, step (y.cores.get i) = .next t ∧ z = { cores := y.cores.set i t } := by
  rw [System.stepAt]
  cases step (y.cores.get i) <;> simp [eq_comm (a := z)]

/-- Settles O60: a step of one core replaces that one entry of the list (R259). -/
theorem instancesShareNothing : Obligations.InstancesShareNothing := by
  unfold Obligations.InstancesShareNothing
  intro y z i hstep
  obtain ⟨t, ht, rfl⟩ := System.stepAt_next.mp hstep
  exact ⟨List.length_set, fun j hj => List.getElem?_set_ne hj.symm, t, ht, List.getElem?_set_self i.isLt⟩

end Sys2Proof.Machine
end

section
/-! What the emitted opcodes stand for (R154, R195): the meaning of a stream as a relation that composes, and the opcodes of a literal and of a copy. -/

namespace Sys2Proof.Machine

/-! ## The meaning of a stream (R200 to R218) -/

/-- The opcodes of `stream` turn the output `before` into `after`. Unlike `expandFrom` it counts no opcodes, so that streams compose. -/
inductive Expands : List Byte → List Byte → List Byte → Prop where
  | nil (out : List Byte) : Expands [] out out
  | literal {stream data rest before after : List Byte} {i : Instr} (hdecode : decode stream = .ok (i, data ++ rest))
      (hkind : copyOffset i = none) (hlen : data.length = i.len) (hrest : Expands rest (before ++ data) after) :
      Expands stream before after
  | copy {stream rest before after : List Byte} {i : Instr} {off : Nat} (hdecode : decode stream = .ok (i, rest))
      (hkind : copyOffset i = some off) (hpos : 1 ≤ off) (hoff : off ≤ before.length)
      (hrest : Expands rest (repeatBytes off i.len before) after) : Expands stream before after

theorem length_lt_of_decode {stream rest : List Byte} {i : Instr} (h : decode stream = .ok (i, rest)) :
    rest.length < stream.length := by
  obtain ⟨c, operands, rfl, -, -⟩ := decode_eq_ok_iff.mp h
  simp only [List.length_append, List.length_cons]
  omega

/-- Bytes that follow a whole opcode do not change it (R78). -/
theorem decode_append {stream rest : List Byte} {i : Instr} (h : decode stream = .ok (i, rest)) (tail : List Byte) :
    decode (stream ++ tail) = .ok (i, rest ++ tail) := by
  obtain ⟨c, operands, rfl, hlen, hi⟩ := decode_eq_ok_iff.mp h
  exact decode_eq_ok_iff.mpr ⟨c, operands, by simp, hlen, hi⟩

section
variable {stream before after : List Byte}

/-- The relation computes as the model's `expandFrom` does. -/
theorem Expands.expandFrom_eq (h : Expands stream before after) {fuel : Nat} (hfuel : stream.length ≤ fuel) :
    expandFrom fuel stream before = some after := by
  induction h generalizing fuel with
  | nil out => cases fuel <;> rfl
  | @literal stream data rest before after i hdecode hkind hlen _ ih =>
    have hshort := length_lt_of_decode hdecode
    obtain ⟨n, rfl⟩ : ∃ n, fuel = n + 1 := ⟨fuel - 1, by omega⟩
    rw [List.length_append] at hshort
    simp only [expandFrom, hdecode, hkind]
    rw [if_neg (by rw [List.length_append]; omega), ← hlen, List.drop_left, List.take_left]
    exact ih (by omega)
  | @copy stream rest before after i off hdecode hkind hpos hoff _ ih =>
    have hshort := length_lt_of_decode hdecode
    obtain ⟨n, rfl⟩ : ∃ n, fuel = n + 1 := ⟨fuel - 1, by omega⟩
    simp only [expandFrom, hdecode, hkind]
    rw [if_neg (by omega)]
    exact ih (by omega)

theorem Expands.expand_eq (h : Expands stream [] after) : expand stream = some after := h.expandFrom_eq le_rfl

/-- Streams compose (R70). -/
theorem Expands.append {stream' after' : List Byte} (h : Expands stream before after)
    (h' : Expands stream' after after') : Expands (stream ++ stream') before after' := by
  induction h with
  | nil out => exact h'
  | literal hdecode hkind hlen _ ih =>
    exact .literal ((decode_append hdecode stream').trans (by rw [List.append_assoc])) hkind hlen (ih h')
  | copy hdecode hkind hpos hoff _ ih => exact .copy (decode_append hdecode stream') hkind hpos hoff (ih h')
end

theorem expands_literal {i : Instr} {data : List Byte} (before : List Byte) (hwf : i.WellFormed = true)
    (hkind : copyOffset i = none) (hlen : data.length = i.len) : Expands (encode i ++ data) before (before ++ data) :=
  .literal (rest := []) (by rw [decodeInvertsEncode i data hwf, List.append_nil]) hkind hlen (.nil _)

theorem expands_copy {i : Instr} {off : Nat} {before : List Byte} (hwf : i.WellFormed = true)
    (hkind : copyOffset i = some off) (hpos : 1 ≤ off) (hoff : off ≤ before.length) :
    Expands (encode i) before (repeatBytes off i.len before) :=
  .copy (by simpa using decodeInvertsEncode i [] hwf) hkind hpos hoff (.nil _)

/-! ## EMIT_LITERAL (R170 to R173) -/

/-- The opcode EMIT_LITERAL chooses (R179). -/
theorem literalHeader_eq_encode (w : LitExtWidth) {n : Nat} (hmin : 1 ≤ n) (hmax : n ≤ 65536) :
    ∃ i, literalHeader w n = encode i ∧ i.WellFormed = true ∧ copyOffset i = none ∧ i.len = n := by
  by_cases hlit : n ≤ 60
  · exact ⟨.lit n, literalHeader_eq_encode_lit w hlit, wellFormed_lit.mpr ⟨hmin, hlit⟩, rfl, rfl⟩
  by_cases hlitx1 : n ≤ 255
  · exact ⟨.litx1 n, literalHeader_eq_encode_litx1 w (by omega) hlitx1, wellFormed_litx1.mpr (by omega), rfl, rfl⟩
  cases w with
  | two =>
    exact ⟨.litx2 n, literalHeader_two_eq_encode_litx2 (by omega), wellFormed_litx2.mpr ⟨hmin, hmax⟩, rfl, rfl⟩
  | four =>
    exact ⟨.litx4 n, literalHeader_four_eq_encode_litx4 (by omega) hmax, wellFormed_litx4.mpr (by omega), rfl, rfl⟩

theorem expands_literalHeader (w : LitExtWidth) {data : List Byte} (before : List Byte) (hmin : 1 ≤ data.length)
    (hmax : data.length ≤ 65536) : Expands (literalHeader w data.length ++ data) before (before ++ data) := by
  obtain ⟨i, hheader, hwf, hkind, hlen⟩ := literalHeader_eq_encode w hmin hmax
  rw [hheader]
  exact expands_literal before hwf hkind hlen.symm

/-! ## EMIT_COPY (R174 to R178) -/

theorem repeatBytes_add (off m n : Nat) (out : List Byte) :
    repeatBytes off (m + n) out = repeatBytes off n (repeatBytes off m out) := by
  induction m generalizing out with
  | zero => rw [Nat.zero_add, repeatBytes]
  | succ m ih => rw [Nat.succ_add, repeatBytes, ih, repeatBytes]

@[simp] theorem length_repeatBytes (off n : Nat) (out : List Byte) : (repeatBytes off n out).length = out.length + n := by
  induction n generalizing out with
  | zero => rfl
  | succ n ih =>
    rw [repeatBytes, ih, List.length_append, List.length_singleton]
    omega

theorem sum_copyChunksAux (fuel m : Nat) : (copyChunksAux fuel m).sum = m := by
  induction fuel generalizing m with
  | zero => exact List.sum_singleton
  | succ fuel ih =>
    rw [copyChunksAux_succ]
    split_ifs
    · rw [List.sum_cons, ih]
      omega
    · rw [List.sum_cons, List.sum_singleton]
      omega
    · exact List.sum_singleton

/-- The chunks of a copy make up its length (R178). -/
theorem sum_copyChunks (m : Nat) : (copyChunks m).sum = m := sum_copyChunksAux m m

section
variable {off : Nat} {before : List Byte} (hpos : 1 ≤ off) (hmax : off ≤ 65535)
include hpos hmax

theorem expands_copyBytes64 {m : Nat} (hoff : off ≤ before.length) (hmin : 4 ≤ m) (hm : m ≤ 64) :
    Expands (copyBytes64 off m) before (repeatBytes off m before) := by
  by_cases h : m < 12 ∧ off < 2048
  · rw [copyBytes64_eq_encode_copy1 h.1 h.2]
    exact expands_copy (wellFormed_copy1.mpr (by omega)) rfl hpos hoff
  · rw [copyBytes64_eq_encode_copy2 h]
    exact expands_copy (wellFormed_copy2.mpr (by omega)) rfl hpos hoff

theorem expands_chunks {chunks : List Nat} (hoff : off ≤ before.length) (hchunks : ∀ m ∈ chunks, 4 ≤ m ∧ m ≤ 64) :
    Expands (chunks.flatMap (copyBytes64 off)) before (repeatBytes off chunks.sum before) := by
  induction chunks generalizing before with
  | nil => exact .nil before
  | cons m chunks ih =>
    obtain ⟨⟨hmin, hm⟩, hrest⟩ := List.forall_mem_cons.mp hchunks
    have hoff' : off ≤ (repeatBytes off m before).length := by
      rw [length_repeatBytes]
      omega
    rw [List.flatMap_cons, List.sum_cons, repeatBytes_add]
    exact (expands_copyBytes64 hpos hmax hoff hmin hm).append (ih hoff' hrest)

/-- EMIT_COPY's chunks together repeat the whole length (R177, R178). -/
theorem expands_copyBytes {m : Nat} (hoff : off ≤ before.length) (hmin : 4 ≤ m) :
    Expands (copyBytes off m) before (repeatBytes off m before) := by
  have h := expands_chunks hpos hmax hoff fun n hn => bounds_of_mem_copyChunks hmin hn
  rwa [sum_copyChunks] at h
end

/-- A copy at an offset where the next bytes of the input repeat gives those bytes (R146, R213). -/
theorem repeatBytes_readBytes (m : Memory) {off n p : Nat} (hpos : 1 ≤ off) (hoff : off ≤ p)
    (hmatch : ∀ i, i < n → m.read (p + i) = m.read (p - off + i)) :
    repeatBytes off n (m.readBytes 0 p) = m.readBytes 0 (p + n) := by
  induction n generalizing p with
  | zero => rfl
  | succ n ih =>
    have hnext : (m.readBytes 0 p).getD (p - off) 0#8 = m.read p := by
      rw [Memory.getD_readBytes _ _ _ _ (by omega), Nat.zero_add]
      exact (hmatch 0 (Nat.succ_pos n)).symm
    have hgrow : m.readBytes 0 p ++ [m.read p] = m.readBytes 0 (p + 1) := by
      rw [Memory.readBytes_append, Nat.zero_add]
      rfl
    have hmatch' : ∀ i, i < n → m.read (p + 1 + i) = m.read (p + 1 - off + i) := fun i hi => by
      rw [Nat.add_right_comm, Nat.sub_add_comm hoff, Nat.add_right_comm (p - off)]
      exact hmatch (i + 1) (Nat.succ_lt_succ hi)
    rw [repeatBytes, Memory.length_readBytes, hnext, hgrow, ih (Nat.le_succ_of_le hoff) hmatch',
      Nat.succ_add_eq_add_succ]

end Sys2Proof.Machine
end

section
/-! COMPRESS ends (R154, R282): every step inside it brings its end nearer, so a run reaches its last step with whatever its steps keep. -/

namespace Sys2Proof.Machine

/-! ## A bound of the steps still to come -/

/-- A bound of the steps after the current block: three for each byte, and the end of the command. -/
def stepsAfterBlock (s : State) : Nat := 3 * (s.inLen - s.enc.blockEnd) + 1

/-- A bound of the steps still to come from each place of COMPRESS: inside a block two for each byte not yet searched or matched. -/
def stepsLeft : CompressAt → State → Nat
  | .start, s => 3 * s.inLen + 2
  | .block, s => 3 * (s.inLen - s.enc.inPos) + 1
  | .search, s => stepsAfterBlock s + 2 * (s.enc.blockEnd - s.enc.ip) + 2
  | .literal, s => stepsAfterBlock s + 2 * (s.enc.blockEnd - (s.enc.ip + Config.minMatch)) + 5
  | .extend, s => stepsAfterBlock s + 2 * (s.enc.blockEnd - (s.enc.base + s.enc.matched)) + 4
  | .copy, s => stepsAfterBlock s + 2 * (s.enc.blockEnd - s.enc.ip) + 3
  | .chain, s => stepsAfterBlock s + 2 * (s.enc.blockEnd - s.enc.ip) + 2
  | .trailing, s => stepsAfterBlock s + 1

theorem one_le_stepsLeft (place : CompressAt) (s : State) : 1 ≤ stepsLeft place s := by
  cases place <;> exact Nat.succ_pos _

/-- `P` holds of `t` at the place of COMPRESS where its engine stands; outside COMPRESS nothing is claimed. -/
def AtItsPlace (P : CompressAt → State → Prop) (t : State) : Prop := ∀ place, t.engine = .compress place → P place t

/-- Fewer than `n` steps are left where COMPRESS goes on. -/
abbrev StepsLeftBelow (n : Nat) (t : State) : Prop := AtItsPlace (fun place t => stepsLeft place t < n) t

section
variable {s t : State}

theorem atItsPlace_of_place {P : CompressAt → State → Prop} (place : CompressAt) (he : t.engine = .compress place)
    (h : P place t) : AtItsPlace P t := by
  intro place' he'
  obtain rfl : place = place' := by simpa [he] using he'
  exact h

theorem atItsPlace_of_idle {P : CompressAt → State → Prop} (he : t.engine = .idle) : AtItsPlace P t :=
  fun place hplace => by rw [he] at hplace; cases hplace

theorem stepsLeftBelow_setUpBlock {blen : Nat} (hblen : 1 ≤ blen) (hfit : s.enc.inPos + blen ≤ s.inLen) :
    StepsLeftBelow (stepsLeft .block s) (setUpBlock blen s) := by
  unfold setUpBlock
  split
  · refine atItsPlace_of_place .search rfl ?_
    change 3 * (s.inLen - (s.enc.inPos + blen)) + 1 + 2 * (s.enc.inPos + blen - (s.enc.inPos + 1)) + 2 <
      3 * (s.inLen - s.enc.inPos) + 1
    omega
  · refine atItsPlace_of_place .trailing rfl ?_
    change 3 * (s.inLen - (s.enc.inPos + blen)) + 1 + 1 < 3 * (s.inLen - s.enc.inPos) + 1
    omega

theorem stepsLeftBelow_searchProbed {u : State} (he : u.engine = .compress .search)
    (hip : u.enc.ip + Config.minMatch ≤ u.enc.blockEnd) (hskip : Config.skipInit ≤ u.enc.skip) :
    StepsLeftBelow (stepsLeft .search u) (searchProbed u) := by
  have hmove : 1 ≤ u.enc.skip >>> Config.skipShift := by
    rw [Nat.shiftRight_eq_div_pow]
    exact Nat.div_pos hskip (by decide)
  simp only [Config.minMatch] at hip
  unfold searchProbed
  split
  · refine atItsPlace_of_place .literal rfl ?_
    change stepsAfterBlock u + 2 * (u.enc.blockEnd - (u.enc.ip + 4)) + 5 <
      stepsAfterBlock u + 2 * (u.enc.blockEnd - u.enc.ip) + 2
    omega
  · refine atItsPlace_of_place .search he ?_
    change stepsAfterBlock u + 2 * (u.enc.blockEnd - (u.enc.ip + u.enc.skip >>> Config.skipShift)) + 2 <
      stepsAfterBlock u + 2 * (u.enc.blockEnd - u.enc.ip) + 2
    omega

theorem stepsLeftBelow_extended (he : s.engine = .compress .extend) :
    StepsLeftBelow (stepsLeft .extend s) (extended s) := by
  unfold extended
  split
  next hmore =>
    obtain ⟨hend, -⟩ := hmore
    refine atItsPlace_of_place .extend he ?_
    change stepsAfterBlock s + 2 * (s.enc.blockEnd - (s.enc.base + (s.enc.matched + 1))) + 4 <
      stepsAfterBlock s + 2 * (s.enc.blockEnd - (s.enc.base + s.enc.matched)) + 4
    omega
  next => exact atItsPlace_of_place .copy rfl (Nat.lt_succ_self _)

theorem stepsLeftBelow_chained {u : State} (hip : u.enc.ip + Config.minMatch ≤ u.enc.blockEnd) :
    StepsLeftBelow (stepsLeft .chain u) (chained u) := by
  simp only [Config.minMatch] at hip
  unfold chained
  split
  · refine atItsPlace_of_place .extend rfl ?_
    change stepsAfterBlock u + 2 * (u.enc.blockEnd - (u.enc.ip + 4)) + 4 <
      stepsAfterBlock u + 2 * (u.enc.blockEnd - u.enc.ip) + 2
    omega
  · refine atItsPlace_of_place .search rfl ?_
    change stepsAfterBlock u + 2 * (u.enc.blockEnd - (u.enc.ip + 1)) + 2 <
      stepsAfterBlock u + 2 * (u.enc.blockEnd - u.enc.ip) + 2
    omega

/-- Every step inside COMPRESS brings its end nearer. -/
theorem stepsLeftBelow_stepCompress {place : CompressAt} (he : s.engine = .compress place) (h : AtPlace place s)
    (hstep : stepCompress place s = .next t) : StepsLeftBelow (stepsLeft place s) t := by
  cases place with
  | start =>
    rcases compressStart_next.mp hstep with ⟨-, rfl⟩ | ⟨-, -, rfl⟩ | ⟨-, -, -, rfl⟩
    · exact atItsPlace_of_idle rfl
    · exact atItsPlace_of_idle rfl
    · exact atItsPlace_of_place .block rfl (Nat.lt_succ_self _)
  | block =>
    rcases compressBlock_next.mp hstep with ⟨hmore, rfl⟩ | ⟨-, rfl⟩
    · have hsize : 1 ≤ Config.blockSize := by decide
      exact stepsLeftBelow_setUpBlock (by omega) (by omega)
    · exact atItsPlace_of_idle rfl
  | search =>
    obtain ⟨-, -, ⟨-, hlimit, -⟩, -, -, hskip, -⟩ := h
    simp only [Config.inputMargin] at hlimit
    rcases compressSearch_next.mp hstep with ⟨-, rfl⟩ | ⟨hip, -, -, -, rfl⟩
    · exact atItsPlace_of_place .trailing rfl (by change stepsAfterBlock s + 1 < stepsAfterBlock s + _ + 2; omega)
    · exact stepsLeftBelow_searchProbed (u := probeAt s.enc.ip s) he
        (by change s.enc.ip + 4 ≤ s.enc.blockEnd; omega) hskip
  | literal =>
    obtain ⟨-, -, rfl⟩ := compressLiteral_next.mp hstep
    exact atItsPlace_of_place .extend rfl (Nat.lt_succ_self _)
  | extend =>
    obtain ⟨-, rfl⟩ := compressExtend_next.mp hstep
    exact stepsLeftBelow_extended he
  | copy =>
    obtain ⟨-, _, rfl, rfl⟩ := compressCopy_next.mp hstep
    exact atItsPlace_of_place .chain rfl (Nat.lt_succ_self _)
  | chain =>
    obtain ⟨-, -, ⟨-, hlimit, -⟩, -⟩ := h
    simp only [Config.inputMargin] at hlimit
    rcases compressChain_next.mp hstep with ⟨-, rfl⟩ | ⟨hip, -, -, -, -, -, rfl⟩
    · exact atItsPlace_of_place .trailing rfl (by change stepsAfterBlock s + 1 < stepsAfterBlock s + _ + 2; omega)
    · exact stepsLeftBelow_chained (u := chainProbed s) (by change s.enc.ip + 4 ≤ s.enc.blockEnd; omega)
  | trailing =>
    rcases compressTrailing_next.mp hstep with ⟨-, -, -, rfl⟩ | ⟨-, rfl⟩
    · exact atItsPlace_of_place .block rfl (Nat.lt_succ_self _)
    · exact atItsPlace_of_place .block rfl (Nat.lt_succ_self _)

/-! ## A run of COMPRESS -/

/-- A run of COMPRESS reaches its last step, with what every step inside the command keeps place by place. -/
theorem compress_reaches_last_step {P : CompressAt → State → Prop}
    (hkeep : ∀ {place : CompressAt} {u v : State}, u.engine = .compress place → AtPlace place u → P place u →
      stepCompress place u = .next v → AtItsPlace P v)
    {place : CompressAt} (hturns : s.turns = []) (he : s.engine = .compress place) (hat : AtPlace place s)
    (hP : P place s) :
    ∃ k, k ≤ stepsLeft place s ∧ ∃ last u t, Host.Core.run Sys2Proof.core k s = .next t ∧ u.engine = .compress last ∧
      AtPlace last u ∧ P last u ∧ stepCompress last u = .next t ∧ t.engine = .idle := by
  induction hn : stepsLeft place s using Nat.strong_induction_on generalizing place s with
  | _ n ih =>
    subst hn
    have hinv := compressInv_of_atPlace he hat
    obtain ⟨v, hv⟩ := stepCompress_goesOn hinv he
    have hfewer := stepsLeftBelow_stepCompress he hat hv
    have hat' := compressInv_iff.mp (compressInv_stepCompress he hat hv)
    have hstep : engineStep s = .next v := (engineStep_of_compress he).trans hv
    obtain ⟨⟨-, -, -, hturns', -⟩, hcommand⟩ := stepCompress_commandStep (by rw [he]; rfl) hv
    cases hengine : v.engine with
    | idle =>
      exact ⟨1, one_le_stepsLeft place s, place, s, v, (run_succ hturns).mpr ⟨v, hstep, rfl⟩, he, hat, hP, hv, hengine⟩
    | compress place' =>
      obtain ⟨k, hk, last, u, t, hrun, hlast⟩ := ih _ (hfewer place' hengine) (hturns'.trans hturns) hengine
        (hat' place' hengine) (hkeep he hat hP hv place' hengine) rfl
      have := hfewer place' hengine
      exact ⟨k + 1, by omega, last, u, t, (run_succ hturns).mpr ⟨v, hstep, hrun⟩, hlast⟩
    | decompress place' =>
      rcases hcommand.running with hidle | hrunning
      · rw [hengine] at hidle
        cases hidle
      · rw [hengine, he] at hrunning
        cases hrunning

/-- The end of COMPRESS (R191, R250). -/
def compressEnded (s : State) : State := finish { s with regs := { s.regs with outLen := BitVec.ofNat 32 s.enc.op } }

/-- The last step of COMPRESS: an error of the capacity checks (R193), or the end of the loop over blocks (R191). -/
theorem stepCompress_idle {place : CompressAt} (he : s.engine = .compress place) (hstep : stepCompress place s = .next t)
    (hidle : t.engine = .idle) :
    (place = .start ∧ (s.inSize < s.inLen ∨ s.outSize < maxCompressedLength s.inLen) ∧ ∃ e, t = raiseError e s) ∨
    (place = .block ∧ s.inLen ≤ s.enc.inPos ∧ t = compressEnded s) := by
  have hstops : t.engine.running ≠ some .compress := by rw [hidle]; nofun
  have hrunning : s.engine.running = some .compress := by rw [he]; rfl
  cases place with
  | start =>
    rcases compressStart_next.mp hstep with ⟨hin, rfl⟩ | ⟨-, hout, rfl⟩ | ⟨-, -, -, rfl⟩
    · exact .inl ⟨rfl, .inl hin, _, rfl⟩
    · exact .inl ⟨rfl, .inr hout, _, rfl⟩
    · exact absurd rfl hstops
  | block =>
    rcases compressBlock_next.mp hstep with ⟨-, rfl⟩ | ⟨hend, rfl⟩
    · exact absurd (setUpBlock_frame _ s).1 hstops
    · exact .inr ⟨rfl, hend, rfl⟩
  | search =>
    rcases compressSearch_next.mp hstep with ⟨-, rfl⟩ | ⟨-, -, -, -, rfl⟩
    · exact absurd rfl hstops
    · exact absurd (searchProbed_frame (s := probeAt s.enc.ip s) hrunning).1 hstops
  | literal =>
    obtain ⟨-, -, rfl⟩ := compressLiteral_next.mp hstep
    exact absurd rfl hstops
  | extend =>
    obtain ⟨-, rfl⟩ := compressExtend_next.mp hstep
    exact absurd (extended_frame hrunning).1 hstops
  | copy =>
    obtain ⟨-, _, rfl, rfl⟩ := compressCopy_next.mp hstep
    exact absurd rfl hstops
  | chain =>
    rcases compressChain_next.mp hstep with ⟨-, rfl⟩ | ⟨-, -, -, -, -, -, rfl⟩
    · exact absurd rfl hstops
    · exact absurd (chained_frame (chainProbed s)).1 hstops
  | trailing =>
    rcases compressTrailing_next.mp hstep with ⟨-, -, -, rfl⟩ | ⟨-, rfl⟩ <;> exact absurd rfl hstops

end

end Sys2Proof.Machine
end

section
/-! COMPRESS writes a stream of its input (R154, R190, R195): what each emission adds stands for the input it covers, and nothing past `op` is touched. -/

namespace Sys2Proof.Machine

/-! ## OUT read back (R12, R13) -/

theorem Memory.readBytes_writeBytes (m : Memory) (a : Nat) (bytes : List Byte) :
    (m.writeBytes a bytes).readBytes a bytes.length = bytes := by
  refine List.ext_getElem (by simp) fun i hi hi' => ?_
  rw [← List.getD_eq_getElem _ 0#8, Memory.getD_readBytes _ _ _ _ hi', Memory.read_writeBytes, if_pos (by omega),
    Nat.add_sub_cancel_left, List.getD_eq_getElem _ _ hi']

theorem Memory.readBytes_writeBytes_before (m : Memory) (a : Nat) (bytes : List Byte) :
    (m.writeBytes a bytes).readBytes 0 a = m.readBytes 0 a :=
  Memory.readBytes_congr _ _ _ _ fun i hi => by rw [Memory.read_writeBytes, if_neg (by omega)]

/-- `Emit` appends its bytes to those below `op` (R13). -/
theorem readBytes_appended (bytes : List Byte) (s : State) :
    (appended bytes s).out.readBytes 0 (appended bytes s).enc.op = s.out.readBytes 0 s.enc.op ++ bytes := by
  rw [appended_out, appended_enc, Memory.readBytes_append, Memory.readBytes_writeBytes_before, Nat.zero_add,
    Memory.readBytes_writeBytes]

theorem read_appended_of_le {bytes : List Byte} {s : State} {a : Nat} (h : (appended bytes s).enc.op ≤ a) :
    (appended bytes s).out.read a = s.out.read a := by
  have hop : s.enc.op + bytes.length ≤ a := h
  rw [appended_out, Memory.read_writeBytes, if_neg (by omega)]

/-! ## What is written so far -/

/-- In `u` the command that started in `s` has written the header and opcodes for the input below `upTo`, and nothing of OUT from `op` on. -/
structure Encodes (s u : State) (upTo : Nat) : Prop where
  frame : SameButEncoder (headerWritten s) u
  stream : ∃ opcodes, u.out.readBytes 0 u.enc.op = varintBytes s.regs.inLen ++ opcodes ∧
    Expands opcodes [] (s.inp.readBytes 0 upTo)
  above : ∀ a, u.enc.op ≤ a → u.out.read a = s.out.read a

section
variable {s u v : State} {upTo upTo' : Nat}

theorem encodes_headerWritten (s : State) : Encodes s (headerWritten s) 0 where
  frame := sameButEncoder_refl _
  stream := ⟨[], by
    rw [List.append_nil]
    exact readBytes_appended (varintBytes s.regs.inLen) { s with enc := { s.enc with op := 0 } }, .nil []⟩
  above := fun _ ha => read_appended_of_le (s := { s with enc := { s.enc with op := 0 } }) ha

theorem Encodes.inp (h : Encodes s u upTo) : u.inp = s.inp := h.frame.2.1

/-- A step that writes nothing. -/
theorem Encodes.of_out_eq (h : Encodes s u upTo) (hframe : SameButEncoder u v) (hout : v.out = u.out)
    (hop : v.enc.op = u.enc.op) : Encodes s v upTo where
  frame := by
    obtain ⟨hpar, hinp, hregs, hdec, hlost, hdraws, hturns, hrdata⟩ := hframe
    rw [SameButEncoder, hpar, hinp, hregs, hdec, hlost, hdraws, hturns, hrdata]
    exact h.frame
  stream := by
    rw [hout, hop]
    exact h.stream
  above := by
    rw [hout, hop]
    exact h.above

/-- A step that emits opcodes for the input from `upTo` to `upTo'`. -/
theorem Encodes.appended {bytes : List Byte} (h : Encodes s u upTo)
    (hbytes : Expands bytes (u.inp.readBytes 0 upTo) (u.inp.readBytes 0 upTo')) :
    Encodes s (appended bytes u) upTo' where
  frame := h.frame
  stream := by
    obtain ⟨opcodes, hout, hopcodes⟩ := h.stream
    rw [h.inp] at hbytes
    exact ⟨opcodes ++ bytes, by rw [readBytes_appended, hout, List.append_assoc], hopcodes.append hbytes⟩
  above := fun a ha => by
    rw [read_appended_of_le ha]
    exact h.above a ((Nat.le_add_right _ _).trans ha)

/-- The literal of the input from `src` to `upTo` (R145, R150). -/
theorem expands_literalBytes {src upTo : Nat} (u : State) (hmin : src < upTo) (hmax : upTo - src ≤ 65536) :
    Expands (literalBytes src (upTo - src) u) (u.inp.readBytes 0 src) (u.inp.readBytes 0 upTo) := by
  have h := expands_literalHeader u.par.litExtWidth (data := u.inp.readBytes src (upTo - src)) (u.inp.readBytes 0 src)
    (by rw [Memory.length_readBytes]; omega) (by rw [Memory.length_readBytes]; exact hmax)
  have hjoin := Memory.readBytes_append u.inp src (upTo - src) 0
  rw [Nat.zero_add, Nat.add_sub_cancel' hmin.le] at hjoin
  rwa [Memory.length_readBytes, ← hjoin] at h

theorem blockEnd_le_blockStart_add (h : InsideBlock u) : u.enc.blockEnd ≤ u.enc.blockStart + 65536 := by
  obtain ⟨-, -, hstart, hend, -⟩ := h
  simp only [Config.blockSize] at hend
  omega

/-- The literal pending in a block is emitted up to `upTo`. -/
theorem Encodes.literalBytes (h : Encodes s u u.enc.nextEmit) (hb : InsideBlock u) (hmin : u.enc.nextEmit < upTo)
    (hto : upTo ≤ u.enc.blockEnd) :
    Encodes s (Machine.appended (literalBytes u.enc.nextEmit (upTo - u.enc.nextEmit) u) u) upTo := by
  have hblock := blockEnd_le_blockStart_add hb
  obtain ⟨-, -, -, -, hstart, -⟩ := hb
  exact h.appended (expands_literalBytes u hmin (by omega))

/-- The copy of a match (R147, R152). -/
theorem expands_match (hb : InsideBlock u) (hs : Searched u) (hm : Matching u) :
    Expands (copyBytes (u.enc.base - u.enc.candidate) u.enc.matched) (u.inp.readBytes 0 u.enc.base)
      (u.inp.readBytes 0 (u.enc.base + u.enc.matched)) := by
  have hblock := blockEnd_le_blockStart_add hb
  obtain ⟨-, hlimit, -⟩ := hs
  obtain ⟨-, hbase, -, hstart, hcand, hmin, -, hequal⟩ := hm
  simp only [Config.inputMargin] at hlimit
  have hmatch : ∀ i, i < u.enc.matched →
      u.inp.read (u.enc.base + i) = u.inp.read (u.enc.base - (u.enc.base - u.enc.candidate) + i) := by
    rw [Nat.sub_sub_self hcand.le]
    exact hequal
  rw [← repeatBytes_readBytes u.inp (off := u.enc.base - u.enc.candidate) (by omega) (by omega) hmatch]
  exact expands_copyBytes (by omega) (by omega) (by rw [Memory.length_readBytes]; omega) hmin

/-! ## Each place of COMPRESS -/

/-- What is written at a place of the command that started in `s`: at its start nothing has happened. -/
def EncodesAt (s : State) : CompressAt → State → Prop
  | .start, u => u = s
  | place, u => Encodes s u (covered place u)

theorem encodesAt_setUpBlock (blen : Nat) (h : Encodes s u u.enc.inPos) :
    AtItsPlace (EncodesAt s) (setUpBlock blen u) := by
  obtain ⟨-, hframe⟩ := setUpBlock_frame blen u
  obtain ⟨-, -, hemit, -, -, hop, -⟩ := setUpBlock_cursors blen u
  have h' : Encodes s (setUpBlock blen u) (setUpBlock blen u).enc.nextEmit := by
    rw [hemit]
    exact h.of_out_eq hframe (setUpBlock_out blen u) hop
  by_cases hsearch : 15 ≤ blen
  · exact atItsPlace_of_place .search (setUpBlock_searched hsearch).1 h'
  · exact atItsPlace_of_place .trailing (setUpBlock_notSearched (Nat.lt_of_not_le hsearch)) h'

theorem encodesAt_searchProbed (he : u.engine = .compress .search) (h : Encodes s u u.enc.nextEmit) :
    AtItsPlace (EncodesAt s) (searchProbed u) := by
  unfold searchProbed
  split
  · exact atItsPlace_of_place .literal rfl (h.of_out_eq (sameButEncoder_refl u) rfl rfl)
  · exact atItsPlace_of_place .search he (h.of_out_eq (sameButEncoder_refl u) rfl rfl)

theorem encodesAt_extended (he : u.engine = .compress .extend) (h : Encodes s u u.enc.base) :
    AtItsPlace (EncodesAt s) (extended u) := by
  unfold extended
  split
  · exact atItsPlace_of_place .extend he (h.of_out_eq (sameButEncoder_refl u) rfl rfl)
  · exact atItsPlace_of_place .copy rfl (h.of_out_eq (sameButEncoder_refl u) rfl rfl)

theorem encodesAt_chained (h : Encodes s u u.enc.nextEmit) (hemit : u.enc.ip = u.enc.nextEmit) :
    AtItsPlace (EncodesAt s) (chained u) := by
  unfold chained
  split
  · rw [← hemit] at h
    exact atItsPlace_of_place .extend rfl (h.of_out_eq (sameButEncoder_refl u) rfl rfl)
  · exact atItsPlace_of_place .search rfl (h.of_out_eq (sameButEncoder_refl u) rfl rfl)

/-- Every step of the command keeps that its output encodes the input covered (R145, R147, R150). -/
theorem encodesAt_stepCompress {place : CompressAt} (he : u.engine = .compress place) (hat : AtPlace place u)
    (h : EncodesAt s place u) (hstep : stepCompress place u = .next v) : AtItsPlace (EncodesAt s) v := by
  cases place with
  | start =>
    obtain rfl : u = s := h
    rcases compressStart_next.mp hstep with ⟨-, rfl⟩ | ⟨-, -, rfl⟩ | ⟨-, -, -, rfl⟩
    · exact atItsPlace_of_idle rfl
    · exact atItsPlace_of_idle rfl
    · exact atItsPlace_of_place .block rfl (encodes_headerWritten u)
  | block =>
    rcases compressBlock_next.mp hstep with ⟨-, rfl⟩ | ⟨-, rfl⟩
    · exact encodesAt_setUpBlock _ h
    · exact atItsPlace_of_idle rfl
  | search =>
    rcases compressSearch_next.mp hstep with ⟨-, rfl⟩ | ⟨-, -, -, -, rfl⟩
    · exact atItsPlace_of_place .trailing rfl (h.of_out_eq (sameButEncoder_refl u) rfl rfl)
    · exact encodesAt_searchProbed (u := probeAt u.enc.ip u) he (h.of_out_eq (sameButEncoder_refl u) rfl rfl)
  | literal =>
    obtain ⟨-, hb, ⟨-, hlimit, -⟩, hemit, -, hip, -⟩ := hat
    obtain ⟨-, -, rfl⟩ := compressLiteral_next.mp hstep
    have hliteral := Encodes.literalBytes h hb hemit (by omega)
    exact atItsPlace_of_place .extend rfl (hliteral.of_out_eq (sameButEncoder_refl _) rfl rfl)
  | extend =>
    obtain ⟨-, rfl⟩ := compressExtend_next.mp hstep
    exact encodesAt_extended he h
  | copy =>
    obtain ⟨⟨-, hb, hs, hm, -⟩, hip⟩ := hat
    obtain ⟨-, _, rfl, rfl⟩ := compressCopy_next.mp hstep
    have hcopy := h.appended (expands_match hb hs hm)
    rw [← hip] at hcopy
    exact atItsPlace_of_place .chain rfl (hcopy.of_out_eq (sameButEncoder_refl _) rfl rfl)
  | chain =>
    obtain ⟨-, -, -, -, hemit, -⟩ := hat
    rcases compressChain_next.mp hstep with ⟨-, rfl⟩ | ⟨-, -, -, -, -, -, rfl⟩
    · exact atItsPlace_of_place .trailing rfl (h.of_out_eq (sameButEncoder_refl u) rfl rfl)
    · exact encodesAt_chained (u := chainProbed u) (h.of_out_eq (sameButEncoder_refl u) rfl rfl) hemit
  | trailing =>
    obtain ⟨-, hb, -⟩ := hat
    rcases compressTrailing_next.mp hstep with ⟨hemit, -, -, rfl⟩ | ⟨hemit, rfl⟩
    · have hliteral := Encodes.literalBytes h hb hemit le_rfl
      exact atItsPlace_of_place .block rfl (hliteral.of_out_eq (sameButEncoder_refl _) rfl rfl)
    · obtain ⟨-, -, -, -, -, hend⟩ := hb
      have hall : Encodes s u u.enc.blockEnd := hend.antisymm hemit ▸ h
      exact atItsPlace_of_place .block rfl (hall.of_out_eq (sameButEncoder_refl u) rfl rfl)

/-! ## The end of the command (R191, R192, R250) -/

/-- At the end of the input the output is within the bound of R192. -/
theorem op_le_maxCompressedLength (h : AtBlock u) (hend : u.inLen ≤ u.enc.inPos) :
    u.enc.op ≤ maxCompressedLength u.inLen := by
  obtain ⟨-, hpos, hop, -⟩ := h
  rw [maxCompressedLength]
  omega

/-- What the end of the command leaves, once all input is covered. -/
theorem Encodes.compressEnded_streamHolds (h : Encodes s u s.inLen) :
    StreamHolds (compressEnded u) u.enc.op s.regs.inLen s.inLen := by
  obtain ⟨opcodes, hbytes, hopcodes⟩ := h.stream
  exact ⟨opcodes, hbytes, by rw [hopcodes.expand_eq, compressEnded, finish_inp, h.inp]⟩

/-- OUT_LEN holds the whole cursor, since OUT_SIZE is a 32-bit number (log 19). -/
theorem toNat_outLen_compressEnded (h : u.enc.op ≤ u.outSize) : (compressEnded u).regs.outLen.toNat = u.enc.op := by
  have hsize : u.outSize < 2 ^ 32 := u.par.outSize.isLt
  rw [compressEnded, finish_outLen, BitVec.toNat_ofNat]
  omega

end

/-- Settles O56: the steps before the last encode the input block by block, and the last finds no block left. -/
theorem compressWritesAStreamOfItsInput : Obligations.CompressWritesAStreamOfItsInput := by
  unfold Obligations.CompressWritesAStreamOfItsInput
  intro s hturns he hin hout
  obtain ⟨k, -, last, u, t, hrun, hlast, hat, henc, hstep, hidle⟩ :=
    compress_reaches_last_step (P := EncodesAt s) encodesAt_stepCompress hturns he trivial rfl
  refine ⟨k, t, hrun, hidle, ?_⟩
  rcases stepCompress_idle hlast hstep hidle with ⟨rfl, hcheck, -⟩ | ⟨rfl, hend, rfl⟩
  · obtain rfl : u = s := henc
    omega
  · have henc' : Encodes s u u.enc.inPos := henc
    have ⟨⟨_, hinp, hregs, _, hlost, _⟩, _, habove⟩ := henc'
    have hlen : u.inLen = s.inLen := congrArg (fun regs => regs.inLen.toNat) hregs
    have hmax := op_le_maxCompressedLength hat hend
    obtain ⟨⟨-, hfit, -⟩, hpos, -⟩ := hat
    rw [hpos.antisymm hend, hlen] at henc'
    rw [toNat_outLen_compressEnded (hmax.trans hfit), ← hlen]
    exact ⟨rfl, rfl, congrArg Regs.hdrLen hregs, hinp, hlost, hmax, hlen ▸ henc'.compressEnded_streamHolds, habove⟩

end Sys2Proof.Machine
end

section
/-! The steps inside a block after a match (R145 to R150): one pass of the extension, the chain step, and the three emissions. -/

namespace Sys2Proof.Machine

section
variable {s u : State}

/-! ## One pass of the extension (R146) -/

@[simp] theorem extended_table : (extended s).table = s.table := by
  unfold extended
  split <;> rfl

@[simp] theorem extended_out : (extended s).out = s.out := by
  unfold extended
  split <;> rfl

/-! ## The chain step (R148, R149) -/

@[simp] theorem chained_table : (chained u).table = u.table := by
  unfold chained
  split <;> rfl

@[simp] theorem chained_out : (chained u).out = u.out := by
  unfold chained
  split <;> rfl

@[simp] theorem chained_candidate : (chained u).enc.candidate = u.enc.candidate := by
  unfold chained
  split <;> rfl

theorem chained_of_match (h : load32 u.inp u.enc.ip = load32 u.inp u.enc.candidate) : chained u = startExtend u :=
  if_pos (equal32_iff_load32_eq.mpr h)

theorem chained_of_miss (h : load32 u.inp u.enc.ip ≠ load32 u.inp u.enc.candidate) : chained u = resumeSearch u :=
  if_neg (mt equal32_iff_load32_eq.mp h)

/-- The entries after INSERT of `ip - 1` and PROBE of `ip` (R126, R127). -/
theorem get_chainProbed (j : Nat) : (chainProbed s).table.get j =
    if j = hashAt s s.enc.ip then BitVec.ofNat 16 (s.enc.ip - s.enc.blockStart)
    else if j = hashAt s (s.enc.ip - 1) then BitVec.ofNat 16 (s.enc.ip - 1 - s.enc.blockStart)
    else s.table.get j := by
  rw [chainProbed, probeAt_table, insertAt_table, Table.get_set, Table.get_set]
  rfl

/-- PROBE of `ip` finds `ip - 1` where both hash alike, since that was inserted before (R148). -/
theorem candidate_chainProbed (hb : InsideBlock s) (hip : s.enc.ip ≤ s.enc.blockEnd) :
    (chainProbed s).enc.candidate = s.enc.blockStart +
      (if hashAt s s.enc.ip = hashAt s (s.enc.ip - 1) then s.enc.ip - 1 - s.enc.blockStart
       else (s.table.get (hashAt s s.enc.ip)).toNat) := by
  have hfits : (BitVec.ofNat 16 (s.enc.ip - 1 - s.enc.blockStart)).toNat = s.enc.ip - 1 - s.enc.blockStart := by
    have := blockEnd_le_blockStart_add hb
    rw [BitVec.toNat_ofNat]
    omega
  rw [chainProbed, probeAt_enc, insertAt_table, Table.get_set, apply_ite BitVec.toNat, hfits]
  rfl

end

/-- Settles O33: the invariant keeps both bytes inside IN. -/
theorem extendPass : Obligations.ExtendPass := by
  unfold Obligations.ExtendPass
  intro s hextend hinv
  obtain ⟨t, hstep⟩ := compressExtend_goesOn hinv
  obtain ⟨-, rfl⟩ := compressExtend_next.mp hstep
  obtain ⟨-, hframe⟩ := extended_frame (s := s) (by rw [hextend]; rfl)
  refine ⟨_, (engineStep_of_compress hextend).trans hstep, extended_out, extended_table, hframe, fun hmore => ?_,
    fun hends => ?_⟩
  · rw [extended, if_pos hmore]
    exact ⟨hextend, rfl⟩
  · rw [extended, if_neg hends]
    exact ⟨rfl, rfl⟩

/-- Settles O34: the entry of `ip - 1` is written before the entry of `ip` is read, and the words decide how the block goes on. -/
theorem chainStep : Obligations.ChainStep := by
  unfold Obligations.ChainStep
  intro s hchain hinv
  obtain ⟨t, hstep⟩ := compressChain_goesOn hinv
  obtain ⟨-, hb, ⟨-, hmargin, -⟩, -⟩ := hinv
  refine ⟨t, (engineStep_of_compress hchain).trans hstep, ?_⟩
  rcases compressChain_next.mp hstep with ⟨hlimit, rfl⟩ | ⟨hip, -, -, -, -, -, rfl⟩
  · exact ⟨rfl, sameButEncoder_refl s, fun _ => ⟨rfl, rfl, rfl⟩, fun hip => absurd hlimit (Nat.not_le.mpr hip)⟩
  · obtain ⟨-, hframe⟩ := chained_frame (chainProbed s)
    refine ⟨chained_out, hframe, fun hlimit => absurd hlimit (Nat.not_le.mpr hip), fun _ =>
      ⟨?_, fun j => ?_, fun hmatch => ?_, fun hmiss => ?_⟩⟩
    · rw [chained_candidate]
      exact candidate_chainProbed hb (by omega)
    · rw [chained_table]
      exact get_chainProbed j
    · rw [chained_candidate] at hmatch ⊢
      rw [chained_of_match hmatch]
      exact ⟨rfl, rfl⟩
    · rw [chained_candidate] at hmiss ⊢
      rw [chained_of_miss hmiss]
      exact ⟨rfl, rfl⟩

/-- Settles O35: each is an `Emit` at `op`, and the invariant leaves room for it. -/
theorem blockEmissions : Obligations.BlockEmissions := by
  unfold Obligations.BlockEmissions
  refine ⟨fun s hplace hinv => ?_, fun s hplace hinv => ?_, fun s hplace hinv => ?_⟩
  · obtain ⟨t, hstep⟩ := compressLiteral_goesOn hinv
    obtain ⟨-, -, rfl⟩ := compressLiteral_next.mp hstep
    exact ⟨_, _, (engineStep_of_compress hplace).trans hstep, rfl,
      appended_outHolds (literalBytes s.enc.nextEmit (s.enc.ip - s.enc.nextEmit) s) s, rfl, rfl, sameButEncoder_refl s, rfl⟩
  · obtain ⟨t, hstep⟩ := compressCopy_goesOn hinv
    obtain ⟨-, _, rfl, rfl⟩ := compressCopy_next.mp hstep
    exact ⟨_, _, (engineStep_of_compress hplace).trans hstep, rfl,
      appended_outHolds (copyBytes (s.enc.base - s.enc.candidate) s.enc.matched) s, rfl, rfl, sameButEncoder_refl s, rfl⟩
  · obtain ⟨t, hstep⟩ := compressTrailing_goesOn hinv
    refine ⟨t, _, (engineStep_of_compress hplace).trans hstep, rfl, ?_⟩
    rcases compressTrailing_next.mp hstep with ⟨hemit, -, -, rfl⟩ | ⟨hemit, rfl⟩
    · rw [if_pos hemit]
      exact ⟨appended_outHolds (literalBytes s.enc.nextEmit (s.enc.blockEnd - s.enc.nextEmit) s) s, rfl, rfl,
        sameButEncoder_refl s, rfl⟩
    · rw [if_neg (Nat.not_lt.mpr hemit)]
      exact ⟨appended_outHolds [] s, rfl, rfl, sameButEncoder_refl s, rfl⟩

end Sys2Proof.Machine
end

section
/-! What the opcode encoder writes, form by form (R170 to R178, R180): the bytes of a literal's header and of a copy's chunk, the cut of a copy into chunks, and their sizes. -/

namespace Sys2Proof.Machine

/-! ## The bytes of the forms the encoder writes (R171 to R173, R175, R176) -/

section
variable (n m off : Nat)

/-- A byte holds the low eight bits of a number. -/
theorem byte_ofNat_mod : BitVec.ofNat 8 (n % 256) = BitVec.ofNat 8 n := BitVec.eq_of_toNat_eq (by simp)

theorem encode_lit_bytes : encode (.lit n) = [BitVec.ofNat 8 ((n - 1) * 4)] := rfl

theorem encode_litx1_bytes : encode (.litx1 n) = [0xF0#8, BitVec.ofNat 8 (n - 1)] := rfl

theorem encode_litx2_bytes :
    encode (.litx2 n) = [0xF4#8, BitVec.ofNat 8 ((n - 1) % 256), BitVec.ofNat 8 ((n - 1) / 256)] := by
  rw [byte_ofNat_mod]
  rfl

/-- The two upper length bytes are 0 for a literal the encoder emits. -/
theorem encode_litx4_bytes (hmax : n ≤ 65536) : encode (.litx4 n) =
    [0xFC#8, BitVec.ofNat 8 ((n - 1) % 256), BitVec.ofNat 8 ((n - 1) / 256), 0x00#8, 0x00#8] := by
  have hupper : (n - 1) / 256 / 256 = 0 := by omega
  rw [byte_ofNat_mod, encode, leBytes, leBytes, leBytes, hupper]
  rfl

theorem encode_copy1_bytes : encode (.copy1 m off) =
    [BitVec.ofNat 8 (1 + (m - 4) * 4 + off / 256 * 32), BitVec.ofNat 8 (off % 256)] := by
  rw [byte_ofNat_mod, encode]

theorem encode_copy2_bytes : encode (.copy2 m off) =
    [BitVec.ofNat 8 (2 + (m - 1) * 4), BitVec.ofNat 8 (off % 256), BitVec.ofNat 8 (off / 256)] := by
  rw [byte_ofNat_mod, Nat.add_comm 2]
  rfl

end

/-- Settles O13: in each range the header is the encoding of the form R179 names, and that form's bytes are known. -/
theorem literalHeaderForms : Obligations.LiteralHeaderForms := by
  unfold Obligations.LiteralHeaderForms
  intro w n _ hmax
  refine ⟨fun hlit => ?_, fun hlow hhigh => ?_, ?_, ?_⟩
  · have hencode := literalHeader_eq_encode_lit w hlit
    exact ⟨hencode.trans (encode_lit_bytes n), hencode⟩
  · have hencode := literalHeader_eq_encode_litx1 w hlow hhigh
    exact ⟨hencode.trans (encode_litx1_bytes n), hencode⟩
  · rintro hlow rfl
    have hencode := literalHeader_two_eq_encode_litx2 hlow
    exact ⟨hencode.trans (encode_litx2_bytes n), hencode⟩
  · rintro hlow rfl
    have hencode := literalHeader_four_eq_encode_litx4 hlow hmax
    exact ⟨hencode.trans (encode_litx4_bytes n hmax), hencode⟩

/-- Settles O14: the choice of R174 between the encodings of COPY1 and COPY2. -/
theorem copyChunkForms : Obligations.CopyChunkForms := by
  unfold Obligations.CopyChunkForms
  intro off m _ _ _ _
  refine ⟨fun hshort hnear => ?_, fun hlongOrFar => ?_⟩
  · have hencode := copyBytes64_eq_encode_copy1 hshort hnear
    exact ⟨hencode.trans (encode_copy1_bytes m off), hencode⟩
  · have hencode : copyBytes64 off m = encode (.copy2 m off) := copyBytes64_eq_encode_copy2 (by omega)
    exact ⟨hencode.trans (encode_copy2_bytes m off), hencode⟩

/-! ## The chunks of a copy (R177, R178) -/

/-- EMIT_COPY's loop takes `q` chunks of 64 bytes; `r` bytes are left, too few for another pass. -/
theorem copyChunksAux_eq_replicate {fuel q r : Nat} (hmin : 4 ≤ r) (hmax : r ≤ 67) (hfuel : 64 * q + r ≤ fuel + 64) :
    copyChunksAux fuel (64 * q + r) = List.replicate q 64 ++ (if 64 < r then [60, r - 60] else [r]) := by
  induction q generalizing fuel with
  | zero =>
    rw [Nat.mul_zero, Nat.zero_add, List.replicate_zero, List.nil_append]
    cases fuel with
    | zero => rw [copyChunksAux, if_neg (by omega)]
    | succ fuel => rw [copyChunksAux_succ, if_neg (by omega)]
  | succ q ih =>
    cases fuel with
    | zero => omega
    | succ fuel =>
      rw [copyChunksAux_succ, if_pos (by omega), show 64 * (q + 1) + r - 64 = 64 * q + r by omega, ih (by omega),
        List.replicate_succ, List.cons_append]

/-- Settles O15: of `m` bytes the loop leaves `(m - 4) % 64 + 4`. -/
theorem copyChunking : Obligations.CopyChunking := by
  unfold Obligations.CopyChunking
  intro m hmin
  refine ⟨?_, sum_copyChunks m, fun n hn => bounds_of_mem_copyChunks hmin hn⟩
  obtain ⟨q, r, rfl, hlow, hhigh⟩ : ∃ q r, m = 64 * q + r ∧ 4 ≤ r ∧ r ≤ 67 :=
    ⟨(m - 4) / 64, (m - 4) % 64 + 4, by omega⟩
  exact ⟨q, r, rfl, hlow, hhigh, copyChunksAux_eq_replicate hlow hhigh (Nat.le_add_right _ 64)⟩

/-! ## The sizes (R180) -/

theorem length_literalHeader (w : LitExtWidth) (n : Nat) : (literalHeader w n).length =
    if n ≤ 60 then 1 else if n ≤ 255 then 2 else if w = .two then 3 else 5 := by
  by_cases hlit : n ≤ 60
  · rw [literalHeader_eq_encode_lit w hlit, if_pos hlit]
    rfl
  by_cases hlitx1 : n ≤ 255
  · rw [literalHeader_eq_encode_litx1 w (by omega) hlitx1, if_neg hlit, if_pos hlitx1]
    rfl
  unfold literalHeader
  rw [if_neg hlit, if_neg (by omega), if_neg hlit, if_neg hlitx1]
  cases w <;> rfl

theorem length_copyBytes64 (off m : Nat) :
    (copyBytes64 off m).length = if m < 12 ∧ off < 2048 then 2 else 3 := by
  split_ifs with h
  · rw [copyBytes64_eq_encode_copy1 h.1 h.2]
    rfl
  · rw [copyBytes64_eq_encode_copy2 h]
    rfl

/-- Settles O16: the lengths of the forms, and a copy is shorter than the bytes it stands for. -/
theorem emittedSizes : Obligations.EmittedSizes := by
  unfold Obligations.EmittedSizes
  refine ⟨fun w n _ => ?_, fun off m => ?_, length_copyBytes_lt⟩
  · rw [length_literalHeader]
    split_ifs <;> exact Nat.add_comm _ n
  · rw [length_copyBytes64]
    exact ite_eq_or_eq _ 2 3

end Sys2Proof.Machine
end

section
/-! What one step writes to OUT (R13, R196, R219, R245): the start of COMPRESS, the bytes each place of a block emits, and that the engine only appends. -/

namespace Sys2Proof.Machine

/-- Settles O30: `Emit` puts the header at 0, and at most five bytes fit whatever the second check admits. -/
theorem compressStartChecks : Obligations.CompressStartChecks := by
  unfold Obligations.CompressStartChecks
  intro s he
  rw [engineStep_of_compress he]
  refine ⟨fun hin => compressStart_next.mpr (.inl ⟨hin, rfl⟩),
    fun hin hout => compressStart_next.mpr (.inr (.inl ⟨hin, hout, rfl⟩)), fun hin hout => ?_⟩
  have hheader : (varintBytes s.regs.inLen).length ≤ s.outSize := by
    have := length_varintBytes_le s.regs.inLen
    omega
  refine ⟨headerWritten s, compressStart_next.mpr (.inr (.inr ⟨hin, hout, hheader, rfl⟩)), rfl, rfl, ?_,
    appended_outHolds _ { s with enc := { s.enc with op := 0 } }, rfl, rfl, rfl, rfl, rfl, rfl, rfl, rfl⟩
  simp only [headerWritten, goCompress_enc, appended_enc, Nat.zero_add]

/-! ## What each place of a block emits (R145, R147, R150) -/

/-- The bytes a step inside COMPRESS emits after the header. -/
def emission : CompressAt → State → List Byte
  | .literal, s => literalBytes s.enc.nextEmit (s.enc.ip - s.enc.nextEmit) s
  | .copy, s => copyBytes (s.enc.base - s.enc.candidate) s.enc.matched
  | .trailing, s =>
    if s.enc.nextEmit < s.enc.blockEnd then literalBytes s.enc.nextEmit (s.enc.blockEnd - s.enc.nextEmit) s else []
  | _, _ => []

section
variable {s t u : State}

@[simp] theorem setUpBlock_op (blen : Nat) (s : State) : (setUpBlock blen s).enc.op = s.enc.op := by
  obtain ⟨-, -, -, -, -, hop, -⟩ := setUpBlock_cursors blen s
  exact hop

@[simp] theorem searchProbed_op : (searchProbed u).enc.op = u.enc.op := by
  unfold searchProbed
  split <;> rfl

@[simp] theorem extended_op : (extended s).enc.op = s.enc.op := by
  unfold extended
  split <;> rfl

@[simp] theorem chained_op : (chained u).enc.op = u.enc.op := by
  unfold chained
  split <;> rfl

/-- OUT and `op` after a step are those after an `Emit` of `bytes` (R13). -/
abbrev Emits (bytes : List Byte) (s t : State) : Prop :=
  t.out = (appended bytes s).out ∧ t.enc.op = (appended bytes s).enc.op

/-- After its start COMPRESS touches OUT and `op` by its emissions alone. -/
theorem emits_emission {place : CompressAt} (hplace : place ≠ .start) (hstep : stepCompress place s = .next t) :
    Emits (emission place s) s t := by
  cases place with
  | start => exact absurd rfl hplace
  | block =>
    rcases compressBlock_next.mp hstep with ⟨-, rfl⟩ | ⟨-, rfl⟩
    · exact ⟨setUpBlock_out .., setUpBlock_op ..⟩
    · exact ⟨rfl, rfl⟩
  | search =>
    rcases compressSearch_next.mp hstep with ⟨-, rfl⟩ | ⟨-, -, -, -, rfl⟩
    · exact ⟨rfl, rfl⟩
    · exact ⟨searchProbed_out, searchProbed_op⟩
  | literal =>
    obtain ⟨-, -, rfl⟩ := compressLiteral_next.mp hstep
    exact ⟨rfl, rfl⟩
  | extend =>
    obtain ⟨-, rfl⟩ := compressExtend_next.mp hstep
    exact ⟨extended_out, extended_op⟩
  | copy =>
    obtain ⟨-, _, rfl, rfl⟩ := compressCopy_next.mp hstep
    exact ⟨rfl, rfl⟩
  | chain =>
    rcases compressChain_next.mp hstep with ⟨-, rfl⟩ | ⟨-, -, -, -, -, -, rfl⟩
    · exact ⟨rfl, rfl⟩
    · exact ⟨chained_out, chained_op⟩
  | trailing =>
    rcases compressTrailing_next.mp hstep with ⟨hmore, -, -, rfl⟩ | ⟨hnone, rfl⟩
    · rw [emission, if_pos hmore]
      exact ⟨rfl, rfl⟩
    · rw [emission, if_neg (Nat.not_lt.mpr hnone)]
      exact ⟨rfl, rfl⟩

/-! ## Where a step writes (R196, R219, R245) -/

theorem between_of_read_appended_ne {bytes : List Byte} {a : Nat} (h : (appended bytes s).out.read a ≠ s.out.read a) :
    s.enc.op ≤ a ∧ a < (appended bytes s).enc.op := by
  rw [appended_outHolds] at h
  exact of_not_not fun hoff => h (if_neg hoff)

theorem stepCompress_appends {place : CompressAt} {a : Nat} (hstep : stepCompress place s = .next t)
    (hchanged : t.out.read a ≠ s.out.read a) : (place ≠ .start → s.enc.op ≤ a) ∧ a < t.enc.op := by
  by_cases hplace : place = .start
  · subst hplace
    rcases compressStart_next.mp hstep with ⟨-, rfl⟩ | ⟨-, -, rfl⟩ | ⟨-, -, -, rfl⟩
    · exact absurd rfl hchanged
    · exact absurd rfl hchanged
    · obtain ⟨-, hbelow⟩ := between_of_read_appended_ne (s := { s with enc := { s.enc with op := 0 } }) hchanged
      exact ⟨fun hstart => absurd rfl hstart, hbelow⟩
  · obtain ⟨hout, hop⟩ := emits_emission hplace hstep
    rw [hout] at hchanged
    rw [hop]
    obtain ⟨hfrom, hbelow⟩ := between_of_read_appended_ne hchanged
    exact ⟨fun _ => hfrom, hbelow⟩

theorem decompressStart_out (hstep : decompressStart s = .next t) : t.out = s.out := by
  rcases decompressStart_next.mp hstep with ⟨-, rfl⟩ | ⟨-, _, -, rfl⟩ | ⟨-, _, _, -, hcheck⟩
  · rfl
  · rfl
  · rcases checkSizes_next hcheck with ⟨-, -, rfl⟩ | ⟨-, -, rfl⟩ | ⟨-, -, rfl⟩ <;> rfl

theorem decompressLoop_appends {a : Nat} (hloop : s.engine = .decompress .loop) (hstep : decompressLoop s = .next t)
    (hchanged : t.out.read a ≠ s.out.read a) :
    s.dec.outPos ≤ a ∧ a < t.dec.outPos ∧ t.dec.outPos ≤ s.dec.declared := by
  rcases decompressLoop_next.mp hstep with ⟨-, -, hexec⟩ | ⟨-, hend⟩
  · obtain ⟨-, hresult⟩ := exec_result hexec
    cases hresult with
    | completes _ hengine _ hpos hout =>
      rw [hpos]
      have hinside : ¬(a < s.dec.outPos ∨ s.dec.outPos + (fetchInstr s).len ≤ a) := fun ha => hchanged (hout a ha)
      rcases exec_bounds hexec with hidle | ⟨-, hdeclared⟩
      · rw [hengine, enterOpcode_engine, hloop] at hidle
        cases hidle
      · rw [hpos] at hdeclared
        rw [enterOpcode_outPos] at hdeclared ⊢
        exact ⟨by omega, by omega, hdeclared⟩
    | raises _ _ _ ht _ _ hout =>
      rw [ht, raiseError_out, hout] at hchanged
      exact absurd rfl hchanged
  · rcases endOfStream_next.mp hend with ⟨-, rfl⟩ | ⟨-, rfl⟩ <;> exact absurd rfl hchanged

end

/-- Settles O52: an emission of COMPRESS lies between the two values of `op`, and an opcode's output between those of `outPos`. -/
theorem engineOnlyAppends : Obligations.EngineOnlyAppends := by
  unfold Obligations.EngineOnlyAppends
  intro s t a hstep hchanged
  unfold engineStep at hstep
  split at hstep
  next =>
    cases hstep
    exact absurd rfl hchanged
  next place he => exact .inl ⟨place, he, stepCompress_appends hstep hchanged⟩
  next place he =>
    cases place with
    | start => exact absurd (congrArg (Memory.read · a) (decompressStart_out hstep)) hchanged
    | loop => exact .inr ⟨he, decompressLoop_appends he hstep hchanged⟩

end Sys2Proof.Machine
end

section
/-! DECOMPRESS runs a stream that expands to L bytes to its end (R200 to R219): the memory moves as list operations, one completed opcode, the loop over the stream, and the start before it. -/

namespace Sys2Proof

theorem length_encode (i : Instr) : (encode i).length = 1 + i.operandBytes := by
  cases i <;> rfl

end Sys2Proof

namespace Sys2Proof.Machine

/-! ## Byte spaces read as lists (R12) -/

theorem Memory.readBytes_write (m : Memory) (a : Nat) (b : Byte) :
    (m.write a b).readBytes 0 (a + 1) = m.readBytes 0 a ++ [b] := by
  rw [Memory.readBytes_append, Nat.zero_add]
  exact congrArg₂ (· ++ ·) (Memory.readBytes_writeBytes_before m a [b]) (Memory.readBytes_writeBytes m a [b])

/-- The move of a literal appends the bytes of IN (R206). -/
theorem Memory.readBytes_moveFrom (inp out : Memory) (src dst n : Nat) :
    (inp.moveFrom src dst n out).readBytes 0 (dst + n) = out.readBytes 0 dst ++ inp.readBytes src n := by
  induction n generalizing src dst out with
  | zero => exact (List.append_nil _).symm
  | succ n ih =>
    rw [Memory.moveFrom, ← Nat.succ_add_eq_add_succ dst n, ih, Memory.readBytes_write, Memory.readBytes, List.append_assoc]
    rfl

/-- The move of a copy repeats the output as `repeatBytes` does (R213, R218). -/
theorem Memory.readBytes_repeatBack {off dst : Nat} (n : Nat) (out : Memory) (hpos : 1 ≤ off) (hoff : off ≤ dst) :
    (Memory.repeatBack off dst n out).readBytes 0 (dst + n) = repeatBytes off n (out.readBytes 0 dst) := by
  induction n generalizing dst out with
  | zero => rfl
  | succ n ih =>
    rw [Memory.repeatBack, ← Nat.succ_add_eq_add_succ dst n, ih _ (by omega), Memory.readBytes_write, repeatBytes,
      Memory.length_readBytes, Memory.getD_readBytes _ _ _ _ (by omega), Nat.zero_add]

theorem Memory.readBytes_eq_append {m : Memory} {a n : Nat} {front back : List Byte}
    (h : m.readBytes a n = front ++ back) :
    n = front.length + back.length ∧ front = m.readBytes a front.length ∧
      back = m.readBytes (a + front.length) back.length := by
  obtain rfl : n = front.length + back.length := by rw [← Memory.length_readBytes m n a, h, List.length_append]
  rw [Memory.readBytes_append] at h
  obtain ⟨hfront, hback⟩ := List.append_inj h (Memory.length_readBytes m _ _)
  exact ⟨rfl, hfront.symm, hback.symm⟩

theorem Memory.read_eq_of_readBytes_eq {m m' : Memory} {n a : Nat} (h : m.readBytes 0 n = m'.readBytes 0 n)
    (ha : a < n) : m.read a = m'.read a := by
  rw [← Nat.zero_add a, ← Memory.getD_readBytes m n 0 a ha, h, Memory.getD_readBytes _ _ _ _ ha]

/-! ## Streams that meet the check of WINDOW4 (R207) -/

/-- An extended literal with at least four bytes of data: four bytes follow its tag, as WINDOW4 asks. -/
def FillsWindow (i : Instr) : Prop := copyOffset i = none → i.operandBytes = 0 ∨ 4 ≤ i.len

/-- Every opcode of the stream fills the window. -/
inductive WindowSafe : List Byte → Prop where
  | nil : WindowSafe []
  | opcode {stream data rest : List Byte} {i : Instr} (hdecode : decode stream = .ok (i, data ++ rest))
      (hlen : data.length = i.dataLen) (hfills : FillsWindow i) (hrest : WindowSafe rest) : WindowSafe stream

theorem WindowSafe.of_decode {stream data rest : List Byte} {i : Instr} (h : WindowSafe stream)
    (hdecode : decode stream = .ok (i, data ++ rest)) (hlen : data.length = i.dataLen) :
    FillsWindow i ∧ WindowSafe rest := by
  cases h with
  | nil => cases hdecode
  | opcode hdecode' hlen' hfills hrest =>
    rw [hdecode'] at hdecode
    injection hdecode with hdecode
    injection hdecode with hi hbytes
    subst hi
    obtain ⟨-, rfl⟩ := List.append_inj hbytes (hlen'.trans hlen.symm)
    exact ⟨hfills, hrest⟩

theorem WindowSafe.append {stream stream' : List Byte} (h : WindowSafe stream) (h' : WindowSafe stream') :
    WindowSafe (stream ++ stream') := by
  induction h with
  | nil => exact h'
  | opcode hdecode hlen hfills _ ih =>
    exact .opcode ((decode_append hdecode stream').trans (by rw [List.append_assoc])) hlen hfills ih

theorem windowSafe_encode {i : Instr} {data : List Byte} (hwf : i.WellFormed = true) (hlen : data.length = i.dataLen)
    (hfills : FillsWindow i) : WindowSafe (encode i ++ data) :=
  .opcode (rest := []) (by rw [decodeInvertsEncode i data hwf, List.append_nil]) hlen hfills .nil

theorem dataLen_of_literal {i : Instr} (h : copyOffset i = none) : i.dataLen = i.len := by
  cases i with
  | lit | litx1 | litx2 | litx3 | litx4 => rfl
  | copy1 | copy2 | copy4 => cases h

theorem dataLen_of_copy {i : Instr} {off : Nat} (h : copyOffset i = some off) : i.dataLen = 0 := by
  cases i with
  | lit | litx1 | litx2 | litx3 | litx4 => cases h
  | copy1 | copy2 | copy4 => rfl

/-! ## One opcode completes (R206 to R216) -/

/-- The output of DECOMPRESS so far. -/
def outputSoFar (s : State) : List Byte := s.out.readBytes 0 s.dec.outPos

@[simp] theorem length_outputSoFar (s : State) : (outputSoFar s).length = s.dec.outPos := Memory.length_readBytes ..

/-- An opcode that took `n` bytes of the stream has completed, and the output is `output`. -/
structure Completed (n : Nat) (output : List Byte) (s t : State) : Prop where
  keeps : OpcodeKeeps s t
  regs : t.regs = s.regs
  engine : t.engine = s.engine
  pos : t.dec.pos = s.dec.pos + n
  output : outputSoFar t = output

section
variable {s : State}

theorem literalBody_completes {len : Nat} (hsizes : SizesChecked s) (hin : s.dec.pos + len ≤ s.inLen)
    (hout : s.dec.outPos + len ≤ s.dec.declared) :
    ∃ t, literalBody len s = .next t ∧
      Completed len (outputSoFar s ++ s.inp.readBytes s.dec.pos len) s t := by
  obtain ⟨t, ht⟩ := literalBody_goesOn len hsizes
  refine ⟨t, ht, ?_⟩
  rcases literalBody_next ht with ⟨hshort, -⟩ | ⟨-, hover, -⟩ | ⟨-, -, -, -, rfl⟩
  · omega
  · omega
  · exact ⟨opcodeKeeps_refl s, rfl, rfl, rfl, Memory.readBytes_moveFrom ..⟩

theorem copyBody_completes {len off : Nat} (hsizes : SizesChecked s) (hpos : 1 ≤ off) (hoff : off ≤ s.dec.outPos)
    (hout : s.dec.outPos + len ≤ s.dec.declared) :
    ∃ t, copyBody len off s = .next t ∧ Completed 0 (repeatBytes off len (outputSoFar s)) s t := by
  obtain ⟨t, ht⟩ := copyBody_goesOn len off hsizes
  refine ⟨t, ht, ?_⟩
  rcases copyBody_next ht with ⟨hzero, -⟩ | ⟨-, hfar, -⟩ | ⟨-, -, hover, -⟩ | ⟨-, -, -, -, rfl⟩
  · omega
  · omega
  · omega
  · exact ⟨opcodeKeeps_refl s, rfl, rfl, rfl, Memory.readBytes_repeatBack len s.out hpos hoff⟩

/-- A step over operand bytes before the shared procedure counts to the opcode (R207, R214 to R216). -/
theorem Completed.of_step_over {n k : Nat} {output : List Byte} {dec : Dec} {t : State}
    (h : Completed n output { s with dec := dec } t) (hdec : dec = { s.dec with pos := s.dec.pos + k, k := dec.k }) :
    Completed (k + n) output s t := by
  obtain ⟨⟨hsame, hdeclared, htag, hc⟩, hregs, hengine, hpos, hout⟩ := h
  rw [hdec] at hpos hdeclared htag hc
  exact ⟨⟨hsame, hdeclared, htag, hc⟩, hregs, hengine, by rw [hpos, ← Nat.add_assoc], hout⟩

/-- The length bytes WINDOW4 asks for are there when the literal's own bytes are (R207). -/
theorem pos_add_extNeed_le {i : Instr} (hkind : copyOffset i = none) (hoperands : 0 < i.operandBytes)
    (hin : s.dec.pos + (i.operandBytes + i.len) ≤ s.inLen)
    (hwindow : s.par.litExtCheck = .window4 → FillsWindow i) :
    s.dec.pos + extNeed s.par.litExtCheck i.operandBytes ≤ s.inLen := by
  cases hcheck : s.par.litExtCheck with
  | exact => rw [extNeed]; omega
  | window4 =>
    have := hwindow hcheck hkind
    rw [extNeed]
    omega

theorem exec_literal_completes {i : Instr} (hkind : copyOffset i = none) (hsizes : SizesChecked s)
    (hin : s.dec.pos + (i.operandBytes + i.len) ≤ s.inLen) (hout : s.dec.outPos + i.len ≤ s.dec.declared)
    (hwindow : s.par.litExtCheck = .window4 → FillsWindow i) :
    ∃ t, exec i s = .next t ∧ Completed (i.operandBytes + i.len)
      (outputSoFar s ++ s.inp.readBytes (s.dec.pos + i.operandBytes) i.len) s t := by
  have extended {k : Nat} (hk : k = i.operandBytes) (hmin : 0 < k) : ∃ t, extendedLiteral k i.len s = .next t ∧
      Completed (k + i.len) (outputSoFar s ++ s.inp.readBytes (s.dec.pos + k) i.len) s t := by
    subst hk
    obtain ⟨t, ht, hdone⟩ := literalBody_completes (len := i.len)
      (s := { s with dec := { s.dec with k := i.operandBytes, pos := s.dec.pos + i.operandBytes } }) hsizes
      ((Nat.add_assoc ..).trans_le hin) hout
    exact ⟨t, (if_neg (Nat.not_lt.mpr (pos_add_extNeed_le hkind hmin hin hwindow))).trans ht, hdone.of_step_over rfl⟩
  cases i with
  | lit len =>
    obtain ⟨t, ht, hdone⟩ := literalBody_completes (len := len) hsizes ((Nat.zero_add len) ▸ hin) hout
    exact ⟨t, ht, (Nat.zero_add len).symm ▸ hdone⟩
  | litx1 | litx2 | litx3 | litx4 => exact extended rfl (Nat.succ_pos _)
  | copy1 | copy2 | copy4 => cases hkind

theorem exec_copy_completes {i : Instr} {off : Nat} (hkind : copyOffset i = some off) (hsizes : SizesChecked s)
    (hin : s.dec.pos + i.operandBytes ≤ s.inLen) (hpos : 1 ≤ off) (hoff : off ≤ s.dec.outPos)
    (hout : s.dec.outPos + i.len ≤ s.dec.declared) :
    ∃ t, exec i s = .next t ∧ Completed i.operandBytes (repeatBytes off i.len (outputSoFar s)) s t := by
  have hexec : exec i s = copyOpcode i.operandBytes i.len off s := by
    cases i with
    | lit | litx1 | litx2 | litx3 | litx4 => cases hkind
    | copy1 | copy2 | copy4 => cases hkind; rfl
  obtain ⟨t, ht, hdone⟩ := copyBody_completes
    (s := { s with dec := { s.dec with pos := s.dec.pos + i.operandBytes } }) hsizes hpos hoff hout
  exact ⟨t, hexec.trans ((if_neg (Nat.not_lt.mpr hin)).trans ht), hdone.of_step_over rfl⟩

end

/-! ## The loop over the opcodes (R204, R217) -/

/-- DECOMPRESS is in its opcode loop, and it alone moves. -/
structure Looping (s : State) : Prop where
  turns : s.turns = []
  engine : s.engine = .decompress .loop
  sizes : SizesChecked s

theorem Expands.length_le {stream before after : List Byte} (h : Expands stream before after) :
    before.length ≤ after.length := by
  induction h with
  | nil => exact le_rfl
  | literal _ _ _ _ ih =>
    rw [List.length_append] at ih
    omega
  | copy _ _ _ _ _ ih =>
    rw [length_repeatBytes] at ih
    omega

section
variable {s t : State} {i : Instr} {data rest : List Byte}

/-- Where an opcode's data and what follows it lie in IN (R78, R79). -/
theorem bytes_of_decode (hdecode : decode (remainingBytes s) = .ok (i, data ++ rest)) :
    s.dec.pos + 1 + (i.operandBytes + data.length) + rest.length = s.inLen ∧
      data = s.inp.readBytes (s.dec.pos + 1 + i.operandBytes) data.length ∧
      rest = s.inp.readBytes (s.dec.pos + 1 + (i.operandBytes + data.length)) rest.length := by
  obtain ⟨-, hencode⟩ := encodeInvertsDecode _ _ _ hdecode
  obtain ⟨hlen, -, htail⟩ := Memory.readBytes_eq_append hencode.symm
  obtain ⟨-, hdata, hrest⟩ := Memory.readBytes_eq_append htail.symm
  rw [length_encode, ← Nat.add_assoc] at hdata hrest
  rw [length_encode, List.length_append] at hlen
  rw [Nat.add_assoc _ i.operandBytes] at hrest
  exact ⟨by omega, hdata, hrest⟩

/-- One step of the loop from `s` to `t`: `rest` is left of the stream, and the output is `output`. -/
structure LoopsOn (rest output : List Byte) (s t : State) : Prop where
  step : engineStep s = .next t
  looping : Looping t
  remaining : remainingBytes t = rest
  output : outputSoFar t = output
  declared : t.dec.declared = s.dec.declared
  par : t.par = s.par

/-- A completed opcode is one step of the loop, which goes on with the bytes after it. -/
theorem loopsOn_of_completed {output : List Byte} (hloop : Looping s)
    (hdecode : decode (remainingBytes s) = .ok (i, data ++ rest)) (hexec : exec i (enterOpcode s) = .next t)
    (hdone : Completed (i.operandBytes + data.length) output (enterOpcode s) t) : LoopsOn rest output s t := by
  obtain ⟨hturns, he, hsizes⟩ := hloop
  obtain ⟨⟨⟨hpar, hinp, -, -, -, hturns', -⟩, hdeclared, -⟩, hregs, hengine, hpos, houtput⟩ := hdone
  obtain ⟨hlen, -, hrest⟩ := bytes_of_decode hdecode
  have hinLen : t.inLen = s.inLen := congrArg (fun regs => regs.inLen.toNat) hregs
  refine ⟨?_, ⟨hturns'.trans hturns, hengine.trans he, ?_⟩, ?_, houtput, hdeclared, hpar⟩
  · rw [← step_of_turns_nil hturns, ← hexec]
    exact stepRunsDecodedOpcode s s i _ (by rw [engineTurn, hturns]) he hsizes.1 hdecode
  · rw [SizesChecked, hinLen, State.inSize, State.outSize, hpar, hdeclared]
    exact hsizes
  · rw [enterOpcode_pos] at hpos
    rw [remainingBytes, hinLen, hinp, hpos, ← hlen, Nat.add_sub_cancel_left]
    exact hrest.symm

theorem literal_loopsOn (hloop : Looping s) (hdecode : decode (remainingBytes s) = .ok (i, data ++ rest))
    (hkind : copyOffset i = none) (hdata : data.length = i.len) (hout : s.dec.outPos + i.len ≤ s.dec.declared)
    (hwindow : s.par.litExtCheck = .window4 → FillsWindow i) : ∃ t, LoopsOn rest (outputSoFar s ++ data) s t := by
  obtain ⟨hpos, hbytes, -⟩ := bytes_of_decode hdecode
  have hin : (enterOpcode s).dec.pos + (i.operandBytes + i.len) ≤ s.inLen := by
    rw [enterOpcode_pos, ← hdata]
    omega
  obtain ⟨t, hexec, hdone⟩ := exec_literal_completes (s := enterOpcode s) hkind hloop.sizes hin hout hwindow
  rw [enterOpcode_inp, enterOpcode_pos, ← hdata, ← hbytes] at hdone
  exact ⟨t, loopsOn_of_completed hloop hdecode hexec hdone⟩

theorem copy_loopsOn {off : Nat} (hloop : Looping s) (hdecode : decode (remainingBytes s) = .ok (i, rest))
    (hkind : copyOffset i = some off) (hpos : 1 ≤ off) (hoff : off ≤ s.dec.outPos)
    (hout : s.dec.outPos + i.len ≤ s.dec.declared) : ∃ t, LoopsOn rest (repeatBytes off i.len (outputSoFar s)) s t := by
  obtain ⟨hbytes, -⟩ := bytes_of_decode (data := []) hdecode
  have hin : (enterOpcode s).dec.pos + i.operandBytes ≤ s.inLen := by
    rw [enterOpcode_pos, ← hbytes]
    exact Nat.le_add_right ..
  obtain ⟨t, hexec, hdone⟩ := exec_copy_completes (s := enterOpcode s) hkind hloop.sizes hin hpos hoff hout
  exact ⟨t, loopsOn_of_completed (data := []) hloop hdecode hexec hdone⟩

/-- The end of DECOMPRESS (R217, R250). -/
def decompressEnded (s : State) : State :=
  finish { s with regs := { s.regs with outLen := BitVec.ofNat 32 s.dec.declared } }

/-- The loop turns a stream that expands to L bytes into those bytes and ends without an error. -/
theorem loop_reaches_end {stream before after : List Byte} (h : Expands stream before after) (hloop : Looping s)
    (hstream : remainingBytes s = stream) (hbefore : outputSoFar s = before) (hlen : after.length = s.dec.declared)
    (hwindow : s.par.litExtCheck = .window4 → WindowSafe stream) :
    ∃ k u, Host.Core.run Sys2Proof.core k s = .next (decompressEnded u) ∧ u.dec.declared = s.dec.declared ∧
      u.out.readBytes 0 s.dec.declared = after := by
  induction h generalizing s with
  | nil out =>
    have hend : s.inLen ≤ s.dec.pos := by
      have := congrArg List.length hstream
      rw [remainingBytes, Memory.length_readBytes, List.length_nil] at this
      omega
    have houtPos : s.dec.outPos = s.dec.declared := by rw [← hlen, ← hbefore, length_outputSoFar]
    have hstep : engineStep s = .next (decompressEnded s) := by
      rw [engineStep, hloop.engine]
      exact decompressLoop_next.mpr (.inr ⟨hend, endOfStream_next.mpr (.inr ⟨houtPos, rfl⟩)⟩)
    refine ⟨1, s, (run_succ hloop.turns).mpr ⟨_, hstep, rfl⟩, rfl, ?_⟩
    rw [← houtPos]
    exact hbefore
  | @literal stream data rest before after i hdecode hkind hdata hrest ih =>
    subst hstream hbefore
    have hout := hrest.length_le
    rw [List.length_append, length_outputSoFar, hdata, hlen] at hout
    have hsafe (hcheck : s.par.litExtCheck = .window4) : FillsWindow i ∧ WindowSafe rest :=
      (hwindow hcheck).of_decode hdecode (hdata.trans (dataLen_of_literal hkind).symm)
    obtain ⟨t, ht⟩ := literal_loopsOn hloop hdecode hkind hdata hout fun hcheck => (hsafe hcheck).1
    obtain ⟨k, u, hrun, hu⟩ := ih ht.looping ht.remaining ht.output (hlen.trans ht.declared.symm)
      fun hcheck => (hsafe (ht.par ▸ hcheck)).2
    exact ⟨k + 1, u, (run_succ hloop.turns).mpr ⟨t, ht.step, hrun⟩, ht.declared ▸ hu⟩
  | @copy stream rest before after i off hdecode hkind hpos hoff hrest ih =>
    subst hstream hbefore
    have hout := hrest.length_le
    rw [length_repeatBytes, length_outputSoFar, hlen] at hout
    rw [length_outputSoFar] at hoff
    have hsafe (hcheck : s.par.litExtCheck = .window4) : FillsWindow i ∧ WindowSafe rest :=
      (hwindow hcheck).of_decode (data := []) hdecode (dataLen_of_copy hkind).symm
    obtain ⟨t, ht⟩ := copy_loopsOn hloop hdecode hkind hpos hoff hout
    obtain ⟨k, u, hrun, hu⟩ := ih ht.looping ht.remaining ht.output (hlen.trans ht.declared.symm)
      fun hcheck => (hsafe (ht.par ▸ hcheck)).2
    exact ⟨k + 1, u, (run_succ hloop.turns).mpr ⟨t, ht.step, hrun⟩, ht.declared ▸ hu⟩

/-! ## The start (R201 to R203) -/

/-- The opcode loop begins after a header of `L` bytes (R200). -/
def loopEntered (L : Word) (s : State) : State :=
  { s with
    engine := .decompress .loop
    regs := { s.regs with hdrLen := L }
    dec := { s.dec with declared := L.toNat, pos := (varintBytes L).length, outPos := 0 } }

/-- The header decoder sees the whole header of a stream that begins with one (R102). -/
theorem varintDecode_headerWindow {L : Word} {opcodes : List Byte}
    (hstream : s.inp.readBytes 0 s.inLen = varintBytes L ++ opcodes) :
    varintDecode (headerWindow s) = .ok (L, (varintBytes L).length) := by
  have hheader := length_varintBytes_le L
  have hfits := congrArg List.length hstream
  rw [Memory.length_readBytes, List.length_append] at hfits
  have hwindow : (varintBytes L).length ≤ min Config.varintMaxBytes s.inLen := by
    rw [Config.varintMaxBytes]
    omega
  rw [headerWindow, ← Memory.take_readBytes _ _ (Nat.min_le_right ..), hstream, List.take_append,
    List.take_of_length_le hwindow]
  exact varintDecodeInvertsEncode L _

theorem decompressStart_of_header {L : Word} {opcodes : List Byte} (hin : s.inLen ≤ s.inSize)
    (hstream : s.inp.readBytes 0 s.inLen = varintBytes L ++ opcodes)
    (hcap : s.regs.maxlenEn = true → L.toNat ≤ s.regs.maxLen.toNat) (hout : L.toNat ≤ s.outSize) :
    decompressStart s = .next (loopEntered L s) := by
  refine decompressStart_next.mpr (.inr (.inr ⟨hin, L, _, varintDecode_headerWindow hstream, ?_⟩))
  exact (if_neg fun hover => Nat.not_lt.mpr (hcap hover.1) hover.2).trans (if_neg (Nat.not_lt.mpr hout))

/-- DECOMPRESS of a header of L and opcodes that expand to L bytes ends without an error, with those bytes in OUT. -/
theorem decompress_reaches_end {L : Word} {opcodes after : List Byte} (hturns : s.turns = [])
    (he : s.engine = .decompress .start) (hin : s.inLen ≤ s.inSize)
    (hstream : s.inp.readBytes 0 s.inLen = varintBytes L ++ opcodes)
    (hcap : s.regs.maxlenEn = true → L.toNat ≤ s.regs.maxLen.toNat) (hout : L.toNat ≤ s.outSize)
    (hexpands : Expands opcodes [] after) (hlen : after.length = L.toNat)
    (hwindow : s.par.litExtCheck = .window4 → WindowSafe opcodes) :
    ∃ k u, Host.Core.run Sys2Proof.core k s = .next (decompressEnded u) ∧ u.dec.declared = L.toNat ∧
      u.out.readBytes 0 L.toNat = after := by
  have hstart : engineStep s = .next (loopEntered L s) := by
    rw [engineStep, he]
    exact decompressStart_of_header hin hstream hcap hout
  obtain ⟨hinLen, -, hopcodes⟩ := Memory.readBytes_eq_append hstream
  have hremaining : remainingBytes (loopEntered L s) = opcodes := by
    change s.inp.readBytes (varintBytes L).length (s.inLen - (varintBytes L).length) = opcodes
    rw [hinLen, Nat.add_sub_cancel_left, hopcodes, Memory.length_readBytes, Nat.zero_add]
  obtain ⟨k, u, hrun, hu⟩ := loop_reaches_end hexpands (s := loopEntered L s) ⟨hturns, rfl, hin, hout⟩ hremaining rfl
    hlen hwindow
  exact ⟨k + 1, u, (run_succ hturns).mpr ⟨_, hstart, hrun⟩, hu⟩

end

end Sys2Proof.Machine
end

section
/-! The round trip (R195): COMPRESS writes a stream that every setting of LIT_EXT_CHECK accepts, and DECOMPRESS turns it back into the input. -/

namespace Sys2Proof.Machine

/-! ## What COMPRESS emits fills the window (R170 to R178, R207) -/

theorem windowSafe_literalHeader (w : LitExtWidth) {data : List Byte} (hmin : 1 ≤ data.length)
    (hmax : data.length ≤ 65536) : WindowSafe (literalHeader w data.length ++ data) := by
  by_cases hlit : data.length ≤ 60
  · rw [literalHeader_eq_encode_lit w hlit]
    exact windowSafe_encode (wellFormed_lit.mpr ⟨hmin, hlit⟩) rfl fun _ => .inl rfl
  · obtain ⟨i, hheader, hwf, hkind, hlen⟩ := literalHeader_eq_encode w hmin hmax
    rw [hheader]
    exact windowSafe_encode hwf (hlen.symm.trans (dataLen_of_literal hkind).symm) fun _ => .inr (by omega)

theorem windowSafe_copy {i : Instr} {off : Nat} (hwf : i.WellFormed = true) (hkind : copyOffset i = some off) :
    WindowSafe (encode i) := by
  rw [← List.append_nil (encode i)]
  exact windowSafe_encode hwf (dataLen_of_copy hkind).symm fun hnone => by rw [hkind] at hnone; cases hnone

theorem windowSafe_copyBytes64 {off m : Nat} (hoff : off ≤ 65535) (hmin : 4 ≤ m) (hmax : m ≤ 64) :
    WindowSafe (copyBytes64 off m) := by
  by_cases h : m < 12 ∧ off < 2048
  · rw [copyBytes64_eq_encode_copy1 h.1 h.2]
    exact windowSafe_copy (wellFormed_copy1.mpr (by omega)) rfl
  · rw [copyBytes64_eq_encode_copy2 h]
    exact windowSafe_copy (wellFormed_copy2.mpr (by omega)) rfl

theorem windowSafe_chunks {off : Nat} {chunks : List Nat} (hoff : off ≤ 65535)
    (hchunks : ∀ m ∈ chunks, 4 ≤ m ∧ m ≤ 64) : WindowSafe (chunks.flatMap (copyBytes64 off)) := by
  induction chunks with
  | nil => exact .nil
  | cons m chunks ih =>
    obtain ⟨⟨hmin, hmax⟩, hrest⟩ := List.forall_mem_cons.mp hchunks
    rw [List.flatMap_cons]
    exact (windowSafe_copyBytes64 hoff hmin hmax).append (ih hrest)

section
variable {s t u v : State}

theorem windowSafe_literalBytes {src n : Nat} (u : State) (hmin : 1 ≤ n) (hmax : n ≤ 65536) :
    WindowSafe (literalBytes src n u) := by
  have h := windowSafe_literalHeader u.par.litExtWidth (data := u.inp.readBytes src n)
    (by rwa [Memory.length_readBytes]) (by rwa [Memory.length_readBytes])
  rwa [Memory.length_readBytes] at h

/-- Every emission of a block fills the window: a literal of a block has at most 65536 bytes, and an offset is shorter. -/
theorem windowSafe_emission {place : CompressAt} (hat : AtPlace place u) : WindowSafe (emission place u) := by
  cases place with
  | start | block | search | extend | chain => exact .nil
  | literal =>
    obtain ⟨-, hb, ⟨-, hlimit, -⟩, hemit, -, hip, -⟩ := hat
    have hblock := blockEnd_le_blockStart_add hb
    obtain ⟨-, -, -, -, hstart, -⟩ := hb
    exact windowSafe_literalBytes u (by omega) (by omega)
  | copy =>
    obtain ⟨⟨-, hb, ⟨-, hlimit, -⟩, ⟨-, hbase, -, hstart, -, hmin, -⟩, -⟩, -⟩ := hat
    have hblock := blockEnd_le_blockStart_add hb
    simp only [Config.inputMargin] at hlimit
    exact windowSafe_chunks (by omega) fun m hm => bounds_of_mem_copyChunks hmin hm
  | trailing =>
    obtain ⟨-, hb, -⟩ := hat
    have hblock := blockEnd_le_blockStart_add hb
    obtain ⟨-, -, -, -, hstart, -⟩ := hb
    rw [emission]
    split
    · exact windowSafe_literalBytes u (by omega) (by omega)
    · exact .nil

/-! ## The stream COMPRESS writes (R190) -/

/-- OUT below `op` holds the header of `n` and opcodes that fill the window. -/
def WindowSafeStream (n : Word) (u : State) : Prop :=
  ∃ opcodes, u.out.readBytes 0 u.enc.op = varintBytes n ++ opcodes ∧ WindowSafe opcodes

theorem WindowSafeStream.of_emits {n : Word} {bytes : List Byte} (h : WindowSafeStream n u) (hemits : Emits bytes u v)
    (hbytes : WindowSafe bytes) : WindowSafeStream n v := by
  obtain ⟨opcodes, hout, hsafe⟩ := h
  obtain ⟨hout', hop⟩ := hemits
  exact ⟨opcodes ++ bytes, by rw [hout', hop, readBytes_appended, hout, List.append_assoc], hsafe.append hbytes⟩

/-- What the command that started in `s` has written: opcodes for the input covered, all of which fill the window. -/
def EncodesSafelyAt (s : State) (place : CompressAt) (u : State) : Prop :=
  EncodesAt s place u ∧ (place ≠ .start → WindowSafeStream s.regs.inLen u)

theorem encodesSafelyAt_stepCompress {place : CompressAt} (he : u.engine = .compress place) (hat : AtPlace place u)
    (h : EncodesSafelyAt s place u) (hstep : stepCompress place u = .next v) : AtItsPlace (EncodesSafelyAt s) v := by
  obtain ⟨hencodes, hsafe⟩ := h
  intro place' he'
  refine ⟨encodesAt_stepCompress he hat hencodes hstep place' he', fun _ => ?_⟩
  by_cases hplace : place = .start
  · subst hplace
    obtain rfl : u = s := hencodes
    rcases compressStart_next.mp hstep with ⟨-, rfl⟩ | ⟨-, -, rfl⟩ | ⟨-, -, -, rfl⟩
    · cases he'
    · cases he'
    · exact ⟨[], (readBytes_appended _ { u with enc := { u.enc with op := 0 } }).trans (List.append_nil _).symm, .nil⟩
  · exact (hsafe hplace).of_emits (emits_emission hplace hstep) (windowSafe_emission hat)

/-- COMPRESS ends with a header and opcodes for its input in OUT, acceptable under both values of LIT_EXT_CHECK. -/
theorem compress_writes_windowSafe (hturns : s.turns = []) (he : s.engine = .compress .start) (hin : s.inLen ≤ s.inSize)
    (hout : maxCompressedLength s.inLen ≤ s.outSize) :
    ∃ k t opcodes, Host.Core.run Sys2Proof.core k s = .next t ∧ t.engine = .idle ∧
      t.out.readBytes 0 t.regs.outLen.toNat = varintBytes s.regs.inLen ++ opcodes ∧
      Expands opcodes [] (s.inp.readBytes 0 s.inLen) ∧ WindowSafe opcodes := by
  obtain ⟨k, -, last, u, t, hrun, hlast, hat, ⟨henc, hsafe⟩, hstep, hidle⟩ :=
    compress_reaches_last_step (P := EncodesSafelyAt s) encodesSafelyAt_stepCompress hturns he trivial
      ⟨rfl, fun hstart => absurd rfl hstart⟩
  rcases stepCompress_idle hlast hstep hidle with ⟨rfl, hcheck, -⟩ | ⟨rfl, hend, rfl⟩
  · obtain rfl : u = s := henc
    omega
  · have henc' : Encodes s u u.enc.inPos := henc
    obtain ⟨opcodes, hbytes, hexpands⟩ := henc'.stream
    obtain ⟨opcodes', hbytes', hwindow⟩ := hsafe nofun
    obtain rfl : opcodes = opcodes' := List.append_cancel_left (hbytes.symm.trans hbytes')
    obtain ⟨-, -, hregs, -⟩ := henc'.frame
    have hlen : u.inLen = s.inLen := congrArg (fun regs => regs.inLen.toNat) hregs
    have hmax := op_le_maxCompressedLength hat hend
    obtain ⟨⟨-, hfit, -⟩, hpos, -⟩ := hat
    rw [hpos.antisymm hend, hlen] at hexpands
    exact ⟨k, _, opcodes, hrun, hidle, by rw [toNat_outLen_compressEnded (hmax.trans hfit)]; exact hbytes, hexpands, hwindow⟩

/-! ## The state a command ends in -/

theorem run_of_idle (k : Nat) (hturns : s.turns = []) (hidle : s.engine = .idle) :
    Host.Core.run Sys2Proof.core k s = .next s := by
  induction k with
  | zero => rfl
  | succ k ih => exact (run_succ hturns).mpr ⟨s, by rw [engineStep, hidle], ih⟩

/-- However long it runs, a command that has ended has ended in one state. -/
theorem run_idle_unique {k k' : Nat} (hturns : s.turns = []) (hrun : Host.Core.run Sys2Proof.core k s = .next t)
    (hidle : t.engine = .idle) (hrun' : Host.Core.run Sys2Proof.core k' s = .next u) (hidle' : u.engine = .idle) :
    t = u := by
  induction k generalizing s k' with
  | zero =>
    obtain rfl : s = t := Host.Outcome.next.inj hrun
    exact Host.Outcome.next.inj ((run_of_idle k' hturns hidle).symm.trans hrun')
  | succ k ih =>
    cases k' with
    | zero =>
      obtain rfl : s = u := Host.Outcome.next.inj hrun'
      exact Host.Outcome.next.inj (hrun.symm.trans (run_of_idle (k + 1) hturns hidle'))
    | succ k' =>
      obtain ⟨v, hstep, hrest⟩ := (run_succ hturns).mp hrun
      obtain ⟨v', hstep', hrest'⟩ := (run_succ hturns).mp hrun'
      obtain rfl : v = v' := by simpa [hstep] using hstep'
      obtain ⟨-, -, -, hturns', -⟩ := engineStep_frame hstep
      exact ih (hturns'.trans hturns) hrest hrest'

end

/-- Settles O57: the bytes COMPRESS wrote are a header of n and opcodes that expand to the input, and no check of DECOMPRESS rejects them. -/
theorem roundTrip : Obligations.RoundTrip := by
  unfold Obligations.RoundTrip
  intro s t u k hturns he hin hout hrun hidle hturns' he' hinLen hin' hinput hsize hcap
  obtain ⟨k', t', opcodes, hrun', hidle', hwritten, hexpands, hwindow⟩ := compress_writes_windowSafe hturns he hin hout
  obtain rfl : t = t' := run_idle_unique hturns hrun hidle hrun' hidle'
  have hlen : u.inLen = t.regs.outLen.toNat := congrArg BitVec.toNat hinLen
  have hstream : u.inp.readBytes 0 u.inLen = varintBytes s.regs.inLen ++ opcodes := by
    rw [← hwritten, ← hlen]
    exact Memory.readBytes_congr _ _ _ _ fun a ha => hinput _ ((Nat.zero_add a).trans_lt ha)
  obtain ⟨j, v, hv, hdeclared, houtput⟩ := decompress_reaches_end hturns' he' hin' hstream hcap hsize hexpands
    (Memory.length_readBytes ..) fun _ => hwindow
  refine ⟨j, decompressEnded v, hv, rfl, rfl, ?_, fun _ => Memory.read_eq_of_readBytes_eq houtput⟩
  rw [decompressEnded, finish_outLen, hdeclared, BitVec.ofNat_toNat, BitVec.setWidth_eq]

end Sys2Proof.Machine
end

section
/-! The opcodes outcome by outcome (R206 to R216, R218, R221): each shared procedure under the conditions of each of its outcomes, the bytes a move leaves, and the fetch of an opcode whose operand bytes are missing. -/

namespace Sys2Proof.Machine

/-! ## The bytes a move leaves (R206, R213, R218) -/

theorem Memory.read_moveFrom (inp out : Memory) (src dst : Nat) {n j : Nat} (hj : j < n) :
    (inp.moveFrom src dst n out).read (dst + j) = inp.read (src + j) := by
  have hmoved := congrArg (·.getD (dst + j) 0#8) (Memory.readBytes_moveFrom inp out src dst n)
  have hlen : (out.readBytes 0 dst).length ≤ dst + j := by rw [Memory.length_readBytes]; exact Nat.le_add_right ..
  simp only [List.getD_append_right _ _ _ _ hlen, Memory.length_readBytes, Nat.add_sub_cancel_left] at hmoved
  rwa [Memory.getD_readBytes _ _ _ _ (by omega), Memory.getD_readBytes _ _ _ _ hj, Nat.zero_add] at hmoved

/-- A copy repeats the `off` bytes before `dst`, also where it reads what it has written itself (R218). -/
theorem Memory.read_repeatBack {off dst n j : Nat} (out : Memory) (hpos : 1 ≤ off) (hoff : off ≤ dst) (hj : j < n) :
    (Memory.repeatBack off dst n out).read (dst + j) = out.read (dst - off + j % off) := by
  induction n generalizing dst out j with
  | zero => omega
  | succ n ih =>
    rw [Memory.repeatBack]
    cases j with
    | zero =>
      rw [Memory.read_repeatBack_outside _ _ _ _ _ (by omega), Memory.read_write, if_pos (Nat.add_zero dst),
        Nat.zero_mod, Nat.add_zero]
    | succ j =>
      have hmod : j % off < off := Nat.mod_lt _ hpos
      rw [← Nat.succ_add_eq_add_succ dst j, ih _ (by omega) (by omega), Memory.read_write, ← Nat.mod_add_mod]
      by_cases hwraps : j % off + 1 = off
      · rw [if_pos (by omega), hwraps, Nat.mod_self, Nat.add_zero]
      · rw [if_neg (by omega), Nat.mod_eq_of_lt (a := j % off + 1) (by omega)]
        congr 1
        omega

section
variable {s : State}

/-! ## LiteralBody and the literals (R206 to R212) -/

section
variable {k len : Nat}

/-- A literal has moved its data (R206). -/
def literalMoved (len : Nat) (s : State) : State :=
  { s with
    out := s.inp.moveFrom s.dec.pos s.dec.outPos len s.out
    dec := { s.dec with len := len, pos := s.dec.pos + len, outPos := s.dec.outPos + len } }

theorem literalBody_of_truncated (h : s.inLen < s.dec.pos + len) :
    literalBody len s = .next (raiseError .truncLitData s) :=
  if_pos h

theorem literalBody_of_overflow (hin : s.dec.pos + len ≤ s.inLen) (hout : s.dec.declared < s.dec.outPos + len) :
    literalBody len s = .next (raiseError .outOverflow s) :=
  (if_neg (Nat.not_lt.mpr hin)).trans (if_pos hout)

theorem literalBody_of_fits (hsizes : SizesChecked s) (hin : s.dec.pos + len ≤ s.inLen)
    (hout : s.dec.outPos + len ≤ s.dec.declared) : literalBody len s = .next (literalMoved len s) := by
  rw [literalBody, if_neg (Nat.not_lt.mpr hin), if_neg (Nat.not_lt.mpr hout),
    withinIn_of_le _ (hin.trans hsizes.1), withinOut_of_le _ (hout.trans hsizes.2)]
  rfl

/-- The length bytes of an extended literal are read (R207). -/
def pastLengthBytes (k : Nat) (s : State) : State := { s with dec := { s.dec with k := k, pos := s.dec.pos + k } }

theorem extendedLiteral_of_short (h : s.inLen < s.dec.pos + extNeed s.par.litExtCheck k) :
    extendedLiteral k len s = .next (raiseError .truncLitLen s) :=
  if_pos h

theorem extendedLiteral_of_present (h : s.dec.pos + extNeed s.par.litExtCheck k ≤ s.inLen) :
    extendedLiteral k len s = literalBody len (pastLengthBytes k s) :=
  if_neg (Nat.not_lt.mpr h)

theorem extNeed_eq (check : LitExtCheck) (k : Nat) : extNeed check k = if check = .exact then k else 4 := by
  cases check <;> rfl

/-- Both checks ask at least for the length bytes themselves. -/
theorem le_extNeed (check : LitExtCheck) (hk : k ≤ 4) : k ≤ extNeed check k := by
  cases check with
  | exact => exact le_rfl
  | window4 => exact hk

/-- The extended literals with their numbers of length bytes (R74). -/
abbrev extendedLiterals (len : Nat) : List (Nat × Instr) :=
  [(1, .litx1 len), (2, .litx2 len), (3, .litx3 len), (4, .litx4 len)]

theorem exec_of_mem_extendedLiterals {i : Instr} (h : (k, i) ∈ extendedLiterals len) :
    exec i s = extendedLiteral k len s := by
  simp only [List.mem_cons, Prod.mk.injEq, List.not_mem_nil, or_false] at h
  obtain ⟨rfl, rfl⟩ | ⟨rfl, rfl⟩ | ⟨rfl, rfl⟩ | ⟨rfl, rfl⟩ := h <;> rfl

end

/-! ## CopyBody and the copies (R213 to R216) -/

section
variable {n len off : Nat}

/-- A copy has repeated the output (R213). -/
def copyMoved (len off : Nat) (s : State) : State :=
  { s with
    out := Memory.repeatBack off s.dec.outPos len s.out
    dec := { s.dec with len := len, offset := off, outPos := s.dec.outPos + len } }

theorem copyBody_of_zero (h : off = 0) : copyBody len off s = .next (raiseError .offsetZero s) := if_pos h

theorem copyBody_of_far (hpos : 1 ≤ off) (hfar : s.dec.outPos < off) :
    copyBody len off s = .next (raiseError .offsetTooFar s) :=
  (if_neg (Nat.ne_zero_of_lt hpos)).trans (if_pos hfar)

theorem copyBody_of_overflow (hpos : 1 ≤ off) (hoff : off ≤ s.dec.outPos)
    (hout : s.dec.declared < s.dec.outPos + len) : copyBody len off s = .next (raiseError .outOverflow s) :=
  (if_neg (Nat.ne_zero_of_lt hpos)).trans ((if_neg (Nat.not_lt.mpr hoff)).trans (if_pos hout))

theorem copyBody_of_fits (hsize : s.dec.declared ≤ s.outSize) (hpos : 1 ≤ off) (hoff : off ≤ s.dec.outPos)
    (hout : s.dec.outPos + len ≤ s.dec.declared) : copyBody len off s = .next (copyMoved len off s) := by
  rw [copyBody, if_neg (Nat.ne_zero_of_lt hpos), if_neg (Nat.not_lt.mpr hoff), if_neg (Nat.not_lt.mpr hout),
    withinOut_of_le _ (hout.trans hsize)]
  rfl

/-- The offset bytes of a copy are read (R214 to R216). -/
def pastOffsetBytes (n : Nat) (s : State) : State := { s with dec := { s.dec with pos := s.dec.pos + n } }

theorem copyOpcode_of_short (h : s.inLen < s.dec.pos + n) :
    copyOpcode n len off s = .next (raiseError .truncCopy s) :=
  if_pos h

theorem copyOpcode_of_present (h : s.dec.pos + n ≤ s.inLen) :
    copyOpcode n len off s = copyBody len off (pastOffsetBytes n s) :=
  if_neg (Nat.not_lt.mpr h)

/-- The copies with their numbers of offset bytes (R75 to R77). -/
abbrev copies (len off : Nat) : List (Nat × Instr) := [(1, .copy1 len off), (2, .copy2 len off), (4, .copy4 len off)]

theorem exec_of_mem_copies {i : Instr} (h : (n, i) ∈ copies len off) : exec i s = copyOpcode n len off s := by
  simp only [List.mem_cons, Prod.mk.injEq, List.not_mem_nil, or_false] at h
  obtain ⟨rfl, rfl⟩ | ⟨rfl, rfl⟩ | ⟨rfl, rfl⟩ := h <;> rfl

end

end

/-! ## The outcomes of the literals and of the copies -/

/-- Settles O20: LiteralBody where both its checks pass. -/
theorem litCompletes : Obligations.LitCompletes := by
  unfold Obligations.LitCompletes
  intro s len hin hsize hdata hout
  exact ⟨_, literalBody_of_fits ⟨hin, hsize⟩ hdata hout, rfl, fun _ hi => Memory.read_moveFrom _ _ _ _ hi,
    fun _ ha => Memory.read_moveFrom_outside _ _ _ _ _ _ ha, rfl, rfl, rfl, (opcodeKeeps_refl s).1⟩

/-- Settles O21: the availability check passes under both settings, and LiteralBody follows. -/
theorem extendedLiteralsComplete : Obligations.ExtendedLiteralsComplete := by
  unfold Obligations.ExtendedLiteralsComplete
  intro s k len i hi hin hsize hwindow hdata hout
  have hpresent : s.dec.pos + extNeed s.par.litExtCheck k ≤ s.inLen := by
    cases hcheck : s.par.litExtCheck with
    | exact => rw [extNeed]; omega
    | window4 => exact hwindow hcheck
  have hexec : exec i s = .next (literalMoved len (pastLengthBytes k s)) :=
    calc exec i s = extendedLiteral k len s := exec_of_mem_extendedLiterals hi
      _ = literalBody len (pastLengthBytes k s) := extendedLiteral_of_present hpresent
      _ = _ := literalBody_of_fits ⟨hin, hsize⟩ hdata hout
  exact ⟨_, hexec, rfl, fun _ hj => Memory.read_moveFrom _ _ _ _ hj,
    fun _ ha => Memory.read_moveFrom_outside _ _ _ _ _ _ ha, rfl, rfl, rfl, (opcodeKeeps_refl s).1⟩

/-- Settles O23: CopyBody where its checks pass, and the move is periodic. -/
theorem copiesRepeatPeriodically : Obligations.CopiesRepeatPeriodically := by
  unfold Obligations.CopiesRepeatPeriodically
  intro s n len off i hi hsize hpresent hpos hoff hout
  have hexec : exec i s = .next (copyMoved len off (pastOffsetBytes n s)) :=
    calc exec i s = copyOpcode n len off s := exec_of_mem_copies hi
      _ = copyBody len off (pastOffsetBytes n s) := copyOpcode_of_present hpresent
      _ = _ := copyBody_of_fits hsize hpos hoff hout
  exact ⟨_, hexec, rfl, fun _ hj => Memory.read_repeatBack _ hpos hoff hj,
    fun _ ha => Memory.read_repeatBack_outside _ _ _ _ _ ha, rfl, rfl, rfl, (opcodeKeeps_refl s).1⟩

/-- Settles O22: each check of LiteralBody and of ReadExtLen in turn. -/
theorem literalsRaise : Obligations.LiteralsRaise := by
  unfold Obligations.LiteralsRaise
  refine ⟨fun s len => ⟨literalBody_of_truncated, literalBody_of_overflow⟩, fun s k len i hi => ?_⟩
  rw [exec_of_mem_extendedLiterals hi, ← extNeed_eq]
  refine ⟨extendedLiteral_of_short, fun hpresent htruncated => ?_, fun hpresent hin hout => ?_⟩
  · exact (extendedLiteral_of_present hpresent).trans (literalBody_of_truncated htruncated)
  · exact (extendedLiteral_of_present hpresent).trans (literalBody_of_overflow hin hout)

/-- Settles O24: each check of a copy in turn. -/
theorem copiesRaise : Obligations.CopiesRaise := by
  unfold Obligations.CopiesRaise
  intro s n len off i hi
  rw [exec_of_mem_copies hi]
  refine ⟨copyOpcode_of_short, fun hpresent => ?_⟩
  rw [copyOpcode_of_present hpresent]
  exact ⟨copyBody_of_zero, fun hpos hfar => copyBody_of_far hpos hfar,
    fun hpos hoff hout => copyBody_of_overflow hpos hoff hout⟩

/-! ## Missing operand bytes (R81, R207, R214 to R216) -/

/-- An assembled instruction has the operand bytes its tag asks for (R78). -/
theorem operandBytes_assemble (c : Byte) (v : Nat) : (assemble c v).operandBytes = (tagKind c).operandBytes := by
  induction c using tag_cases with
  | lit f hf => rw [assemble_litTag v hf, operandBytes_litTag hf, Instr.operandBytes]
  | litx1 | litx2 | litx3 | litx4 => rfl
  | copy1 f hf => rw [assemble_copy1Tag v hf, operandBytes_copy1Tag hf, Instr.operandBytes]
  | copy2 f hf => rw [assemble_copy2Tag v hf, operandBytes_copy2Tag hf, Instr.operandBytes]
  | copy4 f hf => rw [assemble_copy4Tag v hf, operandBytes_copy4Tag hf, Instr.operandBytes]

/-- The literals are the instructions whose tag ends in 00 (R72, R205). -/
theorem copyOffset_assemble_eq_none_iff (c : Byte) (v : Nat) :
    copyOffset (assemble c v) = none ↔ c.extractLsb' 0 2 = 0#2 := by
  induction c using tag_cases with
  | lit f hf => simp [assemble_litTag v hf, kindBits_tagByte (f := f) (k := 0) (by omega), copyOffset]
  | litx1 | litx2 | litx3 | litx4 => exact iff_of_true rfl (by decide)
  | copy1 f hf => simp [assemble_copy1Tag v hf, kindBits_tagByte (k := 1) hf, copyOffset]
  | copy2 f hf => simp [assemble_copy2Tag v hf, kindBits_tagByte (k := 2) hf, copyOffset]
  | copy4 f hf => simp [assemble_copy4Tag v hf, kindBits_tagByte (k := 3) hf, copyOffset]

theorem operandsMissing_of_decode {bytes : List Byte} (h : decode bytes = .error .operandsMissing) :
    ∃ c rest, bytes = c :: rest ∧ rest.length < (tagKind c).operandBytes := by
  cases bytes with
  | nil => cases h
  | cons c rest =>
    refine ⟨c, rest, rfl, Nat.lt_of_not_le fun hpresent => ?_⟩
    rw [decode_cons_of_le hpresent] at h
    cases h

section
variable {s : State} {i : Instr}

theorem exec_of_lit (hkind : copyOffset i = none) (hoperands : i.operandBytes = 0) : exec i s = literalBody i.len s := by
  cases i with
  | lit => rfl
  | litx1 | litx2 | litx3 | litx4 => cases hoperands
  | copy1 | copy2 | copy4 => cases hkind

theorem exec_of_extended (hkind : copyOffset i = none) (hoperands : 0 < i.operandBytes) :
    exec i s = extendedLiteral i.operandBytes i.len s := by
  cases i with
  | lit => exact absurd rfl hoperands.ne
  | litx1 | litx2 | litx3 | litx4 => rfl
  | copy1 | copy2 | copy4 => cases hkind

theorem exec_of_copy {off : Nat} (hkind : copyOffset i = some off) :
    exec i s = copyOpcode i.operandBytes i.len off s := by
  cases i with
  | lit | litx1 | litx2 | litx3 | litx4 => cases hkind
  | copy1 | copy2 | copy4 => cases hkind; rfl

/-- What a tag without all its operand bytes raises. -/
def missingOperands (c : Byte) : Error := if c.extractLsb' 0 2 = 0#2 then .truncLitLen else .truncCopy

theorem missingOperands_mem (c : Byte) : missingOperands c ∈ opcodeErrors := by
  unfold missingOperands
  split <;> decide

theorem exec_assemble_of_missing {c : Byte} (v : Nat) (hoperands : 0 < (tagKind c).operandBytes)
    (hmissing : s.inLen < s.dec.pos + (tagKind c).operandBytes) :
    exec (assemble c v) s = .next (raiseError (missingOperands c) s) := by
  have hkind := copyOffset_assemble_eq_none_iff c v
  have hle := operandBytes_tagKind_le c
  rw [← operandBytes_assemble c v] at hoperands hmissing hle
  cases hoff : copyOffset (assemble c v) with
  | none =>
    rw [missingOperands, if_pos (hkind.mp hoff), exec_of_extended hoff hoperands]
    exact extendedLiteral_of_short (hmissing.trans_le (Nat.add_le_add_left (le_extNeed _ hle) _))
  | some off =>
    rw [missingOperands, if_neg fun h => by simp [hkind.mpr h] at hoff, exec_of_copy hoff]
    exact copyOpcode_of_short hmissing

theorem engineStep_of_decompress {place : DecompressAt} (h : s.engine = .decompress place) :
    engineStep s = stepDecompress place s := by
  rw [engineStep, h]

/-- The opcode loop executes what it fetches (R204). -/
theorem engineStep_of_more (he : s.engine = .decompress .loop) (hin : s.inLen ≤ s.inSize)
    (hmore : s.dec.pos < s.inLen) : engineStep s = exec (fetchInstr s) (enterOpcode s) :=
  (engineStep_of_decompress he).trans <| (if_pos hmore).trans <| withinIn_of_le _ ((fetchedBytes_le hmore).trans hin)

theorem engineStep_of_operandsMissing (he : s.engine = .decompress .loop) (hin : s.inLen ≤ s.inSize)
    (hdecode : decode (remainingBytes s) = .error .operandsMissing) :
    engineStep s = .next (raiseError (missingOperands (s.inp.read s.dec.pos)) (enterOpcode s)) := by
  obtain ⟨c, rest, hbytes, hmissing⟩ := operandsMissing_of_decode hdecode
  have hmore : s.dec.pos < s.inLen := by
    by_contra hnone
    rw [remainingBytes_eq_nil (Nat.le_of_not_lt hnone)] at hbytes
    cases hbytes
  rw [remainingBytes_eq_cons hmore] at hbytes
  cases hbytes
  rw [Memory.length_readBytes] at hmissing
  rw [engineStep_of_more he hin hmore]
  exact exec_assemble_of_missing _ (by omega) (show s.inLen < s.dec.pos + 1 + _ by omega)

end

/-- Settles O19: the check of the operand bytes is the first of the opcode fetched, and its error names the tag. -/
theorem missingOperandsRaise : Obligations.MissingOperandsRaise := by
  unfold Obligations.MissingOperandsRaise
  intro s u hturn hloop hin hdecode
  exact ⟨_, (step_of_engineTurn hturn).trans (engineStep_of_operandsMissing hloop hin hdecode), rfl, rfl, rfl,
    errPosOf_opcodeErrors (missingOperands_mem _) _, rfl, rfl, rfl⟩

end Sys2Proof.Machine
end

section
/-! DECOMPRESS as a function of its stream (R200 to R222): its start and its end check by check, what one step of the opcode loop does to any stream, and the run that these steps make. -/

namespace Sys2Proof.Machine

/-! ## The header (R102) -/

/-- VARINT_DECODE reads no more bytes than its loop has passes. -/
theorem varintDecodeAux_take (fuel : Nat) (stream : List Byte) (result : Word) (shift pos : Nat) :
    varintDecodeAux fuel (stream.take fuel) result shift pos = varintDecodeAux fuel stream result shift pos := by
  induction fuel generalizing stream result shift pos with
  | zero => rfl
  | succ fuel ih =>
    cases stream with
    | nil => rfl
    | cons b rest => simp only [List.take_succ_cons, varintDecodeAux, ih]

section
variable {s : State}

/-- The header window decodes as all bytes below IN_LEN do. -/
theorem varintDecode_window (s : State) : varintDecode (headerWindow s) = varintDecode (s.inp.readBytes 0 s.inLen) := by
  have htake : headerWindow s = (s.inp.readBytes 0 s.inLen).take Config.varintMaxBytes := by
    rw [headerWindow, ← Memory.take_readBytes _ _ (Nat.min_le_right ..), List.take_eq_take_iff,
      Memory.length_readBytes, Nat.min_assoc, Nat.min_self]
  rw [htake]
  exact varintDecodeAux_take ..

/-! ## The start (R201 to R203, R247) -/

/-- The header is read: L and HDR_LEN hold its value, and `pos` stands after it (R201). -/
def headerRead (L : Word) (pos : Nat) (s : State) : State :=
  { s with regs := { s.regs with hdrLen := L }, dec := { s.dec with declared := L.toNat, pos := pos } }

/-- The opcode loop begins (R200). -/
def loopBegun (s : State) : State := { s with engine := .decompress .loop, dec := { s.dec with outPos := 0 } }

theorem checkSizes_passes (hcap : s.regs.maxlenEn = true → s.dec.declared ≤ s.regs.maxLen.toNat)
    (hout : s.dec.declared ≤ s.outSize) : checkSizes s = .next (loopBegun s) :=
  (if_neg fun h => Nat.not_lt.mpr (hcap h.1) h.2).trans (if_neg (Nat.not_lt.mpr hout))

theorem decompressStart_of_tooBig (h : s.inSize < s.inLen) : decompressStart s = .next (raiseError .inLenTooBig s) :=
  if_pos h

section
variable (hin : s.inLen ≤ s.inSize)
include hin

theorem decompressStart_of_error {e : Error} (h : varintDecode (s.inp.readBytes 0 s.inLen) = .error e) :
    decompressStart s = .next (raiseError e s) := by
  rw [decompressStart, if_neg (Nat.not_lt.mpr hin), varintDecode_window, h]

theorem decompressStart_of_ok {L : Word} {pos : Nat} (h : varintDecode (s.inp.readBytes 0 s.inLen) = .ok (L, pos)) :
    decompressStart s = checkSizes (headerRead L pos s) := by
  rw [decompressStart, if_neg (Nat.not_lt.mpr hin), varintDecode_window, h]
  rfl

end

end

/-- Settles O28: the checks of `decompressStart`, then those of `checkSizes`. -/
theorem decompressStartChecks : Obligations.DecompressStartChecks := by
  unfold Obligations.DecompressStartChecks
  intro s he
  rw [engineStep_of_decompress he]
  refine ⟨decompressStart_of_tooBig, fun hin => ⟨fun e => decompressStart_of_error hin, fun L pos hheader => ?_⟩⟩
  obtain ⟨t, ht⟩ := checkSizes_goesOn (headerRead L pos s)
  refine ⟨t, (decompressStart_of_ok hin hheader).trans ht, ?_⟩
  rcases checkSizes_next ht with ⟨hen, hover, rfl⟩ | ⟨hcap, hover, rfl⟩ | ⟨hcap, hfits, rfl⟩
  · exact ⟨rfl, rfl, (opcodeKeeps_refl s).1, fun _ _ => ⟨rfl, rfl, rfl, rfl⟩,
      fun hcap => absurd (hcap hen) (Nat.not_le.mpr hover), fun hcap => absurd (hcap hen) (Nat.not_le.mpr hover)⟩
  · exact ⟨rfl, rfl, (opcodeKeeps_refl s).1, fun hen hover => absurd (hcap hen) (Nat.not_le.mpr hover),
      fun _ _ => ⟨rfl, rfl, rfl, rfl⟩, fun _ hfits => absurd hfits (Nat.not_le.mpr hover)⟩
  · exact ⟨rfl, rfl, (opcodeKeeps_refl s).1, fun hen hover => absurd (hcap hen) (Nat.not_le.mpr hover),
      fun _ hover => absurd hfits (Nat.not_le.mpr hover), fun _ _ => ⟨rfl, rfl, rfl, rfl⟩⟩

/-- Settles O29: the two ends of R217. -/
theorem endOfStreamChecksLength : Obligations.EndOfStreamChecksLength := by
  unfold Obligations.EndOfStreamChecksLength
  intro s he hpos
  have hend : engineStep s = endOfStream s := (engineStep_of_decompress he).trans (if_neg hpos.not_lt)
  rw [hend]
  refine ⟨fun hshort => ?_, fun hfull => ?_⟩
  · exact ⟨_, if_pos hshort, rfl, rfl, rfl, rfl, (opcodeKeeps_refl s).1⟩
  · exact ⟨_, if_neg (not_not.mpr hfull), rfl, rfl, Bool.true_and _, rfl, rfl, (opcodeKeeps_refl s).1⟩

/-! ## The meaning of a stream as a relation (R200 to R218) -/

theorem eq_nil_of_decode_noTag {stream : List Byte} (h : decode stream = .error .noTag) : stream = [] := by
  cases stream with
  | nil => rfl
  | cons c rest =>
    rw [decode] at h
    split at h <;> cases h

/-- What `expandFrom` computes the relation holds of. -/
theorem Expands.of_expandFrom {fuel : Nat} {stream before after : List Byte}
    (h : expandFrom fuel stream before = some after) : Expands stream before after := by
  induction fuel generalizing stream before with
  | zero =>
    rw [expandFrom] at h
    split at h
    next hnil =>
      cases h
      rw [List.length_eq_zero_iff.mp hnil]
      exact .nil _
    next => cases h
  | succ fuel ih =>
    rw [expandFrom] at h
    split at h
    next hdecode =>
      cases h
      rw [eq_nil_of_decode_noTag hdecode]
      exact .nil _
    next => cases h
    next i rest hdecode =>
      split at h
      next hkind =>
        split at h
        next => cases h
        next hpresent =>
          refine .literal (data := rest.take i.len) (rest := rest.drop i.len) ?_ hkind ?_ (ih h)
          · rw [List.take_append_drop, hdecode]
          · exact List.length_take_of_le (Nat.le_of_not_lt hpresent)
      next off hkind =>
        split at h
        next => cases h
        next hinside => exact .copy hdecode hkind (by omega) (by omega) (ih h)

/-! ## An opcode that did not end the command has completed (R206 to R216) -/

section
variable {s t : State} {i : Instr}

theorem literalBody_completed {len : Nat} (h : literalBody len s = .next t) (hruns : t.engine ≠ .idle) :
    s.dec.pos + len ≤ s.inLen ∧ Completed len (outputSoFar s ++ s.inp.readBytes s.dec.pos len) s t := by
  rcases literalBody_next h with ⟨-, rfl⟩ | ⟨-, -, rfl⟩ | ⟨hin, -, -, -, rfl⟩
  · exact absurd rfl hruns
  · exact absurd rfl hruns
  · exact ⟨hin, opcodeKeeps_refl s, rfl, rfl, rfl, Memory.readBytes_moveFrom ..⟩

theorem copyBody_completed {len off : Nat} (h : copyBody len off s = .next t) (hruns : t.engine ≠ .idle) :
    1 ≤ off ∧ off ≤ s.dec.outPos ∧ Completed 0 (repeatBytes off len (outputSoFar s)) s t := by
  rcases copyBody_next h with ⟨-, rfl⟩ | ⟨-, -, rfl⟩ | ⟨-, -, -, rfl⟩ | ⟨hpos, hoff, -, -, rfl⟩
  · exact absurd rfl hruns
  · exact absurd rfl hruns
  · exact absurd rfl hruns
  · exact ⟨hpos, hoff, opcodeKeeps_refl s, rfl, rfl, rfl, Memory.readBytes_repeatBack len s.out hpos hoff⟩

theorem exec_literal_completed (hkind : copyOffset i = none) (h : exec i s = .next t) (hruns : t.engine ≠ .idle) :
    s.dec.pos + i.operandBytes + i.len ≤ s.inLen ∧ Completed (i.operandBytes + i.len)
      (outputSoFar s ++ s.inp.readBytes (s.dec.pos + i.operandBytes) i.len) s t := by
  rcases Nat.eq_zero_or_pos i.operandBytes with hzero | hoperands
  · rw [exec_of_lit hkind hzero] at h
    rw [hzero, Nat.zero_add]
    exact literalBody_completed h hruns
  · rw [exec_of_extended hkind hoperands] at h
    rcases extendedLiteral_next h with ⟨-, rfl⟩ | ⟨-, hbody⟩
    · exact absurd rfl hruns
    · obtain ⟨hin, hdone⟩ := literalBody_completed hbody hruns
      exact ⟨hin, hdone.of_step_over rfl⟩

theorem exec_copy_completed {off : Nat} (hkind : copyOffset i = some off) (h : exec i s = .next t)
    (hruns : t.engine ≠ .idle) : 1 ≤ off ∧ off ≤ s.dec.outPos ∧
      Completed i.operandBytes (repeatBytes off i.len (outputSoFar s)) s t := by
  rw [exec_of_copy hkind] at h
  rcases copyOpcode_next h with ⟨-, rfl⟩ | ⟨-, hbody⟩
  · exact absurd rfl hruns
  · obtain ⟨hpos, hoff, hdone⟩ := copyBody_completed hbody hruns
    exact ⟨hpos, hoff, hdone.of_step_over rfl⟩

/-! ## One step of the loop on any stream (R204, R217) -/

/-- The command that was at `s` in its opcode loop has ended in `t`: without an error only with the meaning of the stream in OUT. -/
structure EndsSoundly (s t : State) : Prop where
  engine : t.engine = .idle
  done : t.regs.done = true
  success : t.regs.err = none → t.regs.outLen = BitVec.ofNat 32 s.dec.declared ∧ t.outLost = s.outLost ∧
    Expands (remainingBytes s) (outputSoFar s) (t.out.readBytes 0 s.dec.declared)

/-- One opcode of the loop leads from `s` to `t`: what the rest of the stream makes of the output at `t`, the stream makes of the output at `s`. -/
structure Advances (s t : State) : Prop where
  looping : Looping t
  declared : t.dec.declared = s.dec.declared
  lost : t.outLost = s.outLost
  shorter : (remainingBytes t).length < (remainingBytes s).length
  expands (after : List Byte) : Expands (remainingBytes t) (outputSoFar t) after →
    Expands (remainingBytes s) (outputSoFar s) after

theorem endsSoundly_raiseError (e : Error) (u : State) : EndsSoundly s (raiseError e u) := ⟨rfl, rfl, nofun⟩

theorem EndsSoundly.of_advances {u : State} (hend : EndsSoundly t u) (h : Advances s t) : EndsSoundly s u := by
  refine ⟨hend.engine, hend.done, fun herr => ?_⟩
  obtain ⟨hlen, hlost, hexpands⟩ := hend.success herr
  rw [h.declared] at hlen hexpands
  exact ⟨hlen, hlost.trans h.lost, h.expands _ hexpands⟩

theorem advances_of_loopsOn {data rest output : List Byte} (h : LoopsOn rest output s t) (hlost : t.outLost = s.outLost)
    (hdecode : decode (remainingBytes s) = .ok (i, data ++ rest))
    (hexpands : ∀ after, Expands rest output after → Expands (remainingBytes s) (outputSoFar s) after) :
    Advances s t := by
  have hshorter := length_lt_of_decode hdecode
  rw [List.length_append] at hshorter
  refine ⟨h.looping, h.declared, hlost, ?_, ?_⟩
  · rw [h.remaining]
    omega
  · rw [h.remaining, h.output]
    exact hexpands

theorem advances_of_literal {rest : List Byte} (hloop : Looping s) (hdecode : decode (remainingBytes s) = .ok (i, rest))
    (hkind : copyOffset i = none) (hexec : exec i (enterOpcode s) = .next t) (hruns : t.engine ≠ .idle)
    (hlost : t.outLost = s.outLost) : Advances s t := by
  obtain ⟨hin, hdone⟩ := exec_literal_completed hkind hexec hruns
  obtain ⟨hlen, -⟩ := bytes_of_decode (data := []) hdecode
  obtain ⟨data, tail, rfl, hdata⟩ : ∃ data tail, rest = data ++ tail ∧ data.length = i.len := by
    refine ⟨_, _, (List.take_append_drop i.len rest).symm, List.length_take_of_le ?_⟩
    change s.dec.pos + 1 + i.operandBytes + i.len ≤ s.inLen at hin
    rw [List.length_nil] at hlen
    omega
  obtain ⟨-, hbytes, -⟩ := bytes_of_decode hdecode
  rw [enterOpcode_inp, enterOpcode_pos, ← hdata, ← hbytes] at hdone
  exact advances_of_loopsOn (loopsOn_of_completed hloop hdecode hexec hdone) hlost hdecode fun _ =>
    .literal hdecode hkind hdata

theorem advances_of_copy {off : Nat} {rest : List Byte} (hloop : Looping s)
    (hdecode : decode (remainingBytes s) = .ok (i, rest)) (hkind : copyOffset i = some off)
    (hexec : exec i (enterOpcode s) = .next t) (hruns : t.engine ≠ .idle) (hlost : t.outLost = s.outLost) :
    Advances s t := by
  obtain ⟨hpos, hoff, hdone⟩ := exec_copy_completed hkind hexec hruns
  have hloops := loopsOn_of_completed (data := []) hloop hdecode hexec hdone
  exact advances_of_loopsOn (data := []) hloops hlost hdecode fun _ =>
    .copy hdecode hkind hpos (hoff.trans_eq (length_outputSoFar s).symm)

/-- The end of the stream (R217). -/
theorem endsSoundly_endOfStream (hstep : endOfStream s = .next t) (hend : remainingBytes s = []) : EndsSoundly s t := by
  rcases endOfStream_next.mp hstep with ⟨-, rfl⟩ | ⟨hfull, rfl⟩
  · exact endsSoundly_raiseError _ s
  · refine ⟨rfl, rfl, fun _ => ⟨rfl, rfl, ?_⟩⟩
    rw [hend, ← hfull]
    exact .nil _

theorem opcode_step {rest : List Byte} (hloop : Looping s) (hdecode : decode (remainingBytes s) = .ok (i, rest)) :
    ∃ t, engineStep s = .next t ∧ (EndsSoundly s t ∨ Advances s t) := by
  obtain ⟨hmore, hfetch⟩ := fetchInstr_of_decode hdecode
  obtain ⟨t, hexec⟩ := exec_goesOn (s := enterOpcode s) i hloop.sizes
  refine ⟨t, by rw [engineStep_of_more hloop.engine hloop.sizes.1 hmore, hfetch, hexec], ?_⟩
  obtain ⟨-, hresult⟩ := exec_result hexec
  cases hresult with
  | raises e _ u ht => exact .inl (ht ▸ endsSoundly_raiseError e u)
  | completes _ hengine hlost =>
    have hruns : t.engine ≠ .idle := by
      rw [hengine, enterOpcode_engine, hloop.engine]
      exact nofun
    cases hkind : copyOffset i with
    | none => exact .inr (advances_of_literal hloop hdecode hkind hexec hruns hlost)
    | some off => exact .inr (advances_of_copy hloop hdecode hkind hexec hruns hlost)

/-- Whatever the stream, one step of the loop ends the command or takes one opcode off the stream. -/
theorem loop_step (hloop : Looping s) : ∃ t, engineStep s = .next t ∧ (EndsSoundly s t ∨ Advances s t) := by
  match hdecode : decode (remainingBytes s) with
  | .error .noTag =>
    have hend := eq_nil_of_decode_noTag hdecode
    have hpos : ¬s.dec.pos < s.inLen := fun hmore => by
      rw [remainingBytes_eq_cons hmore] at hend
      cases hend
    obtain ⟨t, ht⟩ := endOfStream_goesOn (s := s)
    exact ⟨t, (engineStep_of_decompress hloop.engine).trans ((if_neg hpos).trans ht),
      .inl (endsSoundly_endOfStream ht hend)⟩
  | .error .operandsMissing =>
    exact ⟨_, engineStep_of_operandsMissing hloop.engine hloop.sizes.1 hdecode, .inl (endsSoundly_raiseError _ _)⟩
  | .ok (i, rest) => exact opcode_step hloop hdecode

/-- The loop ends within as many steps as bytes are left and one more (R282). -/
theorem loop_ends (hloop : Looping s) : ∃ k t, k ≤ (remainingBytes s).length + 1 ∧
    Host.Core.run Sys2Proof.core k s = .next t ∧ EndsSoundly s t := by
  induction hn : (remainingBytes s).length using Nat.strong_induction_on generalizing s with
  | _ n ih =>
    obtain ⟨t, hstep, hend | hadvances⟩ := loop_step hloop
    · exact ⟨1, t, Nat.le_add_left .., (run_succ hloop.turns).mpr ⟨t, hstep, rfl⟩, hend⟩
    · have hshorter := hn ▸ hadvances.shorter
      obtain ⟨k, u, hk, hrun, hend⟩ := ih _ hshorter hadvances.looping rfl
      exact ⟨k + 1, u, by omega, (run_succ hloop.turns).mpr ⟨t, hstep, hrun⟩, hend.of_advances hadvances⟩

end

/-- Settles O55: the loop ends soundly on every stream, and where the opcodes expand to L bytes under EXACT the one state it can end in is that of a success. -/
theorem decompressComputesExpansion : Obligations.DecompressComputesExpansion := by
  unfold Obligations.DecompressComputesExpansion
  intro s L pos hturns he hin hheader hcap hout
  have hstart : engineStep s = .next (loopBegun (headerRead L pos s)) :=
    calc engineStep s = decompressStart s := engineStep_of_decompress he
      _ = checkSizes (headerRead L pos s) := decompressStart_of_ok hin hheader
      _ = _ := checkSizes_passes hcap hout
  have hloop : Looping (loopBegun (headerRead L pos s)) := ⟨hturns, rfl, hin, hout⟩
  obtain ⟨k, t, -, hrun, hend⟩ := loop_ends hloop
  refine ⟨k + 1, t, (run_succ hturns).mpr ⟨_, hstart, hrun⟩, hend.engine, hend.done, fun herr => ?_,
    fun bytes hexact hexpand hlen => ?_⟩
  · obtain ⟨houtLen, hlost, hexpands⟩ := hend.success herr
    exact ⟨houtLen.trans ((BitVec.ofNat_toNat 32 L).trans (BitVec.setWidth_eq L)), hlost, hexpands.expand_eq⟩
  · obtain ⟨k', u, hrun', -⟩ := loop_reaches_end (Expands.of_expandFrom hexpand) hloop rfl rfl hlen
      fun hwindow => by cases hexact.symm.trans hwindow
    rw [run_idle_unique hloop.turns hrun hend.engine hrun' rfl]
    rfl

end Sys2Proof.Machine
end

section
/-! Errors and the busy core, as the host sees them: what a raise writes (R242, R244), the register block while a command runs (R262), and OUT where its bytes are unspecified (R244, R275). -/

namespace Sys2Proof.Machine

/-! ## Raising an error (R242, R244) -/

/-- R242: LEN_SHORT names IN_LEN, an error of an opcode its tag, and every other error 0. -/
theorem errPosOf_eq (e : Error) (s : State) : errPosOf e s =
    if e = .lenShort then s.regs.inLen else if e ∈ opcodeErrors then BitVec.ofNat 32 s.dec.tagPos else 0#32 := by
  cases e <;> rfl

theorem raiseError_regs (e : Error) (s : State) : (raiseError e s).regs =
    { s.regs with done := true, err := some e, errPos := errPosOf e s, outLen := 0#32 } := rfl

theorem busy_raiseError (e : Error) (s : State) : (raiseError e s).busy = false :=
  busy_eq_false_iff.mpr (raiseError_engine e s)

theorem irq_raiseError (e : Error) (s : State) : (raiseError e s).irq = s.regs.ie := by
  rw [State.irq, raiseError_done, raiseError_ie, Bool.true_and]

/-- Settles O26: the registers with ERR_POS as R242 gives it, the engine IDLE, and the frame. -/
theorem raiseEndsTheCommand : Obligations.RaiseEndsTheCommand := by
  unfold Obligations.RaiseEndsTheCommand
  intro e s
  have hregs := raiseError_regs e s
  rw [errPosOf_eq] at hregs
  have hframe : SameButDecoder s (raiseError e s) := ⟨rfl, rfl, rfl, rfl, rfl, rfl, rfl⟩
  exact ⟨hregs, raiseError_engine e s, busy_raiseError e s, irq_raiseError e s, raiseError_out e s,
    raiseError_outLost e s, raiseError_dec e s, hframe⟩

/-! ## The register block while a command runs (R262) -/

section
variable {s : State}

/-- STATUS bit 1 clears DONE only, so its write changes nothing where DONE is 0 (R22). -/
theorem writeStatus_of_not_done (v : Word) (h : s.regs.done = false) : writeStatus v s = s := by
  rw [writeStatus_eq, h, Bool.false_and, ← h]

/-- R262: CTRL, IN_LEN and MAX_LEN are locked by BUSY, STATUS has no DONE to clear, and the other offsets ignore a write at any time. -/
theorem writeRegister_of_busy (offset : Nat) (v : Word) (hbusy : s.busy = true) (hdone : s.regs.done = false) :
    writeRegister offset v s = s := by
  unfold writeRegister
  split
  · exact writeCtrl_of_busy v hbusy
  · exact writeStatus_of_not_done v hdone
  · exact if_pos hbusy
  · exact if_pos hbusy
  · rfl

end

/-- Settles O38: the running command has DONE = 0, so every write is ignored; a read is as at any time. -/
theorem writesIgnoredWhileBusy : Obligations.WritesIgnoredWhileBusy := by
  unfold Obligations.WritesIgnoredWhileBusy
  intro s u offset v hwf hbusy hstatus hlt halign
  obtain ⟨hwhile, -⟩ := hstatus
  obtain ⟨hdone, -⟩ := hwhile hbusy
  obtain ⟨hreads, -⟩ := registerReads
  refine ⟨fun hturn => ?_, fun hturn => hreads s u offset hturn hwf hlt halign⟩
  rw [step_of_hostTurn hturn, hostAccess_writeReg v hwf hlt halign, writeRegister_of_busy offset v hbusy hdone]

/-! ## OUT where its bytes are unspecified (R244, R275) -/

section
variable {s : State}

/-- R275: a read while a command runs answers with a value of its own draw. -/
theorem readOutByte_of_busy (addr : Nat) (h : s.busy = true) : readOutByte addr s =
    { s with rdata := (Config.freeByte s.draws addr).setWidth 32, draws := s.draws + 1 } := if_pos h

theorem settleOut_of_lost (h : s.outLost = true) :
    settleOut s = { s with out := Memory.unspecified s.draws, outLost := false, draws := s.draws + 1 } := if_pos h

/-- R244: a read after an error draws OUT's contents anew and answers with the byte there. -/
theorem readOutByte_of_lost (addr : Nat) (hidle : s.busy = false) (hlost : s.outLost = true) : readOutByte addr s =
    { s with rdata := (Config.freeByte s.draws addr).setWidth 32, out := Memory.unspecified s.draws,
             outLost := false, draws := s.draws + 1 } := by
  rw [readOutByte, if_neg (by simp [hidle]), settleOut_of_lost hlost]
  rfl

end

/-- Settles O42: while BUSY the read draws a value, and after an error it draws OUT's contents. -/
theorem outIsUnspecifiedAfterErrorAndWhileBusy : Obligations.OutIsUnspecifiedAfterErrorAndWhileBusy := by
  unfold Obligations.OutIsUnspecifiedAfterErrorAndWhileBusy
  intro s u addr hturn haddr hunspecified
  rw [step_of_hostTurn hturn, hostAccess_readOut haddr]
  refine ⟨_, rfl, ?_⟩
  cases hbusy : u.busy with
  | true =>
    rw [readOutByte_of_busy addr hbusy]
    exact ⟨rfl, rfl, rfl, rfl, rfl⟩
  | false =>
    have hlost : u.outLost = true := hunspecified.resolve_left (by simp [hbusy])
    rw [readOutByte_of_lost addr hbusy hlost]
    exact ⟨rfl, rfl, rfl, rfl, rfl⟩

end Sys2Proof.Machine
end

section
/-! The whole commands end (R281, R282), and reset (R270, R272): what the registers read after it, and that it meets the invariants. -/

namespace Sys2Proof.Machine

/-! ## DECOMPRESS ends (R282) -/

section
variable {s t : State}

theorem length_remainingBytes_le (s : State) : (remainingBytes s).length ≤ s.inLen := by
  rw [remainingBytes, Memory.length_readBytes]
  exact Nat.sub_le ..

/-- The size checks end the command or begin the opcode loop (R202, R203). -/
theorem checkSizes_ends_or_loops (hturns : s.turns = []) (hin : s.inLen ≤ s.inSize) (h : checkSizes s = .next t) :
    (t.engine = .idle ∧ t.regs.done = true) ∨ (Looping t ∧ t.inLen = s.inLen) := by
  rcases checkSizes_next h with ⟨-, -, rfl⟩ | ⟨-, -, rfl⟩ | ⟨-, hout, rfl⟩
  · exact .inl ⟨rfl, rfl⟩
  · exact .inl ⟨rfl, rfl⟩
  · exact .inr ⟨⟨hturns, rfl, hin, hout⟩, rfl⟩

/-- The first step of DECOMPRESS ends the command with an error or begins the opcode loop (R201 to R203, R249). -/
theorem decompressStart_ends_or_loops (hturns : s.turns = []) (h : decompressStart s = .next t) :
    (t.engine = .idle ∧ t.regs.done = true) ∨ (Looping t ∧ t.inLen = s.inLen) := by
  rcases decompressStart_next.mp h with ⟨-, rfl⟩ | ⟨-, e, -, rfl⟩ | ⟨hin, L, pos, -, hsizes⟩
  · exact .inl ⟨rfl, rfl⟩
  · exact .inl ⟨rfl, rfl⟩
  · exact checkSizes_ends_or_loops (s := headerRead L pos s) hturns hin hsizes

end

/-- Settles O53: one step for the start, then at most one for each byte of the stream and one for its end. -/
theorem decompressEnds : Obligations.DecompressEnds := by
  unfold Obligations.DecompressEnds
  intro s hturns he
  obtain ⟨u, hu⟩ := decompressStart_goesOn (s := s)
  have hstart : engineStep s = .next u := (engineStep_of_decompress he).trans hu
  rcases decompressStart_ends_or_loops hturns hu with ⟨hidle, hdone⟩ | ⟨hloop, hlen⟩
  · exact ⟨1, u, by omega, (run_succ hturns).mpr ⟨u, hstart, rfl⟩, hidle, hdone⟩
  · obtain ⟨k, t, hk, hrun, hend⟩ := loop_ends hloop
    have hbytes := length_remainingBytes_le u
    exact ⟨k + 1, t, by omega, (run_succ hturns).mpr ⟨u, hstart, hrun⟩, hend.engine, hend.done⟩

/-! ## COMPRESS ends (R281, R282) -/

/-- The step that stops the engine inside COMPRESS sets DONE, with an error or without one (R244, R250). -/
theorem done_of_stepCompress_idle {place : CompressAt} {s t : State} (he : s.engine = .compress place)
    (hstep : stepCompress place s = .next t) (hidle : t.engine = .idle) : t.regs.done = true := by
  rcases stepCompress_idle he hstep hidle with ⟨-, -, e, rfl⟩ | ⟨-, -, rfl⟩
  · exact raiseError_done e s
  · exact finish_done _

/-- Settles O54: `stepsLeft` bounds the steps from the start by three for each byte and two more. -/
theorem compressEnds : Obligations.CompressEnds := by
  unfold Obligations.CompressEnds
  intro s hturns he
  obtain ⟨k, hk, last, u, t, hrun, hlast, -, -, hstep, hidle⟩ := compress_reaches_last_step (P := fun _ _ => True)
    (fun _ _ _ _ _ _ => trivial) hturns he trivial trivial
  rw [stepsLeft] at hk
  exact ⟨k, t, by omega, hrun, hidle, done_of_stepCompress_idle hlast hstep hidle⟩

/-! ## Reset (R270, R272) -/

section
variable (p : Params) (draws : Nat) (turns : List Turn)

/-- R270: after reset every register but IN_CAP and OUT_CAP reads 0, the reserved offsets among them. -/
theorem registerValue_resetOf {offset : Nat} (hinCap : offset ≠ 0x1C) (houtCap : offset ≠ 0x20) :
    registerValue (State.resetOf p draws turns) offset = 0#32 := by
  unfold registerValue
  split
  case h_8 => exact absurd rfl hinCap
  case h_9 => exact absurd rfl houtCap
  all_goals rfl

theorem statusInv_resetOf : StatusInv (State.resetOf p draws turns) :=
  statusInv_of_idle rfl (fun _ => rfl) (fun _ => rfl) nofun

end

/-- Settles O43: the registers by `registerValue_resetOf`; the engine is IDLE, so a step leaves the state as it is. -/
theorem resetValues : Obligations.ResetValues := by
  unfold Obligations.ResetValues
  refine ⟨?_, rfl, rfl⟩
  rintro p draws turns s rfl
  exact ⟨fun _ _ _ => registerValue_resetOf p draws turns, rfl, rfl, rfl, rfl, rfl⟩

/-- Settles O45: the storages list nothing, and the idle engine meets what is claimed of a running command. -/
theorem resetMeetsTheInvariants : Obligations.ResetMeetsTheInvariants := by
  unfold Obligations.ResetMeetsTheInvariants
  have hidle : State.reset.engine = .idle := rfl
  exact ⟨wf_resetOf .., statusInv_resetOf .., decompressInv_of_idle hidle, compressInv_of_idle hidle, by decide⟩

end Sys2Proof.Machine
end
